-- ==== Sys2Proof/Word.lean ====
section
/-! DEFINITION. The Word of the block (00_scope.md R8): an unsigned 16-bit value, the unit of memory
cells, registers and table entries. -/

namespace Sys2Proof

/-- R8, R11: a Word, `WORD_BITS` = 16 bits. -/
abbrev Word := BitVec 16

end Sys2Proof
end

