-- ==== Sys2Proof/Config.lean ====
section
/-! DEFINITION. The configuration record of 00_scope.md R6: what an implementation of the block fixes, and
the two values the spec leaves open. Every operation takes the record; the defaults of R6 are
`Sys2Proof.defaultConfig` (Machine/Parameters.lean). -/

namespace Sys2Proof

/-- R6: the implementation parameters, fixed for the life of a machine (R10: not state). Field names
follow the parameter column of R6. -/
structure Config where
  /-- width of a Word -/
  wordBits : Nat
  /-- low bits of a virtual address that are the page offset -/
  offsetBits : Nat
  /-- high bits of a virtual address that are the virtual page number -/
  vpnBits : Nat
  /-- Words per page and per frame -/
  pageWords : Nat
  /-- entries per page table -/
  ptEntries : Nat
  /-- physical frames -/
  numFrames : Nat
  /-- width of a frame number -/
  frameBits : Nat
  /-- Words of physical memory -/
  memWords : Nat
  /-- lowest frames, never assignable -/
  reservedFrames : Nat
  /-- address of the active-process marker -/
  curPidAddr : Nat
  /-- address of the count of processes created -/
  procCountAddr : Nat
  /-- address of the first frame-bitmap Word -/
  bitmapAddr : Nat
  /-- number of frame-bitmap Words -/
  bitmapWords : Nat
  /-- address of PCB slot 0 -/
  pcbBase : Nat
  /-- Words per PCB -/
  pcbWords : Nat
  /-- address of the page table of pid 0 -/
  ptRegionBase : Nat
  /-- capacity of the PCB table -/
  maxProcs : Nat
  /-- virtual pages below it always fault -/
  reservedVpnBoundary : Nat
  /-- first virtual page of the code segment -/
  codeBaseVpn : Nat
  /-- pages mapped for code at creation -/
  codePages : Nat
  /-- first virtual page of the heap segment -/
  heapBaseVpn : Nat
  /-- pages mapped for heap at creation -/
  heapPages : Nat
  /-- saved PC of a new process -/
  initialPc : Nat
  /-- sentinel id of a terminated PCB slot -/
  terminated : Nat
  /-- value of the active-process marker before any LOAD -/
  noProcess : Nat
  /-- trap vector number of HALT -/
  trapHalt : Nat
  /-- trap vector number of YIELD -/
  trapYield : Nat
  /-- trap vector number of BRK -/
  trapBrk : Nat
deriving DecidableEq, Repr

/-- FREE VALUE (DESIGN CHOICE, log 7): the Word that a configuration, the listed contents of memory and an address past
the last Word give when a rule reads there. R11 gives no such Word, U2 makes the rule total all the same, and no value
is stated; nothing constrains this one. -/
opaque Config.absentWord : Config → List (Nat × Word) → Nat → Word

/-- FREE VALUE (DESIGN CHOICE, log 25): the Word XLATE answers for a physical address that no Word can hold. Only an
entry with a frame field past the last frame gives one (R56), and no value is stated. -/
opaque Config.wideAddress : Config → Nat → Word

end Sys2Proof
end

