-- ==== Sys2Proof/Syntax.lean ====
section
/-! DEFINITION. The operations of the block as syntax (30_encoding.md R46, R58; spec/opcode_table.json),
and the shapes that cross its interface: commands, trap vectors, and the external actions between
commands. -/

namespace Sys2Proof

/-- R15, R48: the kind of a virtual access. -/
inductive AccessKind where
  /-- 0: a data read or an instruction fetch (R42) -/
  | read
  /-- 1: a data write -/
  | write
deriving DecidableEq, Repr

/-- One constructor per row of spec/opcode_table.json. Page numbers are plain numbers, bounded by
`Instr.wellFormed`; operands that a rule takes as a whole Word are Words. -/
inductive Instr where
  /-- ALLOC (R60) -/
  | alloc
  /-- FREE f (R61); `frame` is the whole operand Word -/
  | free (frame : Word)
  /-- MAP tb, vpn, r, w (R65) -/
  | map (tb : Word) (vpn : Nat) (read write : Bool)
  /-- UNMAP tb, vpn (R66) -/
  | unmap (tb : Word) (vpn : Nat)
  /-- XLATE va, kind (R70) -/
  | xlate (va : Word) (kind : AccessKind)
  /-- VREAD va (R73) -/
  | vread (va : Word)
  /-- VWRITE va, d (R74) -/
  | vwrite (va : Word) (data : Word)
  /-- CREATE code, heap (R81); the images are operands, delivered by the image port (R80) -/
  | create (code heap : List Word)
  /-- LOAD pid (R86); `pid` is the whole operand Word -/
  | load (pid : Word)
  /-- YIELD (R91) -/
  | yield
  /-- HALT (R92) -/
  | halt
  /-- BRK q (R93), the request word taken apart (R49) -/
  | brk (vpn : Nat) (read write grow : Bool)
  /-- GROW vpn, r, w: pseudo-instruction of BRK with grow = 1 (R58) -/
  | grow (vpn : Nat) (read write : Bool)
  /-- SHRINK vpn: pseudo-instruction of BRK with grow = 0 (R58) -/
  | shrink (vpn : Nat)
  /-- the reserved opcode 0xC (R51) -/
  | reservedC
  /-- the reserved opcode 0xD (R51) -/
  | reservedD
  /-- the reserved opcode 0xE (R51) -/
  | reservedE
  /-- the reserved opcode 0xF (R51) -/
  | reservedF
  /-- trap vector TRAP_HALT of the CPU loop (R52) -/
  | trapvecHalt
  /-- trap vector TRAP_YIELD of the CPU loop (R52) -/
  | trapvecYield
  /-- trap vector TRAP_BRK of the CPU loop with its request word taken apart (R52, R49) -/
  | trapvecBrk (vpn : Nat) (read write grow : Bool)
deriving DecidableEq, Repr

/-- R45, R47, R80: a command as it crosses the interface, three Words and what the image port holds. -/
structure Command where
  /-- the command word CW -/
  cw : Word
  /-- operand Word A -/
  a : Word
  /-- operand Word B -/
  b : Word
  /-- the code image at the image port -/
  code : List Word
  /-- the heap image at the image port -/
  heap : List Word
deriving DecidableEq, Repr

/-- What the agent issues to be decoded. -/
inductive Encoded where
  /-- a command (R45) -/
  | command (c : Command)
  /-- a trap vector of the CPU loop and the request word it holds for TRAP_BRK (R52) -/
  | trapVector (vector : BitVec 8) (request : Word)
deriving DecidableEq, Repr

/-- Everything the one agent can do to the block between two transitions (R5, R58). -/
inductive Input where
  /-- issue a command or a trap -/
  | issue (e : Encoded)
  /-- `SETPC v`: the CPU loop writes the program counter (R12) -/
  | setPc (v : Word)
  /-- `RESET` (R120) -/
  | reset
deriving DecidableEq, Repr

end Sys2Proof
end

