-- ==== Sys2Proof/WellFormed.lean ====
section
/-! DEFINITION. Well-formed instructions (operands at values the encoding admits, 30_encoding.md R49) and
well-formed configurations (00_scope.md R7). -/

namespace Sys2Proof

/-- R49: a page number that the vpn field of a page or request word can hold. -/
def vpnFits (c : Config) (vpn : Nat) : Bool := decide (vpn < c.ptEntries)

/-- The operands an instruction can have. Only page numbers are bounded: every other operand is a
whole Word, a bit or an image (R48, R80). -/
def Instr.wellFormed (c : Config) : Instr → Bool
  | .alloc => true
  | .free _ => true
  | .map _ vpn _ _ => vpnFits c vpn
  | .unmap _ vpn => vpnFits c vpn
  | .xlate _ _ => true
  | .vread _ => true
  | .vwrite _ _ => true
  | .create _ _ => true
  | .load _ => true
  | .yield => true
  | .halt => true
  | .brk vpn _ _ _ => vpnFits c vpn
  | .grow vpn _ _ => vpnFits c vpn
  | .shrink vpn => vpnFits c vpn
  | .reservedC => true
  | .reservedD => true
  | .reservedE => true
  | .reservedF => true
  | .trapvecHalt => true
  | .trapvecYield => true
  | .trapvecBrk vpn _ _ _ => vpnFits c vpn

/-- R7 (a): a Word has 16 bits. -/
def Config.wfWord (c : Config) : Bool := c.wordBits == 16

/-- R7 (b): the address split and the sizes it fixes. -/
def Config.wfSplit (c : Config) : Bool :=
  c.offsetBits + c.vpnBits == c.wordBits && c.pageWords == 2 ^ c.offsetBits && c.ptEntries == 2 ^ c.vpnBits

/-- R7 (c): a frame number and three flags fit a Word, and memory fits the Word-addressed space. -/
def Config.wfFrames (c : Config) : Bool :=
  c.numFrames ≤ 2 ^ c.frameBits && c.frameBits + 3 ≤ c.wordBits &&
  c.memWords == c.numFrames * c.pageWords && c.memWords ≤ 2 ^ c.wordBits

/-- R7 (d): some frames are reserved and some are not. -/
def Config.wfReserved (c : Config) : Bool := 0 < c.reservedFrames && c.reservedFrames < c.numFrames

/-- Two address ranges, each a base and a length, share no Word. -/
def Config.disjoint (b₁ n₁ b₂ n₂ : Nat) : Bool := b₁ + n₁ ≤ b₂ || b₂ + n₂ ≤ b₁

/-- R7 (e): the bookkeeping fits the reserved frames and does not overlap. -/
def Config.wfLayout (c : Config) : Bool :=
  let pcbs := c.pcbWords * c.maxProcs
  c.curPidAddr != c.procCountAddr &&
  Config.disjoint c.curPidAddr 1 c.bitmapAddr c.bitmapWords &&
  Config.disjoint c.curPidAddr 1 c.pcbBase pcbs &&
  Config.disjoint c.procCountAddr 1 c.bitmapAddr c.bitmapWords &&
  Config.disjoint c.procCountAddr 1 c.pcbBase pcbs &&
  Config.disjoint c.bitmapAddr c.bitmapWords c.pcbBase pcbs &&
  c.curPidAddr < c.ptRegionBase && c.procCountAddr < c.ptRegionBase &&
  c.bitmapAddr + c.bitmapWords ≤ c.ptRegionBase && c.pcbBase + pcbs ≤ c.ptRegionBase &&
  c.ptRegionBase + c.maxProcs * c.ptEntries ≤ c.reservedFrames * c.pageWords

/-- R7 (f): the bitmap has a bit for every frame. -/
def Config.wfBitmap (c : Config) : Bool := c.numFrames ≤ c.bitmapWords * c.wordBits

/-- R7 (g): the order of the virtual regions. -/
def Config.wfVirtual (c : Config) : Bool :=
  c.reservedVpnBoundary ≤ c.codeBaseVpn && c.codeBaseVpn + c.codePages ≤ c.heapBaseVpn &&
  c.heapBaseVpn + c.heapPages ≤ c.ptEntries && 1 ≤ c.codePages

/-- R7 (h): no pid equals a sentinel. -/
def Config.wfPids (c : Config) : Bool :=
  1 ≤ c.maxProcs && c.maxProcs ≤ c.terminated && c.maxProcs ≤ c.noProcess

/-- R7 (i): a new process starts at its first code Word. -/
def Config.wfStart (c : Config) : Bool := c.initialPc == c.codeBaseVpn * c.pageWords

/-- R7: a well-formed configuration, the only kind the rules are about. -/
def Config.wellFormed (c : Config) : Bool :=
  c.wfWord && c.wfSplit && c.wfFrames && c.wfReserved && c.wfLayout && c.wfBitmap && c.wfVirtual &&
  c.wfPids && c.wfStart

/-- What other rules presume of the record and R7 does not list (log 24): a slot holds the three Words of R21; the vpn
field of a request word lies above its three flags (R49); the sentinels fit the Words that hold them (R8, R16, R21); the
three trap vectors are distinct 8-bit values (R52). -/
def Config.fits (c : Config) : Bool :=
  3 ≤ c.pcbWords && 3 ≤ c.offsetBits && c.terminated < 2 ^ c.wordBits && c.noProcess < 2 ^ c.wordBits &&
  c.trapHalt < 256 && c.trapYield < 256 && c.trapBrk < 256 &&
  c.trapHalt != c.trapYield && c.trapHalt != c.trapBrk && c.trapYield != c.trapBrk

end Sys2Proof
end

