-- ==== Sys2Proof/Machine/Parameters.lean ====
section
/-! DEFINITION. What a machine is built at: any configuration that is well-formed (00_scope.md R7), and the defaults
of R6, which the state after reset is built at (DESIGN CHOICE, log 1: the spec marks most of them as unaudited general
knowledge). -/

namespace Sys2Proof

/-- R6, R7: a configuration together with the check that it is well-formed. -/
structure Params where
  /-- the configuration record -/
  config : Config
  /-- R7: "the rules of this spec hold only for well-formed configurations" -/
  wellFormed : config.wellFormed = true
deriving DecidableEq, Repr

/-- R6, column "default". -/
def defaultConfig : Config where
  wordBits := 16
  offsetBits := 11
  vpnBits := 5
  pageWords := 2048
  ptEntries := 32
  numFrames := 32
  frameBits := 5
  memWords := 65536
  reservedFrames := 3
  curPidAddr := 0
  procCountAddr := 1
  bitmapAddr := 3
  bitmapWords := 2
  pcbBase := 12
  pcbWords := 3
  ptRegionBase := 4096
  maxProcs := 64
  reservedVpnBoundary := 6
  codeBaseVpn := 6
  codePages := 2
  heapBaseVpn := 8
  heapPages := 2
  initialPc := 0x3000
  terminated := 0xFFFF
  noProcess := 0xFFFF
  trapHalt := 0x25
  trapYield := 0x28
  trapBrk := 0x29

/-- R7: the defaults are well-formed. -/
def defaultParams : Params := ⟨defaultConfig, by decide⟩

end Sys2Proof
end

