-- ==== Sys2Proof/Machine/State.lean ====
section
/-! DEFINITION. The complete state of the block (10_state.md R10), the reasons a step can stop, and the
state after reset (R27). Plain data only; the operations over it are in Machine/Ops.lean. -/

namespace Sys2Proof.Machine

/-- A memory cell: a physical word address and its Word (R11: the unit of addressing is the Word; log 2). -/
abbrev Cell := Nat × Word

/-- Physical memory `M` (R11): the Words that differ from their reset value, addresses strictly rising.
`Memory.wf` (Machine/Ops.lean) states that form, and `resetWord` what an unlisted address reads as. -/
abbrev Memory := List Cell

/-- R15, R101: the cause field of the fault latch. -/
inductive FaultCause where
  /-- 0: no fault since reset -/
  | none
  /-- 1: the page lies below the reserved boundary -/
  | reservedRegion
  /-- 2: the entry is not valid -/
  | unmappedAccess
  /-- 3: the entry does not permit the access -/
  | permissionViolation
deriving DecidableEq, Repr

/-- R15: the fault latch. -/
structure FaultLatch where
  /-- why the run aborted -/
  cause : FaultCause
  /-- the faulting virtual address -/
  va : Word
  /-- the faulting access's kind -/
  kind : AccessKind
deriving DecidableEq, Repr

/-- R111: the diagnostic codes. -/
inductive DiagCode where
  /-- 1, by CREATE -/
  | pcbTableFull
  /-- 2, by BRK grow -/
  | growAlreadyMapped
  /-- 3, by BRK grow -/
  | growNoFrame
  /-- 4, by BRK shrink -/
  | shrinkNotMapped
  /-- 5, by fault entry -/
  | faultReserved
  /-- 6, by fault entry -/
  | faultUnmapped
  /-- 7, by fault entry -/
  | faultPermission
deriving DecidableEq, Repr

/-- R110: one event of the diagnostic log. -/
structure DiagEvent where
  /-- the event's code -/
  code : DiagCode
  /-- its first Word -/
  a : Word
  /-- its second Word -/
  b : Word
deriving DecidableEq, Repr

/-- R50: the status of a response. -/
inductive Status where
  /-- 0 -/
  | ok
  /-- 1 -/
  | noFreeFrame
  /-- 2 -/
  | alreadyMapped
  /-- 3 -/
  | outOfFrames
  /-- 4 -/
  | notMapped
  /-- 5 -/
  | pcbTableFull
  /-- 6 -/
  | fault
  /-- 7 -/
  | refused
deriving DecidableEq, Repr

/-- R45, R50: the response `(S, V)` of a command. -/
structure Response where
  /-- the status code S -/
  status : Status
  /-- the value Word V -/
  value : Word
deriving DecidableEq, Repr

/-- The complete state (R10), with the history bit of R22, the model's own two fields and, because a step takes
nothing but a state, the configuration the machine is built at (R6; no state by R10, and no step changes it; log 1). -/
structure State where
  /-- physical memory M (R11), which holds the bookkeeping of R16 to R21 -/
  mem : Memory
  /-- the program counter PC (R12) -/
  pc : Word
  /-- the page-table-base register PTBR (R13) -/
  ptbr : Word
  /-- the running flag (R14) -/
  running : Bool
  /-- the fault latch (R15) -/
  fault : FaultLatch
  /-- the diagnostic log (R110), oldest event first -/
  log : List DiagEvent
  /-- R22's history bit, read by no rule: the pids loaded at least once, rising (log 6) -/
  everLoaded : List Nat
  /-- MODEL's own: the response of the last command, if there was one (R45; log 5) -/
  response : Option Response
  /-- MODEL's own: what the one agent issues next, first to last (R124; log 4) -/
  input : List Input
  /-- no state of the block: the configuration record, fixed for the life of the machine (R6, R10; log 1) -/
  params : Params
deriving DecidableEq, Repr

/-- Why the machine stops: for no reason. R45 makes the transition total and U2 (93_implementation_defined.md)
treats nothing as a fault of the machine. The faults of R101 are not this: each is a next state, with the
latch set and the response `FAULT` (`raiseFault`). -/
inductive Fault where
deriving DecidableEq, Repr

/-- Why an instruction has no meaning here. A command that the SPEC refuses (R53) is not this: it is a
next state with the response `(REFUSED, 0)`. -/
inductive Refusal where
  /-- Raised only by an arm of `exec` whose instruction has no meaning in the model. Safe: nothing is
  claimed of it. No arm raises it now. -/
  | notModelled (mnemonic : String)
deriving DecidableEq, Repr

/-- The outcome of an instruction or a step. -/
abbrev Result := Host.Outcome State Fault Refusal

/-- R6: the configuration record the rules read their numbers from. -/
abbrev State.cfg (s : State) : Config := s.params.config

/-- R27, R120: the state after reset of a machine built at a configuration. Memory lists nothing, so every Word reads
as its reset value. -/
def State.resetAt (params : Params) : State where
  mem := []
  pc := 0
  ptbr := 0
  running := true
  fault := ⟨.none, 0, .read⟩
  log := []
  everLoaded := []
  response := none
  input := []
  params := params

/-- R27, R6: the state after reset of the machine built at the defaults. -/
def State.reset : State := State.resetAt defaultParams

/-- R65: what an internal procedure of the allocator, the page tables or CREATE returns to its caller:
the pair `(S, V)`, and the memory it leaves. -/
structure Ret where
  /-- the status S -/
  status : Status
  /-- the value V -/
  value : Word
  /-- memory afterwards -/
  mem : Memory
deriving DecidableEq, Repr

/-- R70: what `translate` gives. -/
inductive Translation where
  /-- the physical address -/
  | address (pa : Nat)
  /-- the fault the checks raise -/
  | violation (cause : FaultCause)
deriving DecidableEq, Repr

/-- R53: why a command whose word decodes is refused, in the order of the checks; (c), an illegal
command word, is decided by the decoder. -/
inductive RefusedBy where
  /-- (a) the run has aborted -/
  | aborted
  /-- (b) the run has stopped -/
  | stopped
  /-- (d) an operand is out of range -/
  | operandOutOfRange
  /-- (e) there is no current process -/
  | noCurrentProcess
deriving DecidableEq, Repr

/-- R22: the state of a process. -/
inductive ProcState where
  /-- the pid has not been created -/
  | nonexistent
  /-- halted -/
  | terminated
  /-- current -/
  | running
  /-- live, not current, never loaded -/
  | created
  /-- live, not current, loaded before -/
  | ready
deriving DecidableEq, Repr

/-- What one element of the input list asks of the machine, once taken from the list. -/
inductive Fetched where
  /-- nothing is issued (R121) -/
  | idle
  /-- an instruction to run in `s` -/
  | instr (i : Instr) (s : State)
  /-- an action that is complete with `s`: SETPC, RESET, a word that decodes to no instruction -/
  | settled (s : State)
deriving DecidableEq, Repr

end Sys2Proof.Machine
end

