-- ==== Sys2Proof/Machine/Flags.lean ====
section
/-! DEFINITION. The flag-like state of the block (10_state.md R24): the fields of a page table entry
(R19), the place of a frame's bit in the bitmap (R18), and the codes of causes, statuses and events
(R15, R50, R101, R111). The block has no arithmetic condition codes (R24, R56). -/

namespace Sys2Proof.Machine

/-- R19: the frame field of an entry, its high `FRAME_BITS` bits. -/
def pteFrame (c : Config) (e : Word) : Nat := e.toNat / 2 ^ (c.wordBits - c.frameBits)

/-- R19: bit 0, the entry maps a page. -/
def pteValid (e : Word) : Bool := e.getLsbD 0

/-- R19: bit 1, reads permitted. -/
def pteRead (e : Word) : Bool := e.getLsbD 1

/-- R19: bit 2, writes permitted. -/
def pteWrite (e : Word) : Bool := e.getLsbD 2

/-- R19: `mk_pte(f, r, w)`, a valid entry whose reserved bits are 0. -/
def mkPte (c : Config) (f : Nat) (read write : Bool) : Word :=
  BitVec.ofNat 16 (f <<< (c.wordBits - c.frameBits)) ||| BitVec.ofNat 16 (write.toNat <<< 2) |||
    BitVec.ofNat 16 (read.toNat <<< 1) ||| 1#16

/-- R71: whether an entry's permission bits allow an access of this kind. -/
def pteAllows (e : Word) : AccessKind → Bool
  | .read => pteRead e
  | .write => pteWrite e

/-- R18: the bitmap Word that tracks frame `f`. -/
def bmWord (c : Config) (f : Nat) : Nat := c.bitmapAddr + f / c.wordBits

/-- R18: the bit of that Word that tracks frame `f`, most significant first. -/
def bmBit (c : Config) (f : Nat) : Nat := c.wordBits - 1 - f % c.wordBits

/-- R60: the frames ALLOC scans, ascending. -/
def assignableFrames (c : Config) : List Nat := List.range' c.reservedFrames (c.numFrames - c.reservedFrames)

/-- R21: the sentinel id of a terminated slot, as stored. -/
def terminatedWord (c : Config) : Word := BitVec.ofNat 16 c.terminated

/-- R16: the active-process marker's value before any LOAD, as stored. -/
def noProcessWord (c : Config) : Word := BitVec.ofNat 16 c.noProcess

/-- R15, R101: the code of a fault cause. -/
def FaultCause.code : FaultCause → Word
  | .none => 0
  | .reservedRegion => 1
  | .unmappedAccess => 2
  | .permissionViolation => 3

/-- R50: the status code S. -/
def Status.code : Status → BitVec 3
  | .ok => 0
  | .noFreeFrame => 1
  | .alreadyMapped => 2
  | .outOfFrames => 3
  | .notMapped => 4
  | .pcbTableFull => 5
  | .fault => 6
  | .refused => 7

/-- R111: the code of a diagnostic event. -/
def DiagCode.code : DiagCode → BitVec 3
  | .pcbTableFull => 1
  | .growAlreadyMapped => 2
  | .growNoFrame => 3
  | .shrinkNotMapped => 4
  | .faultReserved => 5
  | .faultUnmapped => 6
  | .faultPermission => 7

/-- R104, R111: the event a fault logs; `NONE` logs none. -/
def FaultCause.diag : FaultCause → Option DiagCode
  | .none => Option.none
  | .reservedRegion => some .faultReserved
  | .unmappedAccess => some .faultUnmapped
  | .permissionViolation => some .faultPermission

end Sys2Proof.Machine
end

