-- ==== Sys2Proof/Machine/Operands.lean ====
section
/-! DEFINITION. Operand forms: the split of a virtual address (20_memory.md R34), the physical address it
gives (R35), the addresses of PCB slots and page tables (10_state.md R17), and the operand ranges of
30_encoding.md R53 (d). All arithmetic is on natural numbers, without wrap-around (R8, R56). -/

namespace Sys2Proof.Machine

/-- R34: the virtual page number, the high `VPN_BITS` bits of a virtual address. -/
def vpnOf (c : Config) (va : Word) : Nat := va.toNat / c.pageWords

/-- R34: the offset, the low `OFFSET_BITS` bits of a virtual address. -/
def offsetOf (c : Config) (va : Word) : Nat := va.toNat % c.pageWords

/-- R35: `frame * PAGE_WORDS + off`. -/
def physAddr (c : Config) (frame off : Nat) : Nat := frame * c.pageWords + off

/-- R70, R50: a physical address as the value Word of a response. One that no Word can hold gives the free value of
log 25. -/
def addressWord (c : Config) (pa : Nat) : Word :=
  if pa < 2 ^ c.wordBits then BitVec.ofNat 16 pa else Config.wideAddress c pa

/-- R17: the address of PCB slot `p`. -/
def pcb (c : Config) (p : Nat) : Nat := c.pcbBase + c.pcbWords * p

/-- R17: the address of the page table of pid `p`. -/
def ptBase (c : Config) (p : Nat) : Nat := c.ptRegionBase + c.ptEntries * p

/-- R68: `a` is the base of a page table, `pt_base(p)` for some `p < MAX_PROCS`. -/
def isTableBase (c : Config) (a : Word) : Bool := (List.range c.maxProcs).any (fun p => a.toNat == ptBase c p)

/-- R53 (d): a frame operand names a frame. -/
def isFrame (c : Config) (f : Word) : Bool := decide (f.toNat < c.numFrames)

/-- R53 (d): a pid operand names a PCB slot. -/
def isSlot (c : Config) (p : Word) : Bool := decide (p.toNat < c.maxProcs)

/-- R11: a physical address of a Word of M. -/
def inMemory (c : Config) (a : Nat) : Bool := decide (a < c.memWords)

end Sys2Proof.Machine
end

