-- ==== Sys2Proof/Machine/Ops.lean ====
section
/-! DEFINITION. The named operations every meaning is built from: memory (10_state.md R11, R27), the frame
allocator (R60, R61), page tables (R65, R66), translation (R70), refusal (R53), fault entry (R104), the
scheduler scan (R90), context load (R86), image load and creation (R81, R82), and the bodies of the
three traps (R91, R92, R93). -/

namespace Sys2Proof.Machine

/-! ### Physical memory -/

/-- R18: bitmap Word `i` at reset, a 1 for every assignable frame it tracks. -/
def bitmapResetWord (c : Config) (i : Nat) : Word :=
  (List.range c.wordBits).foldl (fun w j =>
    let f := c.wordBits * i + j
    if c.reservedFrames ≤ f ∧ f < c.numFrames then w ||| (1#16 <<< bmBit c f) else w) 0#16

/-- R27: what a Word of M holds at reset, hence what an address that `Memory` does not list reads as. -/
def resetWord (c : Config) (a : Nat) : Word :=
  if a = c.curPidAddr then noProcessWord c
  else if c.bitmapAddr ≤ a ∧ a < c.bitmapAddr + c.bitmapWords then
    bitmapResetWord c (a - c.bitmapAddr)
  else 0#16

/-- The Word listed for an address, or what the address reads as when it is not listed. -/
def Memory.lookup (c : Config) : Memory → Nat → Word
  | [], a => resetWord c a
  | (k, v) :: rest, a => if k = a then v else Memory.lookup c rest a

/-- R8: `M[a]`. Past the last Word the value is free (log 7). -/
def Memory.read (c : Config) (m : Memory) (a : Nat) : Word :=
  if inMemory c a then m.lookup c a else Config.absentWord c m a

/-- Forget the cells of one address. -/
def Memory.forget (m : Memory) (a : Nat) : Memory := m.filter (fun d => d.1 != a)

/-- Put a cell before the first cell of a higher address. -/
def Memory.insertCell (a : Nat) (w : Word) : Memory → Memory
  | [] => [(a, w)]
  | (k, v) :: rest => if a < k then (a, w) :: (k, v) :: rest else (k, v) :: Memory.insertCell a w rest

/-- R8: `M[a] <- w`. A Word equal to its reset value is not listed. Past the last Word there is none to write
(R11), and no other Word changes (R57; log 7). -/
def Memory.write (c : Config) (m : Memory) (a : Nat) (w : Word) : Memory :=
  if !inMemory c a then m
  else if w = resetWord c a then m.forget a
  else Memory.insertCell a w (m.forget a)

/-- The one form a memory is held in: addresses strictly rising and below `MEM_WORDS`, and no cell equal
to what its address reads as when unlisted. -/
def Memory.wf (c : Config) (m : Memory) : Bool :=
  decide (m.Pairwise (fun d e => d.1 < e.1)) && m.all (fun d => inMemory c d.1 && d.2 != resetWord c d.1)

/-! ### Bookkeeping Words -/

/-- R16: the active-process marker. -/
def curPid (c : Config) (m : Memory) : Word := m.read c c.curPidAddr

/-- R17: the number of processes created. -/
def procCount (c : Config) (m : Memory) : Nat := (m.read c c.procCountAddr).toNat

/-- R18: `is_free(f)`. -/
def isFree (c : Config) (m : Memory) (f : Nat) : Bool := (m.read c (bmWord c f)).getLsbD (bmBit c f)

/-- R21, R22: the slot's id Word is not the sentinel. -/
def notTerminated (c : Config) (m : Memory) (p : Nat) : Bool := m.read c (pcb c p) != terminatedWord c

/-- R22: `live(p)`. -/
def live (c : Config) (m : Memory) (p : Nat) : Bool := decide (p < procCount c m) && notTerminated c m p

/-- R8: `M[a]` in a state. -/
def State.word (s : State) (a : Nat) : Word := s.mem.read s.cfg a

/-- R16: `cur_pid` in a state. -/
def State.curPid (s : State) : Word := Machine.curPid s.cfg s.mem

/-- R17: `proc_count` in a state. -/
def State.procCount (s : State) : Nat := Machine.procCount s.cfg s.mem

/-- R22: the state of pid `p`, from the stored state and the history bit. -/
def procState (s : State) (p : Nat) : ProcState :=
  if s.procCount ≤ p then .nonexistent
  else if !notTerminated s.cfg s.mem p then .terminated
  else if s.curPid.toNat = p then .running
  else if s.everLoaded.contains p then .ready
  else .created

/-- R63: the number of assignable frames whose bit is set. -/
def freeCount (c : Config) (m : Memory) : Nat := (assignableFrames c).countP (isFree c m)

/-! ### Responses, diagnostics, refusal, faults -/

/-- R45, R50: end the command with the response `(S, V)`. -/
def State.respond (s : State) (status : Status) (value : Word) : State :=
  { s with response := some ⟨status, value⟩ }

/-- R110: `diag(code, a, b)` appends one event. -/
def State.diag (s : State) (code : DiagCode) (a b : Word) : State :=
  { s with log := s.log ++ [⟨code, a, b⟩] }

/-- R15: the signal the CPU loop obeys. -/
def State.runEnable (s : State) : Bool := s.running && s.fault.cause == .none

/-- R53: the first refusal condition that holds, in the order of the rule, for a command word that
decodes (condition (c), an illegal command, is the decoder's: `settleUndecoded` and Reserved.lean). -/
def refusedBy (s : State) (inRange needsProcess : Bool) : Option RefusedBy :=
  if s.fault.cause ≠ .none then some .aborted
  else if !s.running then some .stopped
  else if !inRange then some .operandOutOfRange
  else if needsProcess && s.curPid == noProcessWord s.cfg then some .noCurrentProcess
  else none

/-- R53: a refused command responds `(REFUSED, 0)` and changes nothing else. -/
def refuse (s : State) : State := s.respond .refused 0

/-- R53: run a command's body unless the command is refused. -/
def unlessRefused (s : State) (inRange needsProcess : Bool) (body : State → State) : Result :=
  match refusedBy s inRange needsProcess with
  | some _ => .next (refuse s)
  | none => .next (body s)

/-- R104: fatal-fault entry, `raise X(va, kind)`. The one exception mechanism of the block: it latches the
fault, logs one event and responds `(FAULT, code(X))`. Nothing is saved, no vector is taken, and there
is no return (R104, R106): only reset clears the latch. -/
def raiseFault (s : State) (cause : FaultCause) (va : Word) (kind : AccessKind) : State :=
  let latched : State := { s with fault := ⟨cause, va, kind⟩ }
  let logged : State :=
    match cause.diag with
    | some d => latched.diag d va s.curPid
    | none => latched
  logged.respond .fault cause.code

/-- End a command with what an internal procedure returned (R65). -/
def State.finish (s : State) (r : Ret) : State := { s with mem := r.mem }.respond r.status r.value

/-! ### Frame allocator -/

/-- R60: mark frame `f` used. -/
def markUsed (c : Config) (m : Memory) (f : Nat) : Memory :=
  m.write c (bmWord c f) (m.read c (bmWord c f) &&& ~~~(1#16 <<< bmBit c f))

/-- R61: mark frame `f` free. A number at or above `NUM_FRAMES` has no bitmap bit (R61, R18), so nothing is
written for it; only the frame field of a corrupted entry can hold one (R56; log 26). -/
def markFree (c : Config) (m : Memory) (f : Nat) : Memory :=
  if f < c.numFrames then m.write c (bmWord c f) (m.read c (bmWord c f) ||| (1#16 <<< bmBit c f)) else m

/-- R60: `alloc()`, first fit over the assignable frames. -/
def alloc (c : Config) (m : Memory) : Ret :=
  match (assignableFrames c).find? (isFree c m) with
  | some f => ⟨.ok, BitVec.ofNat 16 f, markUsed c m f⟩
  | none => ⟨.noFreeFrame, 0, m⟩

/-- R61: `free(f)`, unconditional. -/
def freeFrame (c : Config) (m : Memory) (f : Nat) : Ret := ⟨.ok, 0, markFree c m f⟩

/-! ### Page tables -/

/-- R65: `map(tb, vpn, r, w)`. -/
def mapPage (c : Config) (m : Memory) (tb vpn : Nat) (read write : Bool) : Ret :=
  if pteValid (m.read c (tb + vpn)) then ⟨.alreadyMapped, 0, m⟩
  else
    let r := alloc c m
    if r.status = .ok then ⟨.ok, r.value, r.mem.write c (tb + vpn) (mkPte c r.value.toNat read write)⟩
    else ⟨.outOfFrames, 0, m⟩

/-- R66: `unmap(tb, vpn)`: validate, free the frame, clear bit 0 of the entry as it was read. -/
def unmapPage (c : Config) (m : Memory) (tb vpn : Nat) : Ret :=
  let e := m.read c (tb + vpn)
  if pteValid e then ⟨.ok, 0, (freeFrame c m (pteFrame c e)).mem.write c (tb + vpn) (e &&& 0xFFFE#16)⟩
  else ⟨.notMapped, 0, m⟩

/-- R81 (rollback), R92: unmap every valid entry of the listed pages, in order. -/
def unmapEach (c : Config) (tb : Nat) : List Nat → Memory → Memory
  | [], m => m
  | v :: vs, m =>
    unmapEach c tb vs (if pteValid (m.read c (tb + v)) then (unmapPage c m tb v).mem else m)

/-- R81, R92: unmap every valid entry of a table in ascending page order. -/
def unmapAll (c : Config) (m : Memory) (tb : Nat) : Memory := unmapEach c tb (List.range c.ptEntries) m

/-! ### Translation -/

/-- R70: `translate(va, kind)`, its three checks in order. -/
def translate (s : State) (va : Word) (kind : AccessKind) : Translation :=
  if vpnOf s.cfg va < s.cfg.reservedVpnBoundary then .violation .reservedRegion
  else
    let e := s.word (s.ptbr.toNat + vpnOf s.cfg va)
    if !pteValid e then .violation .unmappedAccess
    else if !pteAllows e kind then .violation .permissionViolation
    else .address (physAddr s.cfg (pteFrame s.cfg e) (offsetOf s.cfg va))

/-- R70, R73, R74: an access: translate, then either go on at the physical address, or enter the fault. -/
def access (s : State) (va : Word) (kind : AccessKind) (onAddress : Nat → State) : State :=
  match translate s va kind with
  | .address pa => onAddress pa
  | .violation cause => raiseFault s cause va kind

/-! ### Creation -/

/-- R81: clear every entry of a table. -/
def clearEach (c : Config) (tb : Nat) : List Nat → Memory → Memory
  | [], m => m
  | v :: vs, m => clearEach c tb vs (m.write c (tb + v) 0)

/-- R81: "builds a fresh page table". -/
def clearTable (c : Config) (m : Memory) (tb : Nat) : Memory := clearEach c tb (List.range c.ptEntries) m

/-- R81: map the listed pages in order until one fails; whether all were mapped, and the memory left. -/
def mapEach (c : Config) (tb : Nat) (read write : Bool) : List Nat → Memory → Bool × Memory
  | [], m => (true, m)
  | v :: vs, m =>
    let r := mapPage c m tb v read write
    if r.status = .ok then mapEach c tb read write vs r.mem else (false, r.mem)

/-- R82: copy the image Words, from Word `k` of the segment on, to the frames of its pages. -/
def copyImage (c : Config) (tb baseVpn : Nat) : Nat → List Word → Memory → Memory
  | _, [], m => m
  | k, w :: ws, m =>
    let e := m.read c (tb + baseVpn + k / c.pageWords)
    copyImage c tb baseVpn (k + 1) ws (m.write c (physAddr c (pteFrame c e) (k % c.pageWords)) w)

/-- R82: `load_image`; the image is cut to its segment. -/
def loadImage (c : Config) (m : Memory) (tb baseVpn pages : Nat) (img : List Word) : Memory :=
  copyImage c tb baseVpn 0 (img.take (pages * c.pageWords)) m

/-- R81: map one segment's pages, then copy its image. -/
def buildSegment (c : Config) (m : Memory) (tb baseVpn pages : Nat) (read write : Bool) (img : List Word) :
    Bool × Memory :=
  let r := mapEach c tb read write (List.range' baseVpn pages) m
  if r.1 then (true, loadImage c r.2 tb baseVpn pages img) else (false, r.2)

/-- R81: the slot's three Words, before the table is cleared. -/
def fillSlot (c : Config) (m : Memory) (pid : Nat) : Memory :=
  ((m.write c (pcb c pid) (BitVec.ofNat 16 pid)).write c (pcb c pid + 1) (BitVec.ofNat 16 c.initialPc)).write c
    (pcb c pid + 2) (BitVec.ofNat 16 (ptBase c pid))

/-- R81: the slot's three Words and the cleared table, before any page is mapped. -/
def prepareSlot (c : Config) (m : Memory) (pid : Nat) : Memory :=
  clearTable c (fillSlot c m pid) (ptBase c pid)

/-- R81, R83: create process `pid` = `proc_count` < `MAX_PROCS`, or unwind every mapping made. -/
def createProcess (c : Config) (m : Memory) (code heap : List Word) : Ret :=
  let pid := procCount c m
  let tb := ptBase c pid
  let r := buildSegment c (prepareSlot c m pid) tb c.codeBaseVpn c.codePages true false code
  if r.1 then
    let h := buildSegment c r.2 tb c.heapBaseVpn c.heapPages true true heap
    if h.1 then ⟨.ok, BitVec.ofNat 16 pid, h.2.write c c.procCountAddr (BitVec.ofNat 16 (pid + 1))⟩
    else ⟨.outOfFrames, 0, unmapAll c h.2 tb⟩
  else ⟨.outOfFrames, 0, unmapAll c r.2 tb⟩

/-! ### Context load and the scheduler -/

/-- Add a pid to a rising list of pids. -/
def insertPid (p : Nat) : List Nat → List Nat
  | [] => [p]
  | q :: qs => if p < q then p :: q :: qs else if p = q then q :: qs else q :: insertPid p qs

/-- R86: `load(pid)`: the marker, then PC and PTBR from the slot. Also the history bit of R22. -/
def loadProcess (s : State) (pid : Nat) : State :=
  let m := s.mem.write s.cfg s.cfg.curPidAddr (BitVec.ofNat 16 pid)
  { s with
    mem := m
    pc := m.read s.cfg (pcb s.cfg pid + 1)
    ptbr := m.read s.cfg (pcb s.cfg pid + 2)
    everLoaded := insertPid pid s.everLoaded }

/-- R90: the scan over the listed distances from `cur`, among `n` created pids. -/
def scan (c : Config) (m : Memory) (n cur : Nat) : List Nat → Option Nat
  | [] => none
  | k :: ks => if notTerminated c m ((cur + k) % n) then some ((cur + k) % n) else scan c m n cur ks

/-- R90: `next_live(cur)`: the first pid after `cur`, cyclically, that is not terminated. -/
def nextLive (c : Config) (m : Memory) (cur : Nat) : Option Nat :=
  scan c m (procCount c m) cur (List.range' 1 (procCount c m))

/-- R91, R92: load the pid the scan found and respond with it. -/
def switchTo (s : State) (pid : Nat) : State := (loadProcess s pid).respond .ok (BitVec.ofNat 16 pid)

/-! ### The bodies of the three traps -/

/-- R91: save PC and PTBR into slot `cur`. -/
def saveContext (s : State) (cur : Nat) : State :=
  { s with mem := (s.mem.write s.cfg (pcb s.cfg cur + 1) s.pc).write s.cfg (pcb s.cfg cur + 2) s.ptbr }

/-- R91: the body of YIELD; R96 when the scan finds no pid. -/
def yieldBody (s : State) : State :=
  let cur := s.curPid.toNat
  let saved := saveContext s cur
  match nextLive s.cfg saved.mem cur with
  | none => saved.respond .ok (noProcessWord s.cfg)
  | some p => switchTo saved p

/-- R92: free every page of the table at PTBR and mark slot `cur` terminated. -/
def retire (s : State) (cur : Nat) : State :=
  { s with mem := (unmapAll s.cfg s.mem s.ptbr.toNat).write s.cfg (pcb s.cfg cur) (terminatedWord s.cfg) }

/-- R92: the body of HALT. -/
def haltBody (s : State) : State :=
  let cur := s.curPid.toNat
  let retired := retire s cur
  match nextLive s.cfg retired.mem cur with
  | none => { retired with running := false }.respond .ok (noProcessWord s.cfg)
  | some p => switchTo retired p

/-- R93, R111: the event BRK logs for the inner outcome of its `map` or `unmap`, if any. -/
def brkDiag (grow : Bool) (status : Status) : Option DiagCode :=
  match grow, status with
  | true, .alreadyMapped => some .growAlreadyMapped
  | true, .outOfFrames => some .growNoFrame
  | false, .notMapped => some .shrinkNotMapped
  | _, _ => none

/-- R93: the `map` or `unmap` that BRK runs through PTBR. -/
def brkRet (s : State) (vpn : Nat) (read write grow : Bool) : Ret :=
  if grow then mapPage s.cfg s.mem s.ptbr.toNat vpn read write else unmapPage s.cfg s.mem s.ptbr.toNat vpn

/-- R93: the body of BRK: map or unmap through PTBR, log a failure, respond `(OK, 0)` always. -/
def brkBody (vpn : Nat) (read write grow : Bool) (s : State) : State :=
  let r := brkRet s vpn read write grow
  let logged : State :=
    match brkDiag grow r.status with
    | some d => s.diag d (BitVec.ofNat 16 vpn) s.curPid
    | none => s
  { logged with mem := r.mem }.respond .ok 0

end Sys2Proof.Machine
end

