-- ==== Sys2Proof/Machine/Allocator.lean ====
section
/-! DEFINITION. ALLOC and FREE (40_frame_allocator.md). -/

namespace Sys2Proof.Machine

/-- ALLOC, R60. -/
def execAlloc (s : State) : Result :=
  unlessRefused s true false fun s => s.finish (alloc s.cfg s.mem)

/-- FREE f, R61; a frame number past the last frame is refused (R53 (d)). -/
def execFree (frame : Word) (s : State) : Result :=
  unlessRefused s (isFrame s.cfg frame) false fun s => s.finish (freeFrame s.cfg s.mem frame.toNat)

end Sys2Proof.Machine
end

