-- ==== Sys2Proof/Machine/Lifecycle.lean ====
section
/-! DEFINITION. CREATE and LOAD (43_process_lifecycle.md). -/

namespace Sys2Proof.Machine

/-- CREATE code, heap, R81: a full PCB table is logged and answered, anything else is `createProcess`. -/
def execCreate (code heap : List Word) (s : State) : Result :=
  unlessRefused s true false fun s =>
    if s.cfg.maxProcs ≤ s.procCount then
      (s.diag .pcbTableFull (BitVec.ofNat 16 s.procCount) s.curPid).respond .pcbTableFull 0
    else s.finish (createProcess s.cfg s.mem code heap)

/-- LOAD pid, R86; a pid without a slot is refused (R53 (d)), one that is not live is loaded all the same (R87). -/
def execLoad (pid : Word) (s : State) : Result :=
  unlessRefused s (isSlot s.cfg pid) false fun s => (loadProcess s pid.toNat).respond .ok 0

end Sys2Proof.Machine
end

