-- ==== Sys2Proof/Machine/PageTable.lean ====
section
/-! DEFINITION. MAP and UNMAP (41_page_table.md). -/

namespace Sys2Proof.Machine

/-- MAP tb, vpn, r, w, R65; a base that is no table's is refused (R53 (d), R68). -/
def execMap (tb : Word) (vpn : Nat) (read write : Bool) (s : State) : Result :=
  unlessRefused s (isTableBase s.cfg tb) false fun s => s.finish (mapPage s.cfg s.mem tb.toNat vpn read write)

/-- UNMAP tb, vpn, R66; a base that is no table's is refused (R53 (d), R68). -/
def execUnmap (tb : Word) (vpn : Nat) (s : State) : Result :=
  unlessRefused s (isTableBase s.cfg tb) false fun s => s.finish (unmapPage s.cfg s.mem tb.toNat vpn)

end Sys2Proof.Machine
end

