-- ==== Sys2Proof/Machine/Reserved.lean ====
section
/-! DEFINITION. The reserved opcodes 0xC to 0xF (30_encoding.md R51): illegal commands, which are refused
(R53 (c)), that is, answered `(REFUSED, 0)` with nothing changed. -/

namespace Sys2Proof.Machine

/-- R53: the state after an illegal command, in every state: conditions (a) and (b), checked before (c),
respond as (c) does. -/
def answerIllegal (s : State) : State := refuse s

/-- Opcode 0xC, R51. -/
def execReservedC (s : State) : Result := .next (answerIllegal s)

/-- Opcode 0xD, R51. -/
def execReservedD (s : State) : Result := .next (answerIllegal s)

/-- Opcode 0xE, R51. -/
def execReservedE (s : State) : Result := .next (answerIllegal s)

/-- Opcode 0xF, R51. -/
def execReservedF (s : State) : Result := .next (answerIllegal s)

end Sys2Proof.Machine
end

