-- ==== Sys2Proof/Machine/Translator.lean ====
section
/-! DEFINITION. XLATE, VREAD and VWRITE (42_translate.md). Each is refused while there is no current
process (R53 (e)). -/

namespace Sys2Proof.Machine

/-- XLATE va, kind, R70: the physical address, or the fault. -/
def execXlate (va : Word) (kind : AccessKind) (s : State) : Result :=
  unlessRefused s true true fun s => access s va kind fun pa => s.respond .ok (addressWord s.cfg pa)

/-- VREAD va, R73: the Word at the translated address. -/
def execVread (va : Word) (s : State) : Result :=
  unlessRefused s true true fun s => access s va .read fun pa => s.respond .ok (s.word pa)

/-- VWRITE va, d, R74: write the Word at the translated address. -/
def execVwrite (va data : Word) (s : State) : Result :=
  unlessRefused s true true fun s =>
    access s va .write fun pa => { s with mem := s.mem.write s.cfg pa data }.respond .ok 0

end Sys2Proof.Machine
end

