-- ==== Sys2Proof/Machine/Traps.lean ====
section
/-! DEFINITION. The three traps YIELD, HALT, BRK (44_traps.md), the pseudo-instructions GROW and SHRINK
(30_encoding.md R58), and the trap vectors that dispatch to the three (R52, R105). Each is refused while
there is no current process (R53 (e)). -/

namespace Sys2Proof.Machine

/-- YIELD, R91. -/
def execYield (s : State) : Result := unlessRefused s true true yieldBody

/-- HALT, R92. -/
def execHalt (s : State) : Result := unlessRefused s true true haltBody

/-- BRK q, R93. -/
def execBrk (vpn : Nat) (read write grow : Bool) (s : State) : Result :=
  unlessRefused s true true (brkBody vpn read write grow)

/-- GROW vpn, r, w: `BRK req(vpn, r, w, 1)`, R58. -/
def execGrow (vpn : Nat) (read write : Bool) (s : State) : Result :=
  unlessRefused s true true (brkBody vpn read write true)

/-- SHRINK vpn: `BRK req(vpn, 0, 0, 0)`, R58. -/
def execShrink (vpn : Nat) (s : State) : Result :=
  unlessRefused s true true (brkBody vpn false false false)

/-- Trap vector TRAP_HALT issues HALT, R52. -/
def execTrapvecHalt (s : State) : Result := unlessRefused s true true haltBody

/-- Trap vector TRAP_YIELD issues YIELD, R52. -/
def execTrapvecYield (s : State) : Result := unlessRefused s true true yieldBody

/-- Trap vector TRAP_BRK issues BRK with its request, R52. -/
def execTrapvecBrk (vpn : Nat) (read write grow : Bool) (s : State) : Result :=
  unlessRefused s true true (brkBody vpn read write grow)

end Sys2Proof.Machine
end

