-- ==== Sys2Proof/Machine/Dispatch.lean ====
section
/-! DEFINITION. The meaning of every instruction: one arm per row of spec/opcode_table.json. -/

namespace Sys2Proof.Machine

def exec (i : Instr) (s : State) : Host.Outcome State Fault Refusal :=
  match i with
  | .alloc => Sys2Proof.Machine.execAlloc s
  | .free frame => Sys2Proof.Machine.execFree frame s
  | .map tb vpn read write => Sys2Proof.Machine.execMap tb vpn read write s
  | .unmap tb vpn => Sys2Proof.Machine.execUnmap tb vpn s
  | .xlate va kind => Sys2Proof.Machine.execXlate va kind s
  | .vread va => Sys2Proof.Machine.execVread va s
  | .vwrite va data => Sys2Proof.Machine.execVwrite va data s
  | .create code heap => Sys2Proof.Machine.execCreate code heap s
  | .load pid => Sys2Proof.Machine.execLoad pid s
  | .yield => Sys2Proof.Machine.execYield s
  | .halt => Sys2Proof.Machine.execHalt s
  | .brk vpn read write grow => Sys2Proof.Machine.execBrk vpn read write grow s
  | .grow vpn read write => Sys2Proof.Machine.execGrow vpn read write s
  | .shrink vpn => Sys2Proof.Machine.execShrink vpn s
  | .reservedC => Sys2Proof.Machine.execReservedC s
  | .reservedD => Sys2Proof.Machine.execReservedD s
  | .reservedE => Sys2Proof.Machine.execReservedE s
  | .reservedF => Sys2Proof.Machine.execReservedF s
  | .trapvecHalt => Sys2Proof.Machine.execTrapvecHalt s
  | .trapvecYield => Sys2Proof.Machine.execTrapvecYield s
  | .trapvecBrk vpn read write grow => Sys2Proof.Machine.execTrapvecBrk vpn read write grow s

end Sys2Proof.Machine
end

