-- ==== Sys2Proof/Decode.lean ====
section
/-! DEFINITION. Decoding and encoding (30_encoding.md R47 to R52, R58): command words, operand fields,
trap vectors, and the host's view of one opcode-table word. -/

namespace Sys2Proof

/-- R8: the unsigned field `w[lo + width - 1 : lo]`. -/
def bitField (w : Word) (lo width : Nat) : Nat := w.toNat / 2 ^ lo % 2 ^ width

/-- R49: the vpn field of a page or request word, the high `VPN_BITS` bits. -/
def pageWordVpn (c : Config) (q : Word) : Nat := bitField q c.offsetBits c.vpnBits

/-- R49: the requested write permission, bit 2. -/
def pageWordWrite (q : Word) : Bool := q.getLsbD 2

/-- R49: the requested read permission, bit 1. -/
def pageWordRead (q : Word) : Bool := q.getLsbD 1

/-- R49: the grow flag, bit 0. -/
def pageWordGrow (q : Word) : Bool := q.getLsbD 0

/-- R49: `req(vpn, r, w, g) = (vpn << 11) | (w << 2) | (r << 1) | g`. -/
def req (c : Config) (vpn : Nat) (read write grow : Bool) : Word :=
  BitVec.ofNat 16 (vpn <<< c.offsetBits) ||| BitVec.ofNat 16 (write.toNat <<< 2) |||
    BitVec.ofNat 16 (read.toNat <<< 1) ||| BitVec.ofNat 16 grow.toNat

/-- R48: the access kind in `B[0]`; `B[15:1]` is ignored. -/
def kindOfWord (b : Word) : AccessKind := if b.getLsbD 0 then .write else .read

/-- R15, R48: the code of an access kind. -/
def AccessKind.toWord : AccessKind → Word
  | .read => 0
  | .write => 1

/-- Why a decode is refused. -/
inductive DecodeError where
  /-- R51: the command word matches no row, since `CW[15:4]` is not 0 -/
  | illegalCommandWord (cw : Word)
  /-- R52: a trap vector that is not one of the block's three -/
  | foreignTrapVector (vector : BitVec 8)
deriving DecidableEq, Repr

/-- R46, R51: exact match on the whole command word, then the operand format of the operation
(R48, R49). Only the rows that are neither pseudo nor trap vectors decode (R51). -/
def decodeCommand (c : Config) (d : Command) : Except DecodeError Instr :=
  match d.cw.toNat with
  | 0x0 => .ok .alloc
  | 0x1 => .ok (.free d.a)
  | 0x2 => .ok (.map d.a (pageWordVpn c d.b) (pageWordRead d.b) (pageWordWrite d.b))
  | 0x3 => .ok (.unmap d.a (pageWordVpn c d.b))
  | 0x4 => .ok (.xlate d.a (kindOfWord d.b))
  | 0x5 => .ok (.vread d.a)
  | 0x6 => .ok (.vwrite d.a d.b)
  | 0x7 => .ok (.create d.code d.heap)
  | 0x8 => .ok (.load d.a)
  | 0x9 => .ok .yield
  | 0xA => .ok .halt
  | 0xB => .ok (.brk (pageWordVpn c d.a) (pageWordRead d.a) (pageWordWrite d.a) (pageWordGrow d.a))
  | 0xC => .ok .reservedC
  | 0xD => .ok .reservedD
  | 0xE => .ok .reservedE
  | 0xF => .ok .reservedF
  | _ => .error (.illegalCommandWord d.cw)

/-- R52: the dispatch on the trap vector number. -/
def decodeTrapVector (c : Config) (vector : BitVec 8) (request : Word) : Except DecodeError Instr :=
  if vector.toNat = c.trapHalt then .ok .trapvecHalt
  else if vector.toNat = c.trapYield then .ok .trapvecYield
  else if vector.toNat = c.trapBrk then
    .ok (.trapvecBrk (pageWordVpn c request) (pageWordRead request) (pageWordWrite request)
      (pageWordGrow request))
  else .error (.foreignTrapVector vector)

/-- Decoding of whatever the agent issues. -/
def decode (c : Config) : Encoded → Except DecodeError Instr
  | .command d => decodeCommand c d
  | .trapVector v q => decodeTrapVector c v q

/-- R58: a command whose operand Words are as given and whose image port is empty. -/
def plainCommand (cw a b : Word) : Encoded := .command ⟨cw, a, b, [], []⟩

/-- R58, R52: the encoding of every instruction; ignored operand Words and bits are written as 0
(R47, R49). GROW and SHRINK are spelled as the BRK command they stand for. -/
def encode (c : Config) : Instr → Encoded
  | .alloc => plainCommand 0x0000 0 0
  | .free f => plainCommand 0x0001 f 0
  | .map tb vpn r w => plainCommand 0x0002 tb (req c vpn r w false)
  | .unmap tb vpn => plainCommand 0x0003 tb (req c vpn false false false)
  | .xlate va kind => plainCommand 0x0004 va kind.toWord
  | .vread va => plainCommand 0x0005 va 0
  | .vwrite va d => plainCommand 0x0006 va d
  | .create code heap => .command ⟨0x0007, 0, 0, code, heap⟩
  | .load pid => plainCommand 0x0008 pid 0
  | .yield => plainCommand 0x0009 0 0
  | .halt => plainCommand 0x000A 0 0
  | .brk vpn r w g => plainCommand 0x000B (req c vpn r w g) 0
  | .grow vpn r w => plainCommand 0x000B (req c vpn r w true) 0
  | .shrink vpn => plainCommand 0x000B (req c vpn false false false) 0
  | .reservedC => plainCommand 0x000C 0 0
  | .reservedD => plainCommand 0x000D 0 0
  | .reservedE => plainCommand 0x000E 0 0
  | .reservedF => plainCommand 0x000F 0 0
  | .trapvecHalt => .trapVector (BitVec.ofNat 8 c.trapHalt) 0
  | .trapvecYield => .trapVector (BitVec.ofNat 8 c.trapYield) 0
  | .trapvecBrk vpn r w g => .trapVector (BitVec.ofNat 8 c.trapBrk) (req c vpn r w g)

/-- R51, R58: the instruction a decoder reads from an instruction's words: a pseudo-instruction is
another spelling of BRK, every other instruction is itself. -/
def Instr.core : Instr → Instr
  | .alloc => .alloc
  | .free f => .free f
  | .map tb vpn r w => .map tb vpn r w
  | .unmap tb vpn => .unmap tb vpn
  | .xlate va kind => .xlate va kind
  | .vread va => .vread va
  | .vwrite va d => .vwrite va d
  | .create code heap => .create code heap
  | .load pid => .load pid
  | .yield => .yield
  | .halt => .halt
  | .brk vpn r w g => .brk vpn r w g
  | .grow vpn r w => .brk vpn r w true
  | .shrink vpn => .brk vpn false false false
  | .reservedC => .reservedC
  | .reservedD => .reservedD
  | .reservedE => .reservedE
  | .reservedF => .reservedF
  | .trapvecHalt => .trapvecHalt
  | .trapvecYield => .trapvecYield
  | .trapvecBrk vpn r w g => .trapvecBrk vpn r w g

/-- The words of an instruction numbered as spec/opcode_table.json numbers bits: 8 bits are a trap
vector (the TRAPVEC rows), otherwise CW is bits 15..0, A bits 31..16 and B bits 47..32; the image port
is empty and the request of a trap vector is the Word above the vector. -/
def encodedOfTableWord (nbits w : Nat) : Encoded :=
  if nbits ≤ 8 then .trapVector (BitVec.ofNat 8 w) (BitVec.ofNat 16 (w / 2 ^ 8))
  else plainCommand (BitVec.ofNat 16 w) (BitVec.ofNat 16 (w / 2 ^ 16)) (BitVec.ofNat 16 (w / 2 ^ 32))

/-- The instruction the decoder reads, at the default configuration, from the bits `w` of an opcode-table row of
`nbits` bits. -/
def decodeTableWord (nbits w : Nat) : Option Instr :=
  match decode defaultConfig (encodedOfTableWord nbits w) with
  | .ok i => some i
  | .error _ => none

end Sys2Proof
end

