-- ==== Sys2Proof/Machine/Fetch.lean ====
section
/-! DEFINITION. Taking the next command or external action (30_encoding.md R45, R58; 70_reset_and_hazards.md
R120, R124), and placing one. `step` (Machine/Step.lean) runs what is taken here. -/

namespace Sys2Proof.Machine

/-- R12, R58: `SETPC v`, the CPU loop's write of the program counter. The loop obeys `run_enable` (R14, R15), so
once the run has stopped or aborted it writes nothing and no state changes (R115; log 8). -/
def setPc (s : State) (v : Word) : State :=
  { s with pc := if s.runEnable then v else s.pc }

/-- R120: RESET, from any state, of the machine as it is built (R6); what the agent issues afterwards is not the
block's to forget (log 9). -/
def applyReset (s : State) : State := { State.resetAt s.params with input := s.input }

/-- R51, R52: what happens to words that decode to no instruction: an illegal command is refused, a trap
vector that is not the block's produces no command (logs 10, 14). -/
def settleUndecoded (s : State) : DecodeError → State
  | .illegalCommandWord _ => answerIllegal s
  | .foreignTrapVector _ => s

/-- What one input asks for, in the state left once it is taken from the list. -/
def takeInput (s : State) : Input → Fetched
  | .issue e =>
    match decode s.cfg e with
    | .ok i => .instr i s
    | .error err => .settled (settleUndecoded s err)
  | .setPc v => .settled (setPc s v)
  | .reset => .settled (applyReset s)

/-- R124: take the first input, if there is one; with none the block does nothing (R121; log 21). -/
def fetch (s : State) : Fetched :=
  match s.input with
  | [] => .idle
  | i :: rest => takeInput { s with input := rest } i

/-- Place an encoded instruction where the next step takes its input. -/
def placeFirst (s : State) (e : Encoded) : State := { s with input := .issue e :: s.input }

end Sys2Proof.Machine
end

