-- ==== Sys2Proof/Machine/Step.lean ====
section
/-! DEFINITION. One transition of the block (30_encoding.md R45: total and deterministic). -/

namespace Sys2Proof.Machine

/-- R45, R124: take the next input and run it; with no input nothing happens (R121). -/
def step (s : State) : Host.Outcome State Fault Refusal :=
  match fetch s with
  | .idle => .next s
  | .instr i s' => exec i s'
  | .settled s' => .next s'

/-- `s` with the instruction of an opcode-table word as the next input (log 4). -/
def State.withFetchWord (s : State) (nbits w : Nat) : State := placeFirst s (encodedOfTableWord nbits w)

end Sys2Proof.Machine
end

