-- ==== Sys2Proof/Safety.lean ====
section
/-! DEFINITION. What a safe run is, in the terms statements use: the invariants of 10_state.md R26, a
disciplined input (R26, 70_reset_and_hazards.md R126), and the relation of the fault latch to the log
(60_exceptions.md R104). -/

namespace Sys2Proof.Safety

open Sys2Proof.Machine

/-- R19, R20: entry `v` of the table of pid `p`. -/
def entry (c : Config) (m : Memory) (p v : Nat) : Word := m.read c (ptBase c p + v)

/-- R26 (a): no reserved frame is free. -/
abbrev ReservedNeverFree (c : Config) (m : Memory) : Prop := ∀ f, f < c.reservedFrames → isFree c m f = false

/-- R26 (b): every valid entry of a created pid's table names an assignable frame that is not free. -/
abbrev EntriesNameUsedFrames (c : Config) (m : Memory) : Prop :=
  ∀ p, p < procCount c m → ∀ v, v < c.ptEntries → pteValid (entry c m p v) = true →
    c.reservedFrames ≤ pteFrame c (entry c m p v) ∧ pteFrame c (entry c m p v) < c.numFrames ∧
      isFree c m (pteFrame c (entry c m p v)) = false

/-- R26 (c): a frame is named by at most one valid entry system-wide, in the tables of all slots, created or
not. -/
abbrev FramesExclusive (c : Config) (m : Memory) : Prop :=
  ∀ p, p < c.maxProcs → ∀ q, q < c.maxProcs → ∀ v, v < c.ptEntries → ∀ w, w < c.ptEntries →
    pteValid (entry c m p v) = true → pteValid (entry c m q w) = true →
      pteFrame c (entry c m p v) = pteFrame c (entry c m q w) → p = q ∧ v = w

/-- R26 (d): every assignable frame that is not free is named by a valid entry of a live pid
(by exactly one, with (c)). -/
abbrev NoLeak (c : Config) (m : Memory) : Prop :=
  ∀ f, f < c.numFrames → c.reservedFrames ≤ f → isFree c m f = false →
    ∃ p, p < procCount c m ∧ live c m p = true ∧
      ∃ v, v < c.ptEntries ∧ pteValid (entry c m p v) = true ∧ pteFrame c (entry c m p v) = f

/-- R26 (e): a terminated pid has no valid entry. -/
abbrev TerminatedOwnNothing (c : Config) (m : Memory) : Prop :=
  ∀ p, p < procCount c m → notTerminated c m p = false → ∀ v, v < c.ptEntries →
    pteValid (entry c m p v) = false

/-- Beside R26 (c) and (e): the table of a slot no process has been created in has no valid entry. R27 leaves it
so, CREATE's rollback restores it (R83), and only the maintenance commands could break it (log 23). -/
abbrev UncreatedOwnNothing (c : Config) (m : Memory) : Prop :=
  ∀ p, p < c.maxProcs → procCount c m ≤ p → ∀ v, v < c.ptEntries → pteValid (entry c m p v) = false

/-- R26 (f): a created slot holds its pid or the sentinel, and its own table's base. -/
abbrev SlotsConsistent (c : Config) (m : Memory) : Prop :=
  ∀ p, p < procCount c m →
    ((m.read c (pcb c p)).toNat = p ∨ m.read c (pcb c p) = terminatedWord c) ∧
      (m.read c (pcb c p + 2)).toNat = ptBase c p

/-- R26 (g): the marker names a created pid, whose table PTBR selects. -/
abbrev CurrentConsistent (s : State) : Prop :=
  s.curPid ≠ noProcessWord s.cfg →
    s.curPid.toNat < s.procCount ∧ s.ptbr.toNat = ptBase s.cfg s.curPid.toNat

/-- R26 (j): while the run goes on, the current process is live. -/
abbrev CurrentLive (s : State) : Prop :=
  s.runEnable = true → s.curPid ≠ noProcessWord s.cfg → live s.cfg s.mem s.curPid.toNat = true

/-- R26: what holds in every state of a disciplined run: clauses (a) to (h) and (j), and what the system-wide
(c) needs of the tables of uncreated slots. Clause (i) speaks of a transition; the statement about
disciplined runs says it beside this. -/
structure Disciplined (s : State) : Prop where
  /-- (a) -/
  reserved : ReservedNeverFree s.cfg s.mem
  /-- (b) -/
  named : EntriesNameUsedFrames s.cfg s.mem
  /-- (c) -/
  exclusive : FramesExclusive s.cfg s.mem
  /-- (d) -/
  noLeak : NoLeak s.cfg s.mem
  /-- (e) -/
  terminated : TerminatedOwnNothing s.cfg s.mem
  /-- beside (c) and (e) -/
  uncreated : UncreatedOwnNothing s.cfg s.mem
  /-- (f) -/
  slots : SlotsConsistent s.cfg s.mem
  /-- (g) -/
  current : CurrentConsistent s
  /-- (h) -/
  bounded : s.procCount ≤ s.cfg.maxProcs
  /-- (j) -/
  currentLive : CurrentLive s

/-- R26, R126 (a), (b): an instruction a disciplined run may issue in `s`. -/
def disciplinedInstr (s : State) : Instr → Bool
  | .alloc => false
  | .free _ => false
  | .map _ _ _ _ => false
  | .unmap _ _ => false
  | .xlate _ _ => true
  | .vread _ => true
  | .vwrite _ _ => true
  | .create _ _ => true
  | .load pid => live s.cfg s.mem pid.toNat
  | .yield => live s.cfg s.mem s.curPid.toNat
  | .halt => live s.cfg s.mem s.curPid.toNat
  | .brk _ _ _ _ => live s.cfg s.mem s.curPid.toNat
  | .grow _ _ _ => live s.cfg s.mem s.curPid.toNat
  | .shrink _ => live s.cfg s.mem s.curPid.toNat
  | .reservedC => false
  | .reservedD => false
  | .reservedE => false
  | .reservedF => false
  | .trapvecHalt => live s.cfg s.mem s.curPid.toNat
  | .trapvecYield => live s.cfg s.mem s.curPid.toNat
  | .trapvecBrk _ _ _ _ => live s.cfg s.mem s.curPid.toNat

/-- R26, R126: an input a disciplined run may have next. SETPC is the CPU loop's (R12), a trap vector that is
not the block's issues no command (R52), and RESET begins another disciplined run (log 23). -/
def disciplinedInput (s : State) : Input → Bool
  | .issue e =>
    match decode s.cfg e with
    | .ok i => disciplinedInstr s i
    | .error (.illegalCommandWord _) => false
    | .error (.foreignTrapVector _) => true
  | .setPc _ => true
  | .reset => true

/-- The next input, if there is one, is disciplined. -/
def nextDisciplined (s : State) : Bool :=
  match s.input with
  | [] => true
  | i :: _ => disciplinedInput s i

/-- R26: the states of disciplined runs, at any configuration, from reset with any list of inputs the agent is going
to issue. -/
inductive DisciplinedRun : State → Prop where
  /-- right after reset -/
  | start (params : Params) (inputs : List Input) : DisciplinedRun { State.resetAt params with input := inputs }
  /-- one transition on a disciplined input -/
  | next (s t : State) : DisciplinedRun s → nextDisciplined s = true → step s = .next t → DisciplinedRun t

/-- R111: the event is one that fault entry logs. -/
def isFaultEvent (e : DiagEvent) : Bool :=
  match e.code with
  | .pcbTableFull => false
  | .growAlreadyMapped => false
  | .growNoFrame => false
  | .shrinkNotMapped => false
  | .faultReserved => true
  | .faultUnmapped => true
  | .faultPermission => true

/-- R104, R110: the latch and the log tell one story. With no fault latched the latch is as after reset and
the log holds no fault event; with one latched, its event is the log's last, the only fault event. -/
def LatchMatchesLog (s : State) : Prop :=
  match s.fault.cause.diag with
  | none => s.fault = ⟨.none, 0, .read⟩ ∧ s.log.all (fun e => !isFaultEvent e) = true
  | some d => ∃ before, s.log = before ++ [⟨d, s.fault.va, s.curPid⟩] ∧
      before.all (fun e => !isFaultEvent e) = true

/-- R60: `f` is the lowest-numbered free assignable frame. -/
def LowestFree (c : Config) (m : Memory) (f : Nat) : Prop :=
  c.reservedFrames ≤ f ∧ f < c.numFrames ∧ isFree c m f = true ∧
    ∀ g, c.reservedFrames ≤ g → g < f → isFree c m g = false

/-- R60: no assignable frame is free. -/
def NoneFree (c : Config) (m : Memory) : Prop :=
  ∀ g, c.reservedFrames ≤ g → g < c.numFrames → isFree c m g = false

/-- R90: `p` is the first pid after `cur`, cyclically among the created pids, that is not terminated. -/
def FirstAfter (c : Config) (m : Memory) (cur p : Nat) : Prop :=
  ∃ k, 1 ≤ k ∧ k ≤ procCount c m ∧ p = (cur + k) % procCount c m ∧ notTerminated c m p = true ∧
    ∀ j, 1 ≤ j → j < k → notTerminated c m ((cur + j) % procCount c m) = false

/-- R90: every created pid is terminated. -/
def AllTerminated (c : Config) (m : Memory) : Prop := ∀ p, p < procCount c m → notTerminated c m p = false

/-- R22: the number of live processes. -/
def liveCount (c : Config) (m : Memory) : Nat := (List.range (procCount c m)).countP (notTerminated c m)

/-- R97: the number of pages a process has mapped. -/
def pageCount (c : Config) (m : Memory) (p : Nat) : Nat :=
  (List.range c.ptEntries).countP (fun v => pteValid (entry c m p v))

/-- R81: how many pages CREATE maps. -/
def createPages (c : Config) : Nat := c.codePages + c.heapPages

/-- R81: the `j`-th page CREATE maps, the code pages first. -/
def createPage (c : Config) (j : Nat) : Nat :=
  if j < c.codePages then c.codeBaseVpn + j else c.heapBaseVpn + (j - c.codePages)

/-- `k` YIELD operations one after another; `none` if one does not answer a next state. -/
def yieldTimes : Nat → State → Option State
  | 0, s => some s
  | k + 1, s =>
    match exec .yield s with
    | .next t => yieldTimes k t
    | .fault _ => none
    | .refused _ => none

/-- R53: whether a command is refused, read off the rule: the run has ended (a), (b); the opcode is reserved
(c); an operand is out of range (d); or a current process is needed and there is none (e). -/
def mustRefuse (s : State) (i : Instr) : Prop :=
  s.fault.cause ≠ .none ∨ s.running = false ∨
  match i with
  | .alloc => False
  | .free f => s.cfg.numFrames ≤ f.toNat
  | .map tb _ _ _ => ∀ p, p < s.cfg.maxProcs → tb.toNat ≠ ptBase s.cfg p
  | .unmap tb _ => ∀ p, p < s.cfg.maxProcs → tb.toNat ≠ ptBase s.cfg p
  | .xlate _ _ => s.curPid = noProcessWord s.cfg
  | .vread _ => s.curPid = noProcessWord s.cfg
  | .vwrite _ _ => s.curPid = noProcessWord s.cfg
  | .create _ _ => False
  | .load pid => s.cfg.maxProcs ≤ pid.toNat
  | .yield => s.curPid = noProcessWord s.cfg
  | .halt => s.curPid = noProcessWord s.cfg
  | .brk _ _ _ _ => s.curPid = noProcessWord s.cfg
  | .grow _ _ _ => s.curPid = noProcessWord s.cfg
  | .shrink _ => s.curPid = noProcessWord s.cfg
  | .reservedC => True
  | .reservedD => True
  | .reservedE => True
  | .reservedF => True
  | .trapvecHalt => s.curPid = noProcessWord s.cfg
  | .trapvecYield => s.curPid = noProcessWord s.cfg
  | .trapvecBrk _ _ _ _ => s.curPid = noProcessWord s.cfg

/-- R53: no refusal condition holds for an operation that needs a current process: the run goes on and one
has been loaded. -/
def Serving (s : State) : Prop := s.runEnable = true ∧ s.curPid ≠ noProcessWord s.cfg

/-- R70: the address of the entry an access reads, `PTBR + vpn`. -/
def entryAddr (s : State) (va : Word) : Nat := s.ptbr.toNat + va.toNat / s.cfg.pageWords

/-- R70: the entry an access reads. -/
def entryFor (s : State) (va : Word) : Word := s.word (entryAddr s va)

/-- R71: bit 1 of an entry gates reads and bit 2 gates writes. -/
def permits (e : Word) : AccessKind → Bool
  | .read => e.getLsbD 1
  | .write => e.getLsbD 2

/-- R70, R35: `pte_frame(e) * PAGE_WORDS + off` for the entry an access reads. -/
def landing (s : State) (va : Word) : Nat :=
  pteFrame s.cfg (entryFor s va) * s.cfg.pageWords + va.toNat % s.cfg.pageWords

/-- R70: an access that passes the three checks. -/
def Reaches (s : State) (va : Word) (k : AccessKind) : Prop :=
  s.cfg.reservedVpnBoundary ≤ va.toNat / s.cfg.pageWords ∧ (entryFor s va).getLsbD 0 = true ∧
    permits (entryFor s va) k = true

/-- R46: the three operations that translate, with the kind of access each makes. -/
def Accesses (i : Instr) (va : Word) (k : AccessKind) : Prop :=
  i = .xlate va k ∨ (i = .vread va ∧ k = .read) ∨ ∃ d, i = .vwrite va d ∧ k = .write

/-- R104: the state after fault entry, spelled out. -/
def faulted (s : State) (cause : FaultCause) (event : DiagCode) (value : Word) (va : Word)
    (k : AccessKind) : State :=
  { s with
    fault := ⟨cause, va, k⟩
    log := s.log ++ [⟨event, va, s.curPid⟩]
    response := some ⟨.fault, value⟩ }

/-- R19: the Word `e` is a valid entry for frame `f` with these permissions and reserved bits 0. -/
def EntryIs (c : Config) (e : Word) (f : Nat) (read write : Bool) : Prop :=
  e.toNat = f * 2 ^ (16 - c.frameBits) + write.toNat * 4 + read.toNat * 2 + 1

/-- R52, R58: the operations that run YIELD. -/
def IsYield (i : Instr) : Prop := i = .yield ∨ i = .trapvecYield

/-- R52, R58: the operations that run HALT. -/
def IsHalt (i : Instr) : Prop := i = .halt ∨ i = .trapvecHalt

/-- R52, R58: the operations that grow page `vpn`. -/
def IsGrow (i : Instr) (vpn : Nat) (read write : Bool) : Prop :=
  i = .brk vpn read write true ∨ i = .grow vpn read write ∨ i = .trapvecBrk vpn read write true

/-- R52, R58: the operations that shrink page `vpn`. -/
def IsShrink (i : Instr) (vpn : Nat) : Prop :=
  (∃ r w, i = .brk vpn r w false) ∨ i = .shrink vpn ∨ ∃ r w, i = .trapvecBrk vpn r w false

/-- PTBR holds the base of a page table (R13, R127). -/
def PtbrIsTable (s : State) : Prop := ∃ p, p < s.cfg.maxProcs ∧ s.ptbr.toNat = ptBase s.cfg p

/-- The current pid has a slot and no more pids than slots have been created (R17, R26 (g), (h)). -/
def SlotsInRange (s : State) : Prop := s.curPid.toNat < s.cfg.maxProcs ∧ s.procCount ≤ s.cfg.maxProcs

/-- The form equal states share (log 18, log 6): memory in its canonical form, the loaded pids rising. -/
def Canonical (s : State) : Prop := s.mem.wf s.cfg = true ∧ s.everLoaded.Pairwise (· < ·)

end Sys2Proof.Safety
end

