-- ==== Sys2Proof/Certificates/Slice0/Obligations.lean ====
section
/-! DEFINITION. The statements for the provers. Each docstring names the rule of spec/ it comes from, and
says where it rests on a choice of the model's (notes/assumptions). A state carries the configuration its machine is
built at, so a statement for every state is a statement for every well-formed configuration (00_scope.md R6, R7). -/

open Sys2Proof Sys2Proof.Machine Sys2Proof.Safety

/-! ### Reset, decoding, stepping -/

/-- R27, R18: what reset leaves in the block, at every configuration, and with the defaults' numbers. -/
def Obligations.ResetLeavesTheStatedValues : Prop :=
  (∀ (p : Params) (s : State), s = State.resetAt p →
    s.pc = 0 ∧ s.ptbr = 0 ∧ s.running = true ∧ s.fault = ⟨.none, 0, .read⟩ ∧ s.log = [] ∧ s.cfg = p.config ∧
    s.word s.cfg.curPidAddr = noProcessWord s.cfg ∧ s.word s.cfg.procCountAddr = 0 ∧
    (∀ i j, i < s.cfg.bitmapWords → j < 16 → (s.word (s.cfg.bitmapAddr + i)).getLsbD (15 - j) =
      decide (s.cfg.reservedFrames ≤ 16 * i + j ∧ 16 * i + j < s.cfg.numFrames)) ∧
    ∀ a, a < s.cfg.memWords → a ≠ s.cfg.curPidAddr →
      (a < s.cfg.bitmapAddr ∨ s.cfg.bitmapAddr + s.cfg.bitmapWords ≤ a) → s.word a = 0) ∧
  State.reset = State.resetAt defaultParams ∧ State.reset.word 0 = 0xFFFF#16 ∧ State.reset.word 1 = 0 ∧
  State.reset.word 3 = 0x1FFF#16 ∧ State.reset.word 4 = 0xFFFF#16

/-- R6, R7, R10: no operation and no step, a reset among them, changes the configuration record; it is well-formed in
every state; and the machine that `State.reset` starts has the defaults, which lie where R7 says. How the record sits
beside the state is log 1. -/
def Obligations.TheConfigurationIsFixed : Prop :=
  (∀ (i : Instr) (s t : State), exec i s = .next t → t.params = s.params) ∧
  (∀ s t : State, step s = .next t → t.params = s.params) ∧
  (∀ s : State, s.cfg.wellFormed = true) ∧
  State.reset.cfg = defaultConfig ∧ defaultConfig.fits = true ∧
  defaultConfig.curPidAddr = 0 ∧ defaultConfig.procCountAddr = 1 ∧ bmWord defaultConfig 0 = 3 ∧
  bmWord defaultConfig 31 = 4 ∧ pcb defaultConfig 0 = 12 ∧ pcb defaultConfig 63 + 2 = 203 ∧
  ptBase defaultConfig 0 = 4096 ∧ ptBase defaultConfig 63 + 31 = 6143 ∧
  defaultConfig.reservedFrames * defaultConfig.pageWords = 6144 ∧ defaultConfig.memWords = 65536

/-- R45, R51: a step takes the first input; words that decode run as the instruction they decode to, which
is well-formed. The list of inputs is the model's (log 4). -/
def Obligations.StepRunsTheDecodedInstruction : Prop :=
  ∀ (s : State) (e : Encoded) (rest : List Input) (i : Instr),
    s.input = .issue e :: rest → decode s.cfg e = .ok i →
      i.wellFormed s.cfg = true ∧ step s = exec i { s with input := rest }

/-- R121, R12, R115, R120, R52: a step with nothing issued does nothing; SETPC writes PC alone while the run goes on,
and nothing once it has ended; RESET gives the reset state from any state; a trap vector that is not the block's
produces no command. How inputs are held and taken is the model's (logs 4, 8, 9, 10, 11, 21). -/
def Obligations.StepTakesExternalActions : Prop :=
  ∀ s : State,
    (s.input = [] → step s = .next s) ∧
    (∀ v rest, s.input = .setPc v :: rest → s.runEnable = true → step s = .next { s with input := rest, pc := v }) ∧
    (∀ v rest, s.input = .setPc v :: rest → s.runEnable = false → step s = .next { s with input := rest }) ∧
    (∀ rest, s.input = .reset :: rest → step s = .next { State.resetAt s.params with input := rest }) ∧
    (∀ v q rest, s.input = .issue (.trapVector v q) :: rest →
      v.toNat ≠ s.cfg.trapHalt → v.toNat ≠ s.cfg.trapYield → v.toNat ≠ s.cfg.trapBrk →
        step s = .next { s with input := rest })

/-- R48, R49, R51, R52: at the default configuration words of parts 2 and 4 of 95_test_vectors.md decode to what they
stand for. That 0x000C has a constructor of its own (log 13), and that the dispatch on a trap vector is modelled, with
the spec's general-knowledge number 0x29 (log 11), are the model's choices. -/
def Obligations.WrittenWordsDecode : Prop :=
  decode defaultConfig (plainCommand 0x0002 0x1000 0x4006) = .ok (.map 0x1000 8 true true) ∧
  decode defaultConfig (plainCommand 0x0003 0x1000 0xF800) = .ok (.unmap 0x1000 31) ∧
  decode defaultConfig (plainCommand 0x0004 0x3005 0xFFFE) = .ok (.xlate 0x3005 .read) ∧
  decode defaultConfig (plainCommand 0x0006 0x4001 0x5555) = .ok (.vwrite 0x4001 0x5555) ∧
  decode defaultConfig (plainCommand 0x000B 0x5003 0) = .ok (.brk 10 true false true) ∧
  decode defaultConfig (plainCommand 0x000C 0 0) = .ok .reservedC ∧
  decode defaultConfig (plainCommand 0x0010 0 0) = .error (.illegalCommandWord 0x0010) ∧
  decode defaultConfig (.trapVector 0x29 0x5005) = .ok (.trapvecBrk 10 false true true)

/-- R47 to R52, R58: at every configuration, decoding the words of any well-formed instruction gives it back; a
pseudo-instruction comes back as the BRK it is (R51: pseudo rows do not decode). `fits` says that the fields of a
request word and the trap vectors do not collide (log 24). That both read and write the vpn field as the high `VPN_BITS`
bits, at a width other than the default's, is the model's reading of R49 (log 1). -/
def Obligations.EncodedInstructionsDecodeBack : Prop :=
  ∀ (c : Config) (i : Instr), c.wellFormed = true → c.fits = true → i.wellFormed c = true →
    decode c (encode c i) = .ok i.core

/-- R47, R48, R49, R51: whatever decodes is well-formed, is no pseudo-instruction, and is what its own encoding
decodes to; and two commands of one command word that agree in the operand bits and images its format does not ignore
decode alike. For MAP, UNMAP and BRK the operand bits not ignored are the flags and the high `VPN_BITS` bits: R49 places
the vpn field for the default width only, so at another width that clause is the model's reading (log 1). That the
reserved opcodes decode too is log 13, and `fits` is log 24. -/
def Obligations.DecodedInstructionsAreWellFormed : Prop :=
  (∀ (c : Config) (e : Encoded) (i : Instr), c.wellFormed = true → decode c e = .ok i →
    i.wellFormed c = true ∧ i.core = i ∧ (c.fits = true → decode c (encode c i) = .ok i)) ∧
  ∀ (c : Config) (cw a a' b b' : Word) (code code' heap heap' : List Word), c.wellFormed = true →
    (cw = 0 ∨ cw = 9 ∨ cw = 0xA ∨ 0xC ≤ cw.toNat →
      decode c (.command ⟨cw, a, b, code, heap⟩) = decode c (.command ⟨cw, a', b', code', heap'⟩)) ∧
    (cw = 1 ∨ cw = 5 ∨ cw = 8 →
      decode c (.command ⟨cw, a, b, code, heap⟩) = decode c (.command ⟨cw, a, b', code', heap'⟩)) ∧
    (b.getLsbD 1 = b'.getLsbD 1 → b.getLsbD 2 = b'.getLsbD 2 → b.toNat / c.pageWords = b'.toNat / c.pageWords →
      decode c (.command ⟨2, a, b, code, heap⟩) = decode c (.command ⟨2, a, b', code', heap'⟩)) ∧
    (b.toNat / c.pageWords = b'.toNat / c.pageWords →
      decode c (.command ⟨3, a, b, code, heap⟩) = decode c (.command ⟨3, a, b', code', heap'⟩)) ∧
    (b.getLsbD 0 = b'.getLsbD 0 →
      decode c (.command ⟨4, a, b, code, heap⟩) = decode c (.command ⟨4, a, b', code', heap'⟩)) ∧
    decode c (.command ⟨6, a, b, code, heap⟩) = decode c (.command ⟨6, a, b, code', heap'⟩) ∧
    decode c (.command ⟨7, a, b, code, heap⟩) = decode c (.command ⟨7, a', b', code, heap⟩) ∧
    (a.getLsbD 0 = a'.getLsbD 0 → a.getLsbD 1 = a'.getLsbD 1 → a.getLsbD 2 = a'.getLsbD 2 →
      a.toNat / c.pageWords = a'.toNat / c.pageWords →
      decode c (.command ⟨0xB, a, b, code, heap⟩) = decode c (.command ⟨0xB, a', b', code', heap'⟩))

/-- R51: decode is by exact match on the whole command word: a word of 16 or more is illegal, and one below
decodes to an instruction whose own command word it is. For 0xC to 0xF, which R51 calls illegal commands, that
instruction is the reserved opcode's, a constructor by the model's choice (log 13), and it is refused. -/
def Obligations.CommandWordsMatchExactly : Prop :=
  ∀ (c : Config) (d : Command),
    (16 ≤ d.cw.toNat → decode c (.command d) = .error (.illegalCommandWord d.cw)) ∧
    (d.cw.toNat < 16 → ∃ i e, decode c (.command d) = .ok i ∧ encode c i = .command e ∧ e.cw = d.cw)

/-- R52, R58: GROW and SHRINK run BRK, each trap vector runs its operation, and the block's three vectors are the only
ones that decode. That the dispatch on a vector is modelled is the model's choice, and the three numbers are parameters
whose defaults the spec takes from general knowledge (log 11). -/
def Obligations.AliasesRunTheirOperation : Prop :=
  (∀ (s : State) (vpn : Nat) (r w g : Bool),
    exec (.grow vpn r w) s = exec (.brk vpn r w true) s ∧
    exec (.shrink vpn) s = exec (.brk vpn r w false) s ∧
    exec (.trapvecBrk vpn r w g) s = exec (.brk vpn r w g) s ∧
    exec .trapvecHalt s = exec .halt s ∧ exec .trapvecYield s = exec .yield s) ∧
  (∀ (c : Config) (v : BitVec 8) (q : Word),
    (∃ i, decode c (.trapVector v q) = .ok i) ↔ v.toNat = c.trapHalt ∨ v.toNat = c.trapYield ∨ v.toNat = c.trapBrk)

/-! ### Refusal -/

/-- R53: a command is refused exactly when one of (a) to (e) holds, and a refused command changes nothing
but the response; an illegal command word is refused in every state. -/
def Obligations.RefusedExactlyWhenTheRuleSays : Prop :=
  (∀ (i : Instr) (s : State), mustRefuse s i →
    exec i s = .next { s with response := some ⟨.refused, 0⟩ }) ∧
  (∀ (i : Instr) (s : State), ¬ mustRefuse s i →
    ∃ t r, exec i s = .next t ∧ t.response = some r ∧ r.status ≠ .refused) ∧
  (∀ (c : Command) (s : State) (rest : List Input), 16 ≤ c.cw.toNat → s.input = .issue (.command c) :: rest →
    step s = .next { s with input := rest, response := some ⟨.refused, 0⟩ })

/-- R51, R53 (c): the reserved opcodes answer `(REFUSED, 0)` in every state and change nothing else. -/
def Obligations.ReservedOpcodesAreRefused : Prop :=
  ∀ (i : Instr) (s : State), i = .reservedC ∨ i = .reservedD ∨ i = .reservedE ∨ i = .reservedF →
    exec i s = .next { s with response := some ⟨.refused, 0⟩ }

/-! ### Frame allocator -/

/-- R60, R18: ALLOC answers the lowest free assignable frame and clears its bit and no other of the bitmap, or answers
that none is free and writes nothing. -/
def Obligations.AllocTakesLowestFreeFrame : Prop :=
  ∀ s : State, s.runEnable = true →
    (∀ f, LowestFree s.cfg s.mem f → ∃ t, exec .alloc s = .next t ∧
      t = { s with mem := t.mem, response := some ⟨.ok, BitVec.ofNat 16 f⟩ } ∧
      (∀ g, g < 16 * s.cfg.bitmapWords → isFree s.cfg t.mem g = (isFree s.cfg s.mem g && decide (g ≠ f))) ∧
      ∀ a, a < s.cfg.memWords → a ≠ bmWord s.cfg f → t.word a = s.word a) ∧
    (NoneFree s.cfg s.mem → exec .alloc s = .next { s with response := some ⟨.noFreeFrame, 0⟩ })

/-- R61: FREE sets the bit of any frame it is given, free, reserved or mapped, and no other of the bitmap; a number that
no frame has is refused. -/
def Obligations.FreeMarksTheFrameFree : Prop :=
  (∀ (s : State) (f : Word), s.runEnable = true → f.toNat < s.cfg.numFrames → ∃ t, exec (.free f) s = .next t ∧
    t = { s with mem := t.mem, response := some ⟨.ok, 0⟩ } ∧
    (∀ g, g < 16 * s.cfg.bitmapWords → isFree s.cfg t.mem g = (isFree s.cfg s.mem g || decide (g = f.toNat))) ∧
    ∀ a, a < s.cfg.memWords → a ≠ bmWord s.cfg f.toNat → t.word a = s.word a) ∧
  ∀ (s : State) (f : Word), s.cfg.numFrames ≤ f.toNat →
    exec (.free f) s = .next { s with response := some ⟨.refused, 0⟩ }

/-- R62: ALLOC, FREE of the frame it gave, ALLOC gives that frame again. -/
def Obligations.FirstFitReturnsTheFreedFrame : Prop :=
  ∀ (s t₁ : State) (f : Word), exec .alloc s = .next t₁ → t₁.response = some ⟨.ok, f⟩ →
    ∃ t₂ t₃, exec (.free f) t₁ = .next t₂ ∧ exec .alloc t₂ = .next t₃ ∧ t₃.response = some ⟨.ok, f⟩

/-- R63: how ALLOC and FREE move the number of free frames, and its value after reset. -/
def Obligations.FreeCountFollowsAllocAndFree : Prop :=
  (∀ s : State, s.runEnable = true → ∃ t, exec .alloc s = .next t ∧
    ((∃ f, t.response = some ⟨.ok, f⟩ ∧ freeCount s.cfg t.mem + 1 = freeCount s.cfg s.mem) ∨
      (t.response = some ⟨.noFreeFrame, 0⟩ ∧ freeCount s.cfg t.mem = freeCount s.cfg s.mem ∧
        freeCount s.cfg s.mem = 0))) ∧
  (∀ (s : State) (f : Word), s.runEnable = true → f.toNat < s.cfg.numFrames → ∃ t, exec (.free f) s = .next t ∧
    freeCount s.cfg t.mem =
      if s.cfg.reservedFrames ≤ f.toNat ∧ isFree s.cfg s.mem f.toNat = false then freeCount s.cfg s.mem + 1
      else freeCount s.cfg s.mem) ∧
  (∀ p : Params, freeCount p.config (State.resetAt p).mem = p.config.numFrames - p.config.reservedFrames) ∧
  freeCount State.reset.cfg State.reset.mem = 29

/-! ### Page tables -/

/-- R65: MAP's three outcomes in the order of its checks, and what each leaves. -/
def Obligations.MapWritesTheEntry : Prop :=
  ∀ (s : State) (tb : Word) (p vpn : Nat) (r w : Bool),
    s.runEnable = true → p < s.cfg.maxProcs → tb.toNat = ptBase s.cfg p → vpn < s.cfg.ptEntries →
      ((s.word (tb.toNat + vpn)).getLsbD 0 = true →
        exec (.map tb vpn r w) s = .next { s with response := some ⟨.alreadyMapped, 0⟩ }) ∧
      ((s.word (tb.toNat + vpn)).getLsbD 0 = false → NoneFree s.cfg s.mem →
        exec (.map tb vpn r w) s = .next { s with response := some ⟨.outOfFrames, 0⟩ }) ∧
      ((s.word (tb.toNat + vpn)).getLsbD 0 = false → ∀ f, LowestFree s.cfg s.mem f →
        ∃ t, exec (.map tb vpn r w) s = .next t ∧
          t = { s with mem := t.mem, response := some ⟨.ok, BitVec.ofNat 16 f⟩ } ∧
          EntryIs s.cfg (t.word (tb.toNat + vpn)) f r w ∧
          (∀ g, g < 16 * s.cfg.bitmapWords → isFree s.cfg t.mem g = (isFree s.cfg s.mem g && decide (g ≠ f))) ∧
          ∀ a, a < s.cfg.memWords → a ≠ tb.toNat + vpn → a ≠ bmWord s.cfg f → t.word a = s.word a)

/-- R66: UNMAP's two outcomes: the entry's frame freed and bit 0 of the entry cleared, or nothing written. Of an entry
whose frame field is at or above `NUM_FRAMES`, which has no bitmap bit (R18, R61), no frame is freed and no Word but the
entry changes: that clause is the model's reading (log 26). -/
def Obligations.UnmapFreesTheFrame : Prop :=
  ∀ (s : State) (tb : Word) (p vpn : Nat),
    s.runEnable = true → p < s.cfg.maxProcs → tb.toNat = ptBase s.cfg p → vpn < s.cfg.ptEntries →
      ((s.word (tb.toNat + vpn)).getLsbD 0 = false →
        exec (.unmap tb vpn) s = .next { s with response := some ⟨.notMapped, 0⟩ }) ∧
      ((s.word (tb.toNat + vpn)).getLsbD 0 = true →
        ∃ t, exec (.unmap tb vpn) s = .next t ∧
          t = { s with mem := t.mem, response := some ⟨.ok, 0⟩ } ∧
          t.word (tb.toNat + vpn) = s.word (tb.toNat + vpn) &&& 0xFFFE#16 ∧
          (∀ g, g < 16 * s.cfg.bitmapWords → isFree s.cfg t.mem g =
            (isFree s.cfg s.mem g || decide (g = pteFrame s.cfg (s.word (tb.toNat + vpn)) ∧ g < s.cfg.numFrames))) ∧
          ∀ a, a < s.cfg.memWords → a ≠ tb.toNat + vpn →
            (pteFrame s.cfg (s.word (tb.toNat + vpn)) < s.cfg.numFrames →
              a ≠ bmWord s.cfg (pteFrame s.cfg (s.word (tb.toNat + vpn)))) → t.word a = s.word a)

/-- R67: a second MAP of a mapped page answers ALREADY_MAPPED and leaves the entry and the bitmap; MAP,
UNMAP, MAP gives the same frame; a second UNMAP answers NOT_MAPPED. -/
def Obligations.MapTwiceKeepsTheFirstMapping : Prop :=
  ∀ (s t₁ : State) (tb : Word) (vpn : Nat) (r w : Bool) (f : Word), vpn < s.cfg.ptEntries →
    exec (.map tb vpn r w) s = .next t₁ → t₁.response = some ⟨.ok, f⟩ →
      EntryIs s.cfg (t₁.word (tb.toNat + vpn)) f.toNat r w ∧
      (∀ r' w', exec (.map tb vpn r' w') t₁ = .next { t₁ with response := some ⟨.alreadyMapped, 0⟩ }) ∧
      ∃ t₂, exec (.unmap tb vpn) t₁ = .next t₂ ∧ t₂.response = some ⟨.ok, 0⟩ ∧
        exec (.unmap tb vpn) t₂ = .next { t₂ with response := some ⟨.notMapped, 0⟩ } ∧
        ∀ r' w', ∃ t₃, exec (.map tb vpn r' w') t₂ = .next t₃ ∧ t₃.response = some ⟨.ok, f⟩

/-! ### Translation -/

/-- R70, R101, R103, R104: the three faults of XLATE, VREAD and VWRITE, in the order of the checks, each with
the whole state fault entry leaves. -/
def Obligations.AccessFaultsInTheOrderOfTheChecks : Prop :=
  ∀ (s : State) (i : Instr) (va : Word) (k : AccessKind), Accesses i va k → Serving s →
    (va.toNat / s.cfg.pageWords < s.cfg.reservedVpnBoundary →
      exec i s = .next (faulted s .reservedRegion .faultReserved 1 va k)) ∧
    (s.cfg.reservedVpnBoundary ≤ va.toNat / s.cfg.pageWords → (entryFor s va).getLsbD 0 = false →
      exec i s = .next (faulted s .unmappedAccess .faultUnmapped 2 va k)) ∧
    (s.cfg.reservedVpnBoundary ≤ va.toNat / s.cfg.pageWords → (entryFor s va).getLsbD 0 = true →
      permits (entryFor s va) k = false →
        exec i s = .next (faulted s .permissionViolation .faultPermission 3 va k))

/-- R70, R71, R72: XLATE of an access that passes the checks answers `frame * PAGE_WORDS + off` and changes
nothing but the response. The address is a Word of M when the entry names a frame; a corrupted entry, where
`NUM_FRAMES < 2^FRAME_BITS`, can give one that no Word holds, and then the value is free (log 25). -/
def Obligations.XlateGivesThePhysicalAddress : Prop :=
  ∀ (s : State) (va : Word) (k : AccessKind), Serving s → Reaches s va k →
    exec (.xlate va k) s = .next { s with response := some ⟨.ok, addressWord s.cfg (landing s va)⟩ } ∧
    (pteFrame s.cfg (entryFor s va) < s.cfg.numFrames → landing s va < s.cfg.memWords) ∧
    (landing s va < 65536 → addressWord s.cfg (landing s va) = BitVec.ofNat 16 (landing s va))

/-- R73: VREAD answers the Word at the translated address and changes nothing but the response. -/
def Obligations.VreadReadsTheTranslatedWord : Prop :=
  ∀ (s : State) (va : Word), Serving s → Reaches s va .read →
    exec (.vread va) s = .next { s with response := some ⟨.ok, s.word (landing s va)⟩ }

/-- R74: VWRITE writes the Word at the translated address and changes no other Word and no register. Past the last
Word, where only an entry with a corrupted frame field leads, there is none to write (log 7). -/
def Obligations.VwriteWritesTheTranslatedWord : Prop :=
  ∀ (s : State) (va d : Word), Serving s → Reaches s va .write →
    ∃ t, exec (.vwrite va d) s = .next t ∧ t = { s with mem := t.mem, response := some ⟨.ok, 0⟩ } ∧
      (pteFrame s.cfg (entryFor s va) < s.cfg.numFrames → t.word (landing s va) = d) ∧
      ∀ a, a < s.cfg.memWords → a ≠ landing s va → t.word a = s.word a

/-- R76: every access below the reserved boundary answers `(FAULT, 1)`, whatever any table holds. -/
def Obligations.ReservedRegionAlwaysFaults : Prop :=
  ∀ (s : State) (i : Instr) (va : Word) (k : AccessKind), Accesses i va k → Serving s →
    va.toNat / s.cfg.pageWords < s.cfg.reservedVpnBoundary →
    ∃ t, exec i s = .next t ∧ t.response = some ⟨.fault, 1⟩

/-- R75: a faulting access changes no Word of M and no register but the latch; VREAD gives the cause code;
afterwards every command is refused. -/
def Obligations.FaultingAccessHasNoOtherEffect : Prop :=
  ∀ (s t : State) (i : Instr) (va : Word) (k : AccessKind) (v : Word), Accesses i va k →
    exec i s = .next t → t.response = some ⟨.fault, v⟩ →
      t = { s with fault := t.fault, log := t.log, response := t.response } ∧
      t.fault.va = va ∧ t.fault.kind = k ∧ v = t.fault.cause.code ∧ t.fault.cause ≠ .none ∧
      (∀ j, exec j t = .next { t with response := some ⟨.refused, 0⟩ }) ∧
      ∀ c rest, step { t with input := .issue (.command c) :: rest } =
        .next { t with input := rest, response := some ⟨.refused, 0⟩ }

/-- R77, R78: what XLATE answers depends on PTBR, the one entry and the constants alone (the rest of memory, the
current pid, PC and the log do not matter), and asking again changes nothing. -/
def Obligations.TranslationDependsOnlyOnItsEntry : Prop :=
  (∀ (s₁ s₂ t₁ : State) (va : Word) (k : AccessKind), Serving s₁ → Serving s₂ →
    s₁.params = s₂.params → s₁.ptbr = s₂.ptbr →
    entryFor s₁ va = entryFor s₂ va → exec (.xlate va k) s₁ = .next t₁ →
      ∃ t₂, exec (.xlate va k) s₂ = .next t₂ ∧ t₂.response = t₁.response) ∧
  (∀ (s t : State) (va : Word) (k : AccessKind) (v : Word),
    exec (.xlate va k) s = .next t → t.response = some ⟨.ok, v⟩ → exec (.xlate va k) t = .next t)

/-- R72, R77, R26 (c): in a disciplined state no two virtual addresses, of one process or of two, reach one
physical Word, and none reaches a reserved frame. -/
def Obligations.TranslationsNeverMeet : Prop :=
  ∀ (s t₁ t₂ : State) (p q : Nat) (va₁ va₂ : Word) (k₁ k₂ : AccessKind) (v₁ v₂ : Word), Disciplined s →
    p < s.procCount → q < s.procCount → (p, va₁) ≠ (q, va₂) →
    exec (.xlate va₁ k₁) { s with ptbr := BitVec.ofNat 16 (ptBase s.cfg p) } = .next t₁ →
    exec (.xlate va₂ k₂) { s with ptbr := BitVec.ofNat 16 (ptBase s.cfg q) } = .next t₂ →
    t₁.response = some ⟨.ok, v₁⟩ → t₂.response = some ⟨.ok, v₂⟩ →
      v₁ ≠ v₂ ∧ s.cfg.reservedFrames * s.cfg.pageWords ≤ v₁.toNat ∧
      s.cfg.reservedFrames * s.cfg.pageWords ≤ v₂.toNat

/-- R38, R77: a VWRITE of the current process changes nothing another process can read or translate, and no
bookkeeping Word. -/
def Obligations.WritesAreInvisibleToOtherProcesses : Prop :=
  ∀ (s t : State) (va d : Word), Disciplined s → Serving s → exec (.vwrite va d) s = .next t →
    t.response = some ⟨.ok, 0⟩ →
      (∀ a, a < s.cfg.reservedFrames * s.cfg.pageWords → t.word a = s.word a) ∧
      ∀ (q : Nat) (va' : Word), q < s.procCount → q ≠ s.curPid.toNat →
        ∀ t₁, exec (.vread va') { s with ptbr := BitVec.ofNat 16 (ptBase s.cfg q) } = .next t₁ →
          ∃ t₂, exec (.vread va') { t with ptbr := BitVec.ofNat 16 (ptBase s.cfg q) } = .next t₂ ∧
            t₂.response = t₁.response

/-! ### Process creation and load -/

/-- R83, R111: with the PCB table full, CREATE logs one event, answers PCB_TABLE_FULL and changes nothing
else. -/
def Obligations.CreateWithFullTableIsLogged : Prop :=
  ∀ (s : State) (code heap : List Word), s.runEnable = true → s.cfg.maxProcs ≤ s.procCount →
    exec (.create code heap) s = .next { s with
      log := s.log ++ [⟨.pcbTableFull, s.word s.cfg.procCountAddr, s.word s.cfg.curPidAddr⟩]
      response := some ⟨.pcbTableFull, 0⟩ }

/-- R85 (b), R81: with a slot left, CREATE succeeds exactly when as many assignable frames are free as it maps pages
(four by default); it never touches the current process. (`fits`: log 24.) -/
def Obligations.CreateSucceedsExactlyWhenFramesSuffice : Prop :=
  ∀ (s : State) (code heap : List Word), s.cfg.fits = true → s.runEnable = true → s.procCount < s.cfg.maxProcs →
    ∃ t, exec (.create code heap) s = .next t ∧
      t = { s with mem := t.mem, response := t.response } ∧ t.curPid = s.curPid ∧
      (createPages s.cfg ≤ freeCount s.cfg s.mem →
        t.response = some ⟨.ok, BitVec.ofNat 16 s.procCount⟩ ∧ t.procCount = s.procCount + 1 ∧
        freeCount s.cfg t.mem + createPages s.cfg = freeCount s.cfg s.mem) ∧
      (freeCount s.cfg s.mem < createPages s.cfg →
        t.response = some ⟨.outOfFrames, 0⟩ ∧ t.procCount = s.procCount ∧
        freeCount s.cfg t.mem = freeCount s.cfg s.mem)

/-- R81, R85 (c), R88: what a successful CREATE builds: the slot, the table (code pages readable, heap pages
readable and writable, on the lowest free frames in order, the rest cleared), the bitmap and the count; every Word
elsewhere outside those frames is unchanged. (`fits`: log 24.) -/
def Obligations.CreateBuildsTheProcess : Prop :=
  ∀ (s : State) (code heap : List Word) (n : Nat) (fs : List Nat), s.cfg.fits = true → s.runEnable = true →
    s.procCount = n → n < s.cfg.maxProcs →
    ((assignableFrames s.cfg).filter (isFree s.cfg s.mem)).take (createPages s.cfg) = fs →
    fs.length = createPages s.cfg →
    ∃ t, exec (.create code heap) s = .next t ∧
      t = { s with mem := t.mem, response := some ⟨.ok, BitVec.ofNat 16 n⟩ } ∧
      t.procCount = n + 1 ∧
      t.word (pcb s.cfg n) = BitVec.ofNat 16 n ∧ t.word (pcb s.cfg n + 1) = BitVec.ofNat 16 s.cfg.initialPc ∧
      t.word (pcb s.cfg n + 2) = BitVec.ofNat 16 (ptBase s.cfg n) ∧
      (∀ j f, fs[j]? = some f →
        EntryIs s.cfg (entry s.cfg t.mem n (createPage s.cfg j)) f true (decide (s.cfg.codePages ≤ j))) ∧
      (∀ v, v < s.cfg.ptEntries → (∀ j, j < createPages s.cfg → v ≠ createPage s.cfg j) →
        entry s.cfg t.mem n v = 0) ∧
      (∀ g, g < 16 * s.cfg.bitmapWords → isFree s.cfg t.mem g = (isFree s.cfg s.mem g && !(fs.contains g))) ∧
      ∀ a, a < s.cfg.memWords → a ≠ s.cfg.procCountAddr →
        (a < s.cfg.bitmapAddr ∨ s.cfg.bitmapAddr + s.cfg.bitmapWords ≤ a) →
        ¬ (pcb s.cfg n ≤ a ∧ a < pcb s.cfg n + 3) →
        ¬ (ptBase s.cfg n ≤ a ∧ a < ptBase s.cfg n + s.cfg.ptEntries) → ¬ a / s.cfg.pageWords ∈ fs →
          t.word a = s.word a

/-- R82, R84: where a successful CREATE puts the image Words: Word `k` of the code image at offset `k` mod `PAGE_WORDS`
of its page's frame, of the heap image likewise; an image is cut to its pages, and a Word of those frames that no image
Word covers keeps its old value. (`fits`: log 24.) -/
def Obligations.CreateLoadsTheImages : Prop :=
  ∀ (s t : State) (code heap : List Word) (fs : List Nat), s.cfg.fits = true →
    ((assignableFrames s.cfg).filter (isFree s.cfg s.mem)).take (createPages s.cfg) = fs →
    exec (.create code heap) s = .next t → (∃ v, t.response = some ⟨.ok, v⟩) →
      (∀ k f a, k < s.cfg.codePages * s.cfg.pageWords → fs[k / s.cfg.pageWords]? = some f →
        a = f * s.cfg.pageWords + k % s.cfg.pageWords → t.word a = code.getD k (s.word a)) ∧
      ∀ k f a, k < s.cfg.heapPages * s.cfg.pageWords → fs[s.cfg.codePages + k / s.cfg.pageWords]? = some f →
        a = f * s.cfg.pageWords + k % s.cfg.pageWords → t.word a = heap.getD k (s.word a)

/-- R83: a CREATE that runs out of frames leaves the bitmap, the count and the marker as they were and no
valid entry in the slot's table; outside the slot, that table and the free frames every Word is unchanged.
(`fits`: log 24.) -/
def Obligations.FailedCreateLeavesNoMapping : Prop :=
  ∀ (s : State) (code heap : List Word) (n : Nat), s.cfg.fits = true → s.runEnable = true → s.procCount = n →
    n < s.cfg.maxProcs → freeCount s.cfg s.mem < createPages s.cfg →
    ∃ t, exec (.create code heap) s = .next t ∧
      t = { s with mem := t.mem, response := some ⟨.outOfFrames, 0⟩ } ∧
      (∀ g, g < 16 * s.cfg.bitmapWords → isFree s.cfg t.mem g = isFree s.cfg s.mem g) ∧
      (∀ v, v < s.cfg.ptEntries → (entry s.cfg t.mem n v).getLsbD 0 = false) ∧
      t.word (pcb s.cfg n) = BitVec.ofNat 16 n ∧ t.word (pcb s.cfg n + 1) = BitVec.ofNat 16 s.cfg.initialPc ∧
      t.word (pcb s.cfg n + 2) = BitVec.ofNat 16 (ptBase s.cfg n) ∧
      ∀ a, a < s.cfg.memWords → ¬ (pcb s.cfg n ≤ a ∧ a < pcb s.cfg n + 3) →
        ¬ (ptBase s.cfg n ≤ a ∧ a < ptBase s.cfg n + s.cfg.ptEntries) →
        ¬ (s.cfg.reservedFrames * s.cfg.pageWords ≤ a ∧ isFree s.cfg s.mem (a / s.cfg.pageWords) = true) →
          t.word a = s.word a

/-- R83 (b), (c): what a CREATE that runs out of frames leaves behind: the entries it had mapped keep frame and
permissions with the valid bit clear, the others are 0; the code image stands in the frames of the code pages if all
were mapped, and no frame is written if they were not; of the heap image nothing is loaded, so the frames of heap pages
that had been mapped keep every Word. (`fits`: log 24.) -/
def Obligations.FailedCreateLeavesStaleWords : Prop :=
  ∀ (s : State) (code heap : List Word) (n : Nat) (free : List Nat), s.cfg.fits = true → s.runEnable = true →
    s.procCount = n → n < s.cfg.maxProcs → (assignableFrames s.cfg).filter (isFree s.cfg s.mem) = free →
    free.length < createPages s.cfg →
    ∃ t, exec (.create code heap) s = .next t ∧ t.response = some ⟨.outOfFrames, 0⟩ ∧
      (∀ j f, free[j]? = some f → (entry s.cfg t.mem n (createPage s.cfg j)).toNat =
        f * 2 ^ (16 - s.cfg.frameBits) + if j < s.cfg.codePages then 2 else 6) ∧
      (∀ v, v < s.cfg.ptEntries → (∀ j, j < free.length → v ≠ createPage s.cfg j) → entry s.cfg t.mem n v = 0) ∧
      (free.length < s.cfg.codePages →
        ∀ a, a < s.cfg.memWords → s.cfg.reservedFrames * s.cfg.pageWords ≤ a → t.word a = s.word a) ∧
      (s.cfg.codePages ≤ free.length → ∀ k f a, k < s.cfg.codePages * s.cfg.pageWords →
        free[k / s.cfg.pageWords]? = some f → a = f * s.cfg.pageWords + k % s.cfg.pageWords →
          t.word a = code.getD k (s.word a)) ∧
      ∀ j f a, s.cfg.codePages ≤ j → free[j]? = some f → a / s.cfg.pageWords = f → t.word a = s.word a

/-- R86, R87: LOAD sets the marker and restores PC and PTBR from the slot, live or not. The history bit it
also sets is R22's (log 6). (`fits`: log 24.) -/
def Obligations.LoadRestoresTheContext : Prop :=
  ∀ (s : State) (pid : Word), s.cfg.fits = true → s.runEnable = true →
    pid.toNat < s.cfg.maxProcs → ∃ t, exec (.load pid) s = .next t ∧
    t = { s with
      mem := t.mem
      pc := s.word (pcb s.cfg pid.toNat + 1)
      ptbr := s.word (pcb s.cfg pid.toNat + 2)
      everLoaded := t.everLoaded
      response := some ⟨.ok, 0⟩ } ∧
    t.curPid = pid ∧ (∀ q, q ∈ t.everLoaded ↔ q = pid.toNat ∨ q ∈ s.everLoaded) ∧
    ∀ a, a < s.cfg.memWords → a ≠ s.cfg.curPidAddr → t.word a = s.word a

/-! ### The traps -/

/-- R91, R90: YIELD saves PC and PTBR in the current slot and loads the next pid that is not terminated,
itself if there is no other. (`fits`: log 24.) -/
def Obligations.YieldSwitchesToTheNextLive : Prop :=
  ∀ (s : State) (i : Instr) (cur p : Nat), s.cfg.fits = true → IsYield i → Serving s → SlotsInRange s →
    s.curPid.toNat = cur → FirstAfter s.cfg s.mem cur p →
    ∃ t, exec i s = .next t ∧
      t = { s with
        mem := t.mem
        pc := if p = cur then s.pc else s.word (pcb s.cfg p + 1)
        ptbr := if p = cur then s.ptbr else s.word (pcb s.cfg p + 2)
        everLoaded := t.everLoaded
        response := some ⟨.ok, BitVec.ofNat 16 p⟩ } ∧
      t.curPid = BitVec.ofNat 16 p ∧ (∀ q, q ∈ t.everLoaded ↔ q = p ∨ q ∈ s.everLoaded) ∧
      t.word (pcb s.cfg cur + 1) = s.pc ∧ t.word (pcb s.cfg cur + 2) = s.ptbr ∧
      ∀ a, a < s.cfg.memWords → a ≠ s.cfg.curPidAddr → a ≠ pcb s.cfg cur + 1 → a ≠ pcb s.cfg cur + 2 →
        t.word a = s.word a

/-- R96: with every created pid terminated, or none created, YIELD writes the two saved Words and changes
nothing else; in a disciplined run the scan always finds a pid. (`fits`: log 24.) -/
def Obligations.YieldWithNoneLiveOnlySaves : Prop :=
  (∀ (s : State) (i : Instr) (cur : Nat), s.cfg.fits = true → IsYield i → Serving s → SlotsInRange s →
    s.curPid.toNat = cur → AllTerminated s.cfg s.mem →
    ∃ t, exec i s = .next t ∧ t = { s with mem := t.mem, response := some ⟨.ok, noProcessWord s.cfg⟩ } ∧
      t.word (pcb s.cfg cur + 1) = s.pc ∧ t.word (pcb s.cfg cur + 2) = s.ptbr ∧
      ∀ a, a < s.cfg.memWords → a ≠ pcb s.cfg cur + 1 → a ≠ pcb s.cfg cur + 2 → t.word a = s.word a) ∧
  (∀ s : State, Disciplined s → Serving s → ∃ p, FirstAfter s.cfg s.mem s.curPid.toNat p)

/-- R95 (c): with pids 0 and 1 live, a YIELD from 0 gives 1, and after 1 has run and yields, 0 is current again
with the PC it saved, its table and its frames as they were. (`fits`: log 24.) -/
def Obligations.TwoProcessesYieldThereAndBack : Prop :=
  ∀ s : State, s.cfg.fits = true → Disciplined s → Serving s → s.procCount = 2 → live s.cfg s.mem 0 = true →
    live s.cfg s.mem 1 = true → s.curPid = 0#16 →
    ∃ t₁, exec .yield s = .next t₁ ∧ t₁.curPid = 1#16 ∧ t₁.pc = s.word (pcb s.cfg 1 + 1) ∧
      t₁.ptbr.toNat = ptBase s.cfg 1 ∧
      ∀ pc', ∃ t₂, exec .yield { t₁ with pc := pc' } = .next t₂ ∧ t₂.curPid = 0#16 ∧
        t₂.pc = s.pc ∧ t₂.ptbr = s.ptbr ∧ t₂.word (pcb s.cfg 1 + 1) = pc' ∧
        ∀ a, a < s.cfg.memWords → s.cfg.ptRegionBase ≤ a → t₂.word a = s.word a

/-- R95 (b): in a disciplined run a live process becomes current within as many YIELDs as pids have been
created, every one of which completes. (`fits`: log 24.) -/
def Obligations.LiveProcessRunsWithinOneCycle : Prop :=
  ∀ (s : State) (q : Nat), s.cfg.fits = true → Disciplined s → Serving s → live s.cfg s.mem q = true →
    ∃ k t, k ≤ s.procCount ∧ yieldTimes k s = some t ∧ t.curPid.toNat = q

/-- R92: HALT with another live process: every valid page of the table at PTBR is unmapped and its frame freed,
the slot is marked terminated, and the next pid that is not terminated is loaded; PC and PTBR are not saved.
(`fits`: log 24; that a frame field at or above `NUM_FRAMES` frees nothing and writes no Word: log 26.) -/
def Obligations.HaltSwitchesToTheNextLive : Prop :=
  ∀ (s : State) (i : Instr) (cur p : Nat), s.cfg.fits = true → IsHalt i → Serving s → SlotsInRange s → PtbrIsTable s →
    s.curPid.toNat = cur → FirstAfter s.cfg (s.mem.write s.cfg (pcb s.cfg cur) (terminatedWord s.cfg)) cur p →
    ∃ t, exec i s = .next t ∧
      t = { s with
        mem := t.mem
        pc := s.word (pcb s.cfg p + 1)
        ptbr := s.word (pcb s.cfg p + 2)
        everLoaded := t.everLoaded
        response := some ⟨.ok, BitVec.ofNat 16 p⟩ } ∧
      t.curPid = BitVec.ofNat 16 p ∧ (∀ q, q ∈ t.everLoaded ↔ q = p ∨ q ∈ s.everLoaded) ∧
      t.word (pcb s.cfg cur) = terminatedWord s.cfg ∧
      (∀ v, v < s.cfg.ptEntries → t.word (s.ptbr.toNat + v) =
        if (s.word (s.ptbr.toNat + v)).getLsbD 0 = true then s.word (s.ptbr.toNat + v) &&& 0xFFFE#16
        else s.word (s.ptbr.toNat + v)) ∧
      (∀ g, g < 16 * s.cfg.bitmapWords → (isFree s.cfg t.mem g = true ↔ isFree s.cfg s.mem g = true ∨
        ∃ v, v < s.cfg.ptEntries ∧ (s.word (s.ptbr.toNat + v)).getLsbD 0 = true ∧
          pteFrame s.cfg (s.word (s.ptbr.toNat + v)) = g ∧ g < s.cfg.numFrames)) ∧
      ∀ a, a < s.cfg.memWords → a ≠ s.cfg.curPidAddr →
        (a < s.cfg.bitmapAddr ∨ s.cfg.bitmapAddr + s.cfg.bitmapWords ≤ a) → a ≠ pcb s.cfg cur →
        ¬ (s.ptbr.toNat ≤ a ∧ a < s.ptbr.toNat + s.cfg.ptEntries) →
        t.word a = s.word a

/-- R92, R97: HALT of the only live process clears the running flag and keeps the marker, PC and PTBR; its
pages are unmapped and its slot marked all the same. (`fits`: log 24; that a frame field at or above `NUM_FRAMES` frees
nothing and writes no Word: log 26.) -/
def Obligations.LastHaltStopsTheRun : Prop :=
  ∀ (s : State) (i : Instr) (cur : Nat), s.cfg.fits = true → IsHalt i → Serving s → SlotsInRange s → PtbrIsTable s →
    s.curPid.toNat = cur → AllTerminated s.cfg (s.mem.write s.cfg (pcb s.cfg cur) (terminatedWord s.cfg)) →
    ∃ t, exec i s = .next t ∧
      t = { s with mem := t.mem, running := false, response := some ⟨.ok, noProcessWord s.cfg⟩ } ∧
      t.word (pcb s.cfg cur) = terminatedWord s.cfg ∧
      (∀ v, v < s.cfg.ptEntries → (t.word (s.ptbr.toNat + v)).getLsbD 0 = false) ∧
      (∀ g, g < 16 * s.cfg.bitmapWords → (isFree s.cfg t.mem g = true ↔ isFree s.cfg s.mem g = true ∨
        ∃ v, v < s.cfg.ptEntries ∧ (s.word (s.ptbr.toNat + v)).getLsbD 0 = true ∧
          pteFrame s.cfg (s.word (s.ptbr.toNat + v)) = g ∧ g < s.cfg.numFrames)) ∧
      ∀ a, a < s.cfg.memWords → (a < s.cfg.bitmapAddr ∨ s.cfg.bitmapAddr + s.cfg.bitmapWords ≤ a) →
        a ≠ pcb s.cfg cur → ¬ (s.ptbr.toNat ≤ a ∧ a < s.ptbr.toNat + s.cfg.ptEntries) →
        t.word a = s.word a

/-- R97: in a disciplined state a HALT ends exactly one process, returns exactly the pages it had mapped,
leaves every other table as it was, and stops the run exactly when it was the last. (`fits`: log 24.) -/
def Obligations.HaltReturnsEveryPage : Prop :=
  ∀ s : State, s.cfg.fits = true → Disciplined s → Serving s → ∃ t, exec .halt s = .next t ∧
    notTerminated s.cfg t.mem s.curPid.toNat = false ∧ liveCount s.cfg t.mem + 1 = liveCount s.cfg s.mem ∧
    freeCount s.cfg t.mem = freeCount s.cfg s.mem + pageCount s.cfg s.mem s.curPid.toNat ∧
    pageCount s.cfg t.mem s.curPid.toNat = 0 ∧ (t.running = false ↔ liveCount s.cfg s.mem = 1) ∧
    ∀ q, q < s.procCount → q ≠ s.curPid.toNat → ∀ v, v < s.cfg.ptEntries → entry s.cfg t.mem q v = entry s.cfg s.mem q v

/-- R93, R98: a grow maps an unmapped page to the lowest free frame with the permissions asked for and logs
nothing; of a mapped page, or with no frame free, it logs one event and changes nothing else. The answer is
always `(OK, 0)` and the process goes on. PTBR need not be the base of a table (R87, R126 (b)): the Word at `PTBR + vpn`
is taken for the entry whatever it is, and where it is itself a Word of the bitmap it ends as the entry written last.
Past the last Word: log 7. -/
def Obligations.GrowMapsOrLogs : Prop :=
  ∀ (s : State) (i : Instr) (vpn : Nat) (r w : Bool), IsGrow i vpn r w → vpn < s.cfg.ptEntries → Serving s →
      ((s.word (s.ptbr.toNat + vpn)).getLsbD 0 = true →
        exec i s = .next { s with
          log := s.log ++ [⟨.growAlreadyMapped, BitVec.ofNat 16 vpn, s.curPid⟩]
          response := some ⟨.ok, 0⟩ }) ∧
      ((s.word (s.ptbr.toNat + vpn)).getLsbD 0 = false → NoneFree s.cfg s.mem →
        exec i s = .next { s with
          log := s.log ++ [⟨.growNoFrame, BitVec.ofNat 16 vpn, s.curPid⟩]
          response := some ⟨.ok, 0⟩ }) ∧
      ((s.word (s.ptbr.toNat + vpn)).getLsbD 0 = false → ∀ f, LowestFree s.cfg s.mem f →
        ∃ t, exec i s = .next t ∧ t = { s with mem := t.mem, response := some ⟨.ok, 0⟩ } ∧
          (s.ptbr.toNat + vpn < s.cfg.memWords → EntryIs s.cfg (t.word (s.ptbr.toNat + vpn)) f r w) ∧
          (∀ g, g < 16 * s.cfg.bitmapWords → PtbrIsTable s ∨ bmWord s.cfg g ≠ s.ptbr.toNat + vpn →
            isFree s.cfg t.mem g = (isFree s.cfg s.mem g && decide (g ≠ f))) ∧
          ∀ a, a < s.cfg.memWords → a ≠ s.ptbr.toNat + vpn → a ≠ bmWord s.cfg f → t.word a = s.word a)

/-- R93: a shrink of a mapped page frees its frame and clears its valid bit; of an unmapped page it logs one
event and changes nothing else. Of a page whose entry has a frame field at or above `NUM_FRAMES`, which has no bitmap
bit (R18, R61), no frame is freed and no Word but the entry changes: that clause is the model's reading (log 26). PTBR
need not be the base of a table (R87, R126 (b)): the Word at `PTBR + vpn` is taken for the entry whatever it is, and
ends as it was read with bit 0 clear. Past the last Word: log 7. -/
def Obligations.ShrinkUnmapsOrLogs : Prop :=
  ∀ (s : State) (i : Instr) (vpn : Nat), IsShrink i vpn → vpn < s.cfg.ptEntries → Serving s →
    ((s.word (s.ptbr.toNat + vpn)).getLsbD 0 = false →
      exec i s = .next { s with
        log := s.log ++ [⟨.shrinkNotMapped, BitVec.ofNat 16 vpn, s.curPid⟩]
        response := some ⟨.ok, 0⟩ }) ∧
    ((s.word (s.ptbr.toNat + vpn)).getLsbD 0 = true →
      ∃ t, exec i s = .next t ∧ t = { s with mem := t.mem, response := some ⟨.ok, 0⟩ } ∧
        (s.ptbr.toNat + vpn < s.cfg.memWords →
          t.word (s.ptbr.toNat + vpn) = s.word (s.ptbr.toNat + vpn) &&& 0xFFFE#16) ∧
        (∀ g, g < 16 * s.cfg.bitmapWords → PtbrIsTable s ∨ bmWord s.cfg g ≠ s.ptbr.toNat + vpn →
          isFree s.cfg t.mem g = (isFree s.cfg s.mem g ||
            decide (g = pteFrame s.cfg (s.word (s.ptbr.toNat + vpn)) ∧ g < s.cfg.numFrames))) ∧
        ∀ a, a < s.cfg.memWords → a ≠ s.ptbr.toNat + vpn →
          (pteFrame s.cfg (s.word (s.ptbr.toNat + vpn)) < s.cfg.numFrames →
            a ≠ bmWord s.cfg (pteFrame s.cfg (s.word (s.ptbr.toNat + vpn)))) → t.word a = s.word a)

/-- R98: a grow of an unmapped page with a frame free, then a shrink of it, restores every bit of the bitmap,
leaves the entry invalid and logs nothing. -/
def Obligations.GrowThenShrinkRestoresTheBitmap : Prop :=
  ∀ (s : State) (vpn : Nat) (r w : Bool), vpn < s.cfg.ptEntries → Serving s → PtbrIsTable s →
    (s.word (s.ptbr.toNat + vpn)).getLsbD 0 = false → 0 < freeCount s.cfg s.mem →
    ∃ t₁ t₂, exec (.grow vpn r w) s = .next t₁ ∧ exec (.shrink vpn) t₁ = .next t₂ ∧
      t₂.log = s.log ∧ (∀ g, g < 16 * s.cfg.bitmapWords → isFree s.cfg t₂.mem g = isFree s.cfg s.mem g) ∧
      (t₂.word (s.ptbr.toNat + vpn)).getLsbD 0 = false ∧
      ∀ a, a < s.cfg.memWords → a ≠ s.ptbr.toNat + vpn → t₂.word a = s.word a

/-! ### Rules about the whole machine -/

/-- R57, R12 to R15, R110: which operations may change each register. PC, PTBR and the history bit: LOAD,
YIELD, HALT. The running flag: HALT, and only to 0. The latch: XLATE, VREAD, VWRITE. The log only grows, by at
most one event. The input list is the agent's. -/
def Obligations.OnlyStatedOperationsChangeRegisters : Prop :=
  ∀ (i : Instr) (s t : State), exec i s = .next t →
    (¬ IsYield i → ¬ IsHalt i → (∀ p, i ≠ .load p) →
      t.pc = s.pc ∧ t.ptbr = s.ptbr ∧ t.everLoaded = s.everLoaded) ∧
    (t.running = s.running ∨ IsHalt i ∧ t.running = false) ∧
    ((∀ va k, ¬ Accesses i va k) → t.fault = s.fault) ∧
    (∃ l, t.log = s.log ++ l ∧ l.length ≤ 1) ∧
    t.input = s.input ∧ t.params = s.params ∧ ∃ r, t.response = some r

/-- R84, R57: no operation but VWRITE and CREATE writes a Word of an assignable frame: frames are never
cleared. (`fits`: log 24; that freeing a frame number at or above `NUM_FRAMES` writes no Word: log 26.) -/
def Obligations.OnlyCreateAndVwriteWriteFrames : Prop :=
  ∀ (i : Instr) (s t : State), s.cfg.fits = true → i.wellFormed s.cfg = true → exec i s = .next t →
    (∀ code heap, i ≠ .create code heap) → (∀ va d, i ≠ .vwrite va d) →
    (PtbrIsTable s ∧ s.curPid.toNat < s.cfg.maxProcs) ∨ s.curPid = noProcessWord s.cfg →
      ∀ a, a < s.cfg.memWords → s.cfg.reservedFrames * s.cfg.pageWords ≤ a → t.word a = s.word a

/-- R115, R53 (a), (b): once the run has stopped or aborted, every step but a reset completes and changes nothing of
the block: only the response, and the list of what is issued. That SETPC is then no exception is log 8. -/
def Obligations.EndedRunIsFrozen : Prop :=
  ∀ s : State, s.runEnable = false → (∀ rest, s.input ≠ .reset :: rest) →
    ∃ t, step s = .next t ∧ t = { s with response := t.response, input := s.input.tail }

/-- Every step keeps the form that makes equal states equal data (R11; the representation is the model's,
log 18 for memory and log 6 for the loaded pids). -/
def Obligations.StepKeepsTheCanonicalForm : Prop :=
  ∀ s t : State, Canonical s → step s = .next t → Canonical t

/-- Reset has the canonical form (logs 18 and 6). -/
def Obligations.ResetIsCanonical : Prop := ∀ p : Params, Canonical (State.resetAt p)

/-- R104, R110, R115: the latch and the log never disagree: in every state a step can reach from one where they
agree, there is a fault event in the log exactly when the latch is set, it is the last event, and it names the
latched address and the current pid. -/
def Obligations.StepKeepsLatchAndLogTogether : Prop :=
  ∀ s t : State, LatchMatchesLog s → step s = .next t → LatchMatchesLog t

/-- The latch and the log agree at reset (R27). -/
def Obligations.ResetLatchMatchesLog : Prop := ∀ p : Params, LatchMatchesLog (State.resetAt p)

/-- R26: every step on a disciplined input keeps the invariants, from any state that has them. The clause on the
tables of uncreated slots is what the system-wide (c) needs. Which inputs are
disciplined is read from R26 and R126 (log 23). (`fits`: log 24.) -/
def Obligations.DisciplinedStepKeepsTheInvariants : Prop :=
  ∀ s t : State, s.cfg.fits = true → Disciplined s → nextDisciplined s = true → step s = .next t → Disciplined t

/-- R26: the invariants hold at reset. -/
def Obligations.ResetIsDisciplined : Prop := ∀ p : Params, Disciplined (State.resetAt p)

/-- R26: in every state of a disciplined run the invariants hold, and (i) a VWRITE there changes no Word of a
reserved frame. Which inputs a disciplined run may have is read from R26 and R126 (log 23). (`fits`: log 24.) -/
def Obligations.DisciplinedRunsKeepTheInvariants : Prop :=
  ∀ s : State, s.cfg.fits = true → DisciplinedRun s → Disciplined s ∧
    ∀ (va d : Word) (t : State), exec (.vwrite va d) s = .next t →
      ∀ a, a < s.cfg.reservedFrames * s.cfg.pageWords → t.word a = s.word a

/-- R45, R125 (and U2, U3, U12 of 93_implementation_defined.md): every operation completes in every state, disciplined
or not, with a response and with the inputs left alone; every step completes; and a step on a command, whatever its
words, leaves a response. -/
def Obligations.EveryStepAnswers : Prop :=
  (∀ (i : Instr) (s : State), ∃ t r, exec i s = .next t ∧ t.response = some r ∧ t.input = s.input) ∧
  (∀ s : State, ∃ t, step s = .next t) ∧
  ∀ (s : State) (c : Command) (rest : List Input), s.input = .issue (.command c) :: rest →
    ∃ t r, step s = .next t ∧ t.response = some r ∧ t.input = rest

/-- R22, R92: in a disciplined run a terminated pid stays terminated and the number of created pids never
falls, until reset. (`fits`: log 24.) -/
def Obligations.TerminatedIsForEver : Prop :=
  ∀ s t : State, s.cfg.fits = true → Disciplined s → nextDisciplined s = true → (∀ rest, s.input ≠ .reset :: rest) →
    step s = .next t →
      s.procCount ≤ t.procCount ∧
      ∀ p, p < s.procCount → notTerminated s.cfg s.mem p = false → notTerminated s.cfg t.mem p = false

/-- R22: the process state machine. A successful CREATE makes its pid Created; LOAD of a live pid makes it Running
and the pid that was Running Ready; YIELD likewise; HALT makes the current pid Terminated and the one it loads
Running; no other pid changes state. The bit that tells Created and Ready apart is the history bit of log 6, and the
hypotheses say that it is right before the command. (`fits`: log 24.) -/
def Obligations.ProcessStatesFollowTheMachine : Prop :=
  (∀ (s t : State) (code heap : List Word) (v : Word), s.cfg.fits = true → exec (.create code heap) s = .next t →
    t.response = some ⟨.ok, v⟩ → s.curPid.toNat ≠ v.toNat → v.toNat ∉ s.everLoaded →
      procState s v.toNat = .nonexistent ∧ procState t v.toNat = .created ∧
      ∀ p, p ≠ v.toNat → procState t p = procState s p) ∧
  (∀ (s t : State) (pid : Word), s.cfg.fits = true → exec (.load pid) s = .next t → t.response = some ⟨.ok, 0⟩ →
    live s.cfg s.mem pid.toNat = true → s.procCount ≤ s.cfg.maxProcs →
    s.curPid = noProcessWord s.cfg ∨ s.curPid.toNat ∈ s.everLoaded →
      procState t pid.toNat = .running ∧
      ∀ p, p ≠ pid.toNat →
        procState t p = if procState s p = .running then .ready else procState s p) ∧
  (∀ (s t : State) (i : Instr) (c : Word), s.cfg.fits = true → IsYield i → Disciplined s → Serving s →
    s.curPid.toNat ∈ s.everLoaded → exec i s = .next t → t.response = some ⟨.ok, c⟩ →
      procState t c.toNat = .running ∧ (s.curPid ≠ c → procState t s.curPid.toNat = .ready) ∧
      ∀ p, p ≠ c.toNat → p ≠ s.curPid.toNat → procState t p = procState s p) ∧
  ∀ (s t : State) (i : Instr) (c : Word), s.cfg.fits = true → IsHalt i → Disciplined s → Serving s →
    exec i s = .next t →
    t.response = some ⟨.ok, c⟩ →
      procState t s.curPid.toNat = .terminated ∧ (c ≠ noProcessWord s.cfg → procState t c.toNat = .running) ∧
      ∀ p, p ≠ c.toNat → p ≠ s.curPid.toNat → procState t p = procState s p

/-- R91, R90, R126 (b): YIELD is executed literally in every state that has a current pid, live or not, with a slot or
without: the two saved Words are written, then the first pid after the current one that is not terminated is loaded, or
nothing else changes. Addresses past the last Word are read and written as log 7 says; the history bit is log 6. -/
def Obligations.YieldIsLiteralInEveryState : Prop :=
  ∀ (s : State) (i : Instr) (cur : Nat) (m : Memory), IsYield i → Serving s → s.curPid.toNat = cur →
    m = (s.mem.write s.cfg (pcb s.cfg cur + 1) s.pc).write s.cfg (pcb s.cfg cur + 2) s.ptbr →
      (∀ p, FirstAfter s.cfg m cur p → ∃ t, exec i s = .next t ∧
        t = { s with
          mem := m.write s.cfg s.cfg.curPidAddr (BitVec.ofNat 16 p)
          pc := (m.write s.cfg s.cfg.curPidAddr (BitVec.ofNat 16 p)).read s.cfg (pcb s.cfg p + 1)
          ptbr := (m.write s.cfg s.cfg.curPidAddr (BitVec.ofNat 16 p)).read s.cfg (pcb s.cfg p + 2)
          everLoaded := t.everLoaded
          response := some ⟨.ok, BitVec.ofNat 16 p⟩ } ∧
        ∀ q, q ∈ t.everLoaded ↔ q = p ∨ q ∈ s.everLoaded) ∧
      (AllTerminated s.cfg m → exec i s = .next { s with mem := m, response := some ⟨.ok, noProcessWord s.cfg⟩ })

/-- R92, R90, R126 (b): HALT is executed literally in every state that has a current pid: the table at PTBR is
unmapped, the current slot marked terminated, and the first pid after it that is not terminated is loaded, or the run
stops. Addresses past the last Word are read and written as log 7 says; what unmapping an entry whose frame field is at
or above `NUM_FRAMES` does is log 26; the history bit is log 6. -/
def Obligations.HaltIsLiteralInEveryState : Prop :=
  ∀ (s : State) (i : Instr) (cur : Nat) (m : Memory), IsHalt i → Serving s → s.curPid.toNat = cur →
    m = (unmapAll s.cfg s.mem s.ptbr.toNat).write s.cfg (pcb s.cfg cur) (terminatedWord s.cfg) →
      (∀ p, FirstAfter s.cfg m cur p → ∃ t, exec i s = .next t ∧
        t = { s with
          mem := m.write s.cfg s.cfg.curPidAddr (BitVec.ofNat 16 p)
          pc := (m.write s.cfg s.cfg.curPidAddr (BitVec.ofNat 16 p)).read s.cfg (pcb s.cfg p + 1)
          ptbr := (m.write s.cfg s.cfg.curPidAddr (BitVec.ofNat 16 p)).read s.cfg (pcb s.cfg p + 2)
          everLoaded := t.everLoaded
          response := some ⟨.ok, BitVec.ofNat 16 p⟩ } ∧
        ∀ q, q ∈ t.everLoaded ↔ q = p ∨ q ∈ s.everLoaded) ∧
      (AllTerminated s.cfg m →
        exec i s = .next { s with mem := m, running := false, response := some ⟨.ok, noProcessWord s.cfg⟩ })

/-- What happens past the last Word, which only a corrupted PTBR, marker or process count can lead to (the choice of
log 7; R11 gives no such Word and U2 wants every rule total): a read gives the free value, a write changes no Word, and
an access or a BRK whose entry lies there completes on that value. What a shrink frees when that value's frame field is
at or above `NUM_FRAMES` is log 26. -/
def Obligations.AddressPastMemoryCompletes : Prop :=
  (∀ (c : Config) (m : Memory) (a : Nat), c.memWords ≤ a →
    m.read c a = Config.absentWord c m a ∧ ∀ w, m.write c a w = m) ∧
  ∀ s : State, Serving s →
    (∀ (i : Instr) (va : Word) (k : AccessKind), Accesses i va k → s.cfg.memWords ≤ entryAddr s va →
      entryFor s va = Config.absentWord s.cfg s.mem (entryAddr s va) ∧ ∃ t, exec i s = .next t) ∧
    (∀ (i : Instr) (vpn : Nat) (r w : Bool) (e : Word), IsGrow i vpn r w → s.cfg.memWords ≤ s.ptbr.toNat + vpn →
      e = Config.absentWord s.cfg s.mem (s.ptbr.toNat + vpn) →
        (NoneFree s.cfg s.mem → exec i s = .next { s with
          log := s.log ++ [⟨if e.getLsbD 0 then .growAlreadyMapped else .growNoFrame, BitVec.ofNat 16 vpn, s.curPid⟩]
          response := some ⟨.ok, 0⟩ }) ∧
        ∀ f, LowestFree s.cfg s.mem f → exec i s = .next (
          if e.getLsbD 0 then { s with
            log := s.log ++ [⟨.growAlreadyMapped, BitVec.ofNat 16 vpn, s.curPid⟩]
            response := some ⟨.ok, 0⟩ }
          else { s with mem := markUsed s.cfg s.mem f, response := some ⟨.ok, 0⟩ })) ∧
    ∀ (i : Instr) (vpn : Nat) (e : Word), IsShrink i vpn → s.cfg.memWords ≤ s.ptbr.toNat + vpn →
      e = Config.absentWord s.cfg s.mem (s.ptbr.toNat + vpn) → exec i s = .next (
        if e.getLsbD 0 then { s with mem := markFree s.cfg s.mem (pteFrame s.cfg e), response := some ⟨.ok, 0⟩ }
        else { s with
          log := s.log ++ [⟨.shrinkNotMapped, BitVec.ofNat 16 vpn, s.curPid⟩]
          response := some ⟨.ok, 0⟩ })
end

