-- ==== Sys2Proof/Laws/Config.lean ====
section
/-! SUPPORT. What a well-formed configuration (00_scope.md R7) gives: bounds and disjointness of the addresses of the
bookkeeping, the sizes of the fields, and the operand forms as arithmetic. -/

namespace Sys2Proof

/-- R7, spelled out: (a), (b), (c). -/
theorem wf_sizes {c : Config} (h : c.wellFormed = true) :
    c.wordBits = 16 ∧ c.offsetBits + c.vpnBits = 16 ∧ c.pageWords = 2 ^ c.offsetBits ∧ c.ptEntries = 2 ^ c.vpnBits ∧
    c.numFrames ≤ 2 ^ c.frameBits ∧ c.frameBits ≤ 13 ∧ c.memWords = c.numFrames * c.pageWords ∧ c.memWords ≤ 65536 := by
  simp only [Config.wellFormed, Config.wfWord, Config.wfSplit, Config.wfFrames, Bool.and_eq_true, beq_iff_eq,
    decide_eq_true_eq] at h
  obtain ⟨⟨⟨⟨⟨⟨⟨⟨hw, ⟨hs, hp⟩, ht⟩, ⟨⟨hn, hf⟩, hm⟩, hb⟩, -⟩, -⟩, -⟩, -⟩, -⟩, -⟩ := h
  rw [hw] at hs hf hb
  exact ⟨hw, hs, hp, ht, hn, by omega, hm, hb⟩

/-- R7, spelled out: (d), (e). -/
theorem wf_layout {c : Config} (h : c.wellFormed = true) :
    (0 < c.reservedFrames ∧ c.reservedFrames < c.numFrames) ∧ c.curPidAddr ≠ c.procCountAddr ∧
    (c.curPidAddr + 1 ≤ c.bitmapAddr ∨ c.bitmapAddr + c.bitmapWords ≤ c.curPidAddr) ∧
    (c.curPidAddr + 1 ≤ c.pcbBase ∨ c.pcbBase + c.pcbWords * c.maxProcs ≤ c.curPidAddr) ∧
    (c.procCountAddr + 1 ≤ c.bitmapAddr ∨ c.bitmapAddr + c.bitmapWords ≤ c.procCountAddr) ∧
    (c.procCountAddr + 1 ≤ c.pcbBase ∨ c.pcbBase + c.pcbWords * c.maxProcs ≤ c.procCountAddr) ∧
    (c.bitmapAddr + c.bitmapWords ≤ c.pcbBase ∨ c.pcbBase + c.pcbWords * c.maxProcs ≤ c.bitmapAddr) ∧
    c.curPidAddr < c.ptRegionBase ∧ c.procCountAddr < c.ptRegionBase ∧
    c.bitmapAddr + c.bitmapWords ≤ c.ptRegionBase ∧ c.pcbBase + c.pcbWords * c.maxProcs ≤ c.ptRegionBase ∧
    c.ptRegionBase + c.maxProcs * c.ptEntries ≤ c.reservedFrames * c.pageWords := by
  simp only [Config.wellFormed, Config.wfReserved, Config.wfLayout, Config.disjoint, Bool.and_eq_true, Bool.or_eq_true,
    bne_iff_ne, decide_eq_true_eq] at h
  tauto

/-- R7, spelled out: (f), (g), (h), (i). -/
theorem wf_rest {c : Config} (h : c.wellFormed = true) :
    c.numFrames ≤ c.bitmapWords * 16 ∧ c.reservedVpnBoundary ≤ c.codeBaseVpn ∧
    c.codeBaseVpn + c.codePages ≤ c.heapBaseVpn ∧ c.heapBaseVpn + c.heapPages ≤ c.ptEntries ∧ 1 ≤ c.codePages ∧
    1 ≤ c.maxProcs ∧ c.maxProcs ≤ c.terminated ∧ c.maxProcs ≤ c.noProcess ∧
    c.initialPc = c.codeBaseVpn * c.pageWords := by
  have hw := (wf_sizes h).1
  simp only [Config.wellFormed, Config.wfBitmap, Config.wfVirtual, Config.wfPids, Config.wfStart, Bool.and_eq_true,
    beq_iff_eq, decide_eq_true_eq, hw] at h
  tauto

/-- What `Config.fits` adds (log 24), spelled out. -/
theorem fits_iff {c : Config} (hw : c.wordBits = 16) : c.fits = true ↔
    3 ≤ c.pcbWords ∧ 3 ≤ c.offsetBits ∧ c.terminated < 65536 ∧ c.noProcess < 65536 ∧ c.trapHalt < 256 ∧
    c.trapYield < 256 ∧ c.trapBrk < 256 ∧ c.trapHalt ≠ c.trapYield ∧ c.trapHalt ≠ c.trapBrk ∧
    c.trapYield ≠ c.trapBrk := by
  simp only [Config.fits, hw, Bool.and_eq_true, bne_iff_ne, decide_eq_true_eq, and_assoc]
  exact Iff.rfl

/-- R7: the default configuration is well-formed. -/
theorem defaultConfig_wellFormed : defaultConfig.wellFormed = true := by decide

theorem defaultConfig_fits : defaultConfig.fits = true := by decide

namespace Machine

section sizes
variable {c : Config} (h : c.wellFormed = true)
include h

theorem wordBits_eq : c.wordBits = 16 := (wf_sizes h).1

theorem pageWords_pos : 0 < c.pageWords := by
  rw [(wf_sizes h).2.2.1]; exact Nat.two_pow_pos _

theorem ptEntries_pos : 0 < c.ptEntries := by
  rw [(wf_sizes h).2.2.2.1]; exact Nat.two_pow_pos _

/-- R34: the two fields of a virtual address fill it. -/
theorem page_split : c.pageWords * c.ptEntries = 65536 := by
  obtain ⟨-, hs, hp, ht, -⟩ := wf_sizes h
  rw [hp, ht, ← Nat.pow_add, hs]

theorem memWords_le : c.memWords ≤ 65536 := (wf_sizes h).2.2.2.2.2.2.2

theorem memWords_eq : c.memWords = c.numFrames * c.pageWords := (wf_sizes h).2.2.2.2.2.2.1

/-- R11: the reserved frames are a part of memory. -/
theorem reservedWords_lt : c.reservedFrames * c.pageWords < c.memWords := by
  rw [memWords_eq h]
  exact Nat.mul_lt_mul_of_pos_right (wf_layout h).1.2 (pageWords_pos h)

/-- R7 (c): a frame number fits its field, and a Word. -/
theorem frame_lt_field {f : Nat} (hf : f < c.numFrames) : f < 2 ^ c.frameBits :=
  Nat.lt_of_lt_of_le hf (wf_sizes h).2.2.2.2.1

theorem numFrames_le : c.numFrames ≤ 8192 := by
  obtain ⟨-, -, -, -, hn, hb, -⟩ := wf_sizes h
  calc c.numFrames ≤ 2 ^ c.frameBits := hn
    _ ≤ 2 ^ 13 := Nat.pow_le_pow_right (by omega) hb

theorem toNat_frame {f : Nat} (hf : f < c.numFrames) : (BitVec.ofNat 16 f).toNat = f := by
  have := numFrames_le h
  rw [BitVec.toNat_ofNat]; omega

theorem vpnOf_lt (va : Word) : vpnOf c va < c.ptEntries := by
  unfold vpnOf
  rw [Nat.div_lt_iff_lt_mul (pageWords_pos h), Nat.mul_comm, page_split h]
  exact va.isLt

theorem offsetOf_lt (va : Word) : offsetOf c va < c.pageWords := Nat.mod_lt _ (pageWords_pos h)

/-- R35: an address in a frame is below `MEM_WORDS`. -/
theorem physAddr_lt {f o : Nat} (hf : f < c.numFrames) (ho : o < c.pageWords) : physAddr c f o < c.memWords := by
  rw [memWords_eq h]
  calc f * c.pageWords + o < (f + 1) * c.pageWords := by rw [Nat.add_mul]; omega
    _ ≤ c.numFrames * c.pageWords := Nat.mul_le_mul_right _ hf

omit h in
/-- R11: an address in an assignable frame lies past the reserved ones. -/
theorem physAddr_ge {f : Nat} (hf : c.reservedFrames ≤ f) (o : Nat) : c.reservedFrames * c.pageWords ≤ physAddr c f o :=
  Nat.le_trans (Nat.mul_le_mul_right _ hf) (Nat.le_add_right _ _)

/-- R35: frame and offset can be read back from a physical address. -/
theorem physAddr_inj {f g o q : Nat} (ho : o < c.pageWords) (hq : q < c.pageWords)
    (he : physAddr c f o = physAddr c g q) : f = g ∧ o = q := by
  have hd : ∀ f o, o < c.pageWords → (physAddr c f o) / c.pageWords = f := fun f o ho => by
    unfold physAddr
    rw [Nat.mul_comm, Nat.mul_add_div (pageWords_pos h), Nat.div_eq_of_lt ho, Nat.add_zero]
  have hf : f = g := by rw [← hd f o ho, he, hd g q hq]
  subst hf
  exact ⟨rfl, Nat.add_left_cancel he⟩

/-- R70, R50: an address in a frame answers as it is. -/
theorem addressWord_eq {pa : Nat} (hpa : pa < c.memWords) : addressWord c pa = BitVec.ofNat 16 pa := by
  have := memWords_le h
  unfold addressWord
  rw [wordBits_eq h, if_pos (by omega)]

end sizes

/-! ### Where the bookkeeping stands (R7 (e)) -/

section layout
variable {c : Config} (h : c.wellFormed = true)
include h

theorem curPidAddr_lt : c.curPidAddr < c.memWords := by
  have := reservedWords_lt h; have := wf_layout h; omega

theorem procCountAddr_lt : c.procCountAddr < c.memWords := by
  have := reservedWords_lt h; have := wf_layout h; omega

/-- R17, R20: an entry of a table stands in the page-table region. -/
theorem ptBase_add_lt {p v : Nat} (hp : p < c.maxProcs) (hv : v < c.ptEntries) :
    c.ptRegionBase ≤ ptBase c p + v ∧ ptBase c p + v < c.reservedFrames * c.pageWords := by
  have hl := wf_layout h
  have : c.ptEntries * p + v < c.maxProcs * c.ptEntries := by
    calc c.ptEntries * p + v < c.ptEntries * (p + 1) := by rw [Nat.mul_add]; omega
      _ ≤ c.ptEntries * c.maxProcs := Nat.mul_le_mul_left _ hp
      _ = c.maxProcs * c.ptEntries := Nat.mul_comm _ _
  unfold ptBase
  omega

theorem ptBase_add_lt_memWords {p v : Nat} (hp : p < c.maxProcs) (hv : v < c.ptEntries) :
    ptBase c p + v < c.memWords := by
  have := ptBase_add_lt h hp hv; have := reservedWords_lt h; omega

/-- R20: entries of two tables, or two entries of one, stand at two addresses. -/
theorem ptBase_add_inj {p q v w : Nat} (hv : v < c.ptEntries) (hw : w < c.ptEntries)
    (he : ptBase c p + v = ptBase c q + w) : p = q ∧ v = w := by
  have hd : ∀ p v, v < c.ptEntries → (c.ptEntries * p + v) / c.ptEntries = p := fun p v hv => by
    rw [Nat.mul_add_div (ptEntries_pos h), Nat.div_eq_of_lt hv, Nat.add_zero]
  have he' : c.ptEntries * p + v = c.ptEntries * q + w := by unfold ptBase at he; omega
  have hp : p = q := by rw [← hd p v hv, he', hd q w hw]
  subst hp
  exact ⟨rfl, by omega⟩

/-- R21: the Words of a slot stand in the PCB table. -/
theorem pcb_add_lt {p i : Nat} (hp : p < c.maxProcs) (hi : i < c.pcbWords) :
    c.pcbBase ≤ pcb c p + i ∧ pcb c p + i < c.pcbBase + c.pcbWords * c.maxProcs ∧ pcb c p + i < c.ptRegionBase := by
  have hl := wf_layout h
  have : c.pcbWords * p + i < c.pcbWords * c.maxProcs := by
    calc c.pcbWords * p + i < c.pcbWords * (p + 1) := by rw [Nat.mul_add]; omega
      _ ≤ c.pcbWords * c.maxProcs := Nat.mul_le_mul_left _ hp
  unfold pcb
  omega

theorem pcb_add_lt_memWords {p i : Nat} (hp : p < c.maxProcs) (hi : i < c.pcbWords) : pcb c p + i < c.memWords := by
  have := pcb_add_lt h hp hi; have := reservedWords_lt h; have := wf_layout h; omega

/-- R7 (f): every frame has a bit among those of the bitmap's Words. -/
theorem frame_lt_bits {f : Nat} (hf : f < c.numFrames) : f < 16 * c.bitmapWords := by
  have := (wf_rest h).1; omega

/-- R18: the Word of a bit of the bitmap, whether a frame has it or not, is a Word of the bitmap. -/
theorem bmWord_lt {f : Nat} (hf : f < 16 * c.bitmapWords) :
    c.bitmapAddr ≤ bmWord c f ∧ bmWord c f < c.bitmapAddr + c.bitmapWords := by
  unfold bmWord
  rw [wordBits_eq h]
  omega

theorem bmWord_lt_memWords {f : Nat} (hf : f < 16 * c.bitmapWords) : bmWord c f < c.memWords := by
  have := bmWord_lt h hf; have := reservedWords_lt h; have := wf_layout h; omega

/-- A table in the page-table region, or a frame, lies past the bitmap. -/
theorem bmWord_lt_ptRegion {f : Nat} (hf : f < 16 * c.bitmapWords) : bmWord c f < c.ptRegionBase := by
  have := bmWord_lt h hf; have := wf_layout h; omega

theorem bmBit_lt (f : Nat) : bmBit c f < 16 := by unfold bmBit; rw [wordBits_eq h]; omega

/-- R18: two frames tracked in one Word by one bit are one frame. -/
theorem bm_inj {f g : Nat} (hw : bmWord c f = bmWord c g) (hb : bmBit c f = bmBit c g) : f = g := by
  unfold bmWord at hw; unfold bmBit at hb
  rw [wordBits_eq h] at hw hb
  omega

end layout

/-- R21: slots do not overlap. -/
theorem pcb_add_inj {c : Config} {p q i j : Nat} (hi : i < c.pcbWords) (hj : j < c.pcbWords)
    (he : pcb c p + i = pcb c q + j) : p = q ∧ i = j := by
  have hd : ∀ p i, i < c.pcbWords → (c.pcbWords * p + i) / c.pcbWords = p := fun p i hi => by
    rw [Nat.mul_add_div (by omega), Nat.div_eq_of_lt hi, Nat.add_zero]
  have he' : c.pcbWords * p + i = c.pcbWords * q + j := by unfold pcb at he; omega
  have hp : p = q := by rw [← hd p i hi, he', hd q j hj]
  subst hp
  exact ⟨rfl, by omega⟩

/-! ### Operand ranges -/

theorem inMemory_iff (c : Config) (a : Nat) : inMemory c a = true ↔ a < c.memWords := by
  simp [inMemory]

theorem inMemory_eq_false (c : Config) (a : Nat) : inMemory c a = false ↔ c.memWords ≤ a := by
  simp [inMemory]

/-- R68: what a table base is. -/
theorem isTableBase_iff (c : Config) (a : Word) :
    isTableBase c a = true ↔ ∃ p, p < c.maxProcs ∧ a.toNat = ptBase c p := by
  simp [isTableBase]

theorem isFrame_iff (c : Config) (f : Word) : isFrame c f = true ↔ f.toNat < c.numFrames := by simp [isFrame]

theorem isSlot_iff (c : Config) (p : Word) : isSlot c p = true ↔ p.toNat < c.maxProcs := by simp [isSlot]

/-- R60: the frames ALLOC scans. -/
theorem mem_assignableFrames (c : Config) (f : Nat) :
    f ∈ assignableFrames c ↔ c.reservedFrames ≤ f ∧ f < c.numFrames := by
  simp only [assignableFrames, List.mem_range'_1]
  omega

end Machine
end Sys2Proof
end

