-- ==== Sys2Proof/Laws/Bits.lean ====
section
/-! SUPPORT. Bits of Words: the fields of an entry made by `mkPte` (10_state.md R19), what clearing bit 0
leaves (41_page_table.md R66), and the fields of a request word (30_encoding.md R49). -/

namespace Sys2Proof.Machine

/-! ### A number above three flags -/

/-- R19, R49: a Word packed from a field above bit `k` and three flags below it, as a number. -/
theorem packed_toNat {n k : Nat} (hk : 3 ≤ k) (hk16 : k ≤ 16) (hn : n < 2 ^ (16 - k)) (w r g : Bool) :
    (BitVec.ofNat 16 (n <<< k) ||| BitVec.ofNat 16 (w.toNat <<< 2) ||| BitVec.ofNat 16 (r.toNat <<< 1) |||
      BitVec.ofNat 16 g.toNat).toNat = n * 2 ^ k + w.toNat * 4 + r.toNat * 2 + g.toNat := by
  have h8 : 2 ^ 3 ≤ 2 ^ k := Nat.pow_le_pow_right (by decide) hk
  have hnk : n * 2 ^ k < 65536 := by
    calc n * 2 ^ k < 2 ^ (16 - k) * 2 ^ k := Nat.mul_lt_mul_of_pos_right hn (Nat.two_pow_pos k)
      _ = 65536 := by rw [← Nat.pow_add, Nat.sub_add_cancel hk16]
  have hlow : w.toNat <<< 2 ||| r.toNat <<< 1 ||| g.toNat = w.toNat * 4 + r.toNat * 2 + g.toNat := by
    cases w <;> cases r <;> cases g <;> rfl
  have hlt : w.toNat * 4 + r.toNat * 2 + g.toNat < 8 := by
    cases w <;> cases r <;> cases g <;> decide
  simp only [BitVec.toNat_or, BitVec.toNat_ofNat]
  rw [Nat.mod_eq_of_lt (show n <<< k < 2 ^ 16 by rwa [Nat.shiftLeft_eq]),
    Nat.mod_eq_of_lt (show w.toNat <<< 2 < 2 ^ 16 by cases w <;> decide),
    Nat.mod_eq_of_lt (show r.toNat <<< 1 < 2 ^ 16 by cases r <;> decide),
    Nat.mod_eq_of_lt (show g.toNat < 2 ^ 16 by cases g <;> decide),
    Nat.or_assoc, Nat.or_assoc, ← Nat.or_assoc (w.toNat <<< 2), hlow,
    ← Nat.shiftLeft_add_eq_or_of_lt (by omega), Nat.shiftLeft_eq]
  omega

/-- R19, R49: the field and the flags of a packed Word, read back. -/
theorem packed_fields {e : Word} {n k : Nat} {w r g : Bool} (hk : 3 ≤ k)
    (he : e.toNat = n * 2 ^ k + w.toNat * 4 + r.toNat * 2 + g.toNat) :
    e.toNat / 2 ^ k = n ∧ e.getLsbD 2 = w ∧ e.getLsbD 1 = r ∧ e.getLsbD 0 = g := by
  have h8 : 2 ^ 3 ≤ 2 ^ k := Nat.pow_le_pow_right (by decide) hk
  have hlt : w.toNat * 4 + r.toNat * 2 + g.toNat < 8 := by
    cases w <;> cases r <;> cases g <;> decide
  have he' : e.toNat = 2 ^ k * n + (w.toNat * 4 + r.toNat * 2 + g.toNat) := by rw [he, Nat.mul_comm]; omega
  have hbit : ∀ i, i < 3 → e.getLsbD i = (w.toNat * 4 + r.toNat * 2 + g.toNat).testBit i := fun i hi => by
    rw [BitVec.getLsbD, he', Nat.testBit_two_pow_mul_add _ (by omega), if_pos (by omega)]
  refine ⟨?_, ?_, ?_, ?_⟩
  · rw [he', Nat.mul_add_div (Nat.two_pow_pos k), Nat.div_eq_of_lt (by omega), Nat.add_zero]
  all_goals rw [hbit _ (by decide)]; cases w <;> cases r <;> cases g <;> rfl

/-! ### Entries -/

section entries
variable {c : Config} (h : c.wellFormed = true) {f : Nat} (hf : f < c.numFrames) (r w : Bool)
include h hf

/-- R19: `mk_pte` as a number. -/
theorem mkPte_toNat : (mkPte c f r w).toNat = f * 2 ^ (16 - c.frameBits) + w.toNat * 4 + r.toNat * 2 + 1 := by
  obtain ⟨hw, -, -, -, -, hb, -⟩ := wf_sizes h
  have := packed_toNat (n := f) (k := 16 - c.frameBits) (by omega) (by omega)
    (by rw [show 16 - (16 - c.frameBits) = c.frameBits by omega]; exact frame_lt_field h hf) w r true
  unfold mkPte
  rw [hw]
  exact this

theorem mkPte_fields : pteFrame c (mkPte c f r w) = f ∧ pteWrite (mkPte c f r w) = w ∧
    pteRead (mkPte c f r w) = r ∧ pteValid (mkPte c f r w) = true := by
  obtain ⟨hw, -, -, -, -, hb, -⟩ := wf_sizes h
  unfold pteFrame
  rw [hw]
  exact packed_fields (g := true) (by omega) (mkPte_toNat h hf r w)

theorem pteFrame_mkPte : pteFrame c (mkPte c f r w) = f := (mkPte_fields h hf r w).1

theorem pteWrite_mkPte : pteWrite (mkPte c f r w) = w := (mkPte_fields h hf r w).2.1

theorem pteRead_mkPte : pteRead (mkPte c f r w) = r := (mkPte_fields h hf r w).2.2.1

theorem pteValid_mkPte : pteValid (mkPte c f r w) = true := (mkPte_fields h hf r w).2.2.2

end entries

/-- R66: clearing bit 0 makes an entry invalid. -/
theorem pteValid_clear (e : Word) : pteValid (e &&& 0xFFFE#16) = false := by
  simp [pteValid]

/-- R66: clearing bit 0 leaves the frame field. -/
theorem pteFrame_clear {c : Config} (h : c.wellFormed = true) (e : Word) :
    pteFrame c (e &&& 0xFFFE#16) = pteFrame c e := by
  obtain ⟨hw, -, -, -, -, hb, -⟩ := wf_sizes h
  unfold pteFrame
  rw [hw, BitVec.toNat_and]
  apply Nat.eq_of_testBit_eq
  intro i
  simp only [Nat.testBit_div_two_pow, Nat.testBit_and]
  rw [Nat.add_comm i]
  cases he : e.toNat.testBit (16 - c.frameBits + i) with
  | false => rw [Bool.false_and]
  | true =>
    have hi : 16 - c.frameBits + i < 16 := by
      by_contra hc
      rw [Nat.testBit_lt_two_pow (Nat.lt_of_lt_of_le e.isLt (Nat.pow_le_pow_right (by decide) (by omega)))] at he
      cases he
    have : ∀ j : Fin 16, 3 ≤ j.1 → (0xFFFE#16).toNat.testBit j.1 = true := by decide
    rw [Bool.true_and]
    exact this ⟨_, hi⟩ (by simp only; omega)

theorem pteValid_zero : pteValid 0#16 = false := by decide

/-! ### Request words -/

section requests
variable {c : Config} (h : c.wellFormed = true) (ho : 3 ≤ c.offsetBits) {v : Nat} (hv : v < c.ptEntries) (r w g : Bool)
include h ho hv

/-- R49: `req` as a number. -/
theorem req_toNat : (req c v r w g).toNat = v * c.pageWords + w.toNat * 4 + r.toNat * 2 + g.toNat := by
  obtain ⟨-, hs, hp, ht, -⟩ := wf_sizes h
  rw [hp]
  exact packed_toNat ho (by omega) (by rw [show 16 - c.offsetBits = c.vpnBits by omega, ← ht]; exact hv) w r g

/-- R49: the fields of a request word, read back. -/
theorem req_fields : pageWordVpn c (req c v r w g) = v ∧ pageWordWrite (req c v r w g) = w ∧
    pageWordRead (req c v r w g) = r ∧ pageWordGrow (req c v r w g) = g := by
  obtain ⟨-, -, hp, ht, -⟩ := wf_sizes h
  have hn := req_toNat h ho hv r w g
  rw [hp] at hn
  obtain ⟨h1, h2, h3, h4⟩ := packed_fields ho hn
  refine ⟨?_, h2, h3, h4⟩
  unfold pageWordVpn bitField
  rw [h1, ← ht, Nat.mod_eq_of_lt hv]

end requests

/-- R49: every value of the vpn field is in range. -/
theorem pageWordVpn_lt {c : Config} (h : c.wellFormed = true) (q : Word) : pageWordVpn c q < c.ptEntries := by
  rw [(wf_sizes h).2.2.2.1]
  exact Nat.mod_lt _ (Nat.two_pow_pos _)

/-- R49: the vpn field is the Word above its offset bits. -/
theorem pageWordVpn_eq {c : Config} (h : c.wellFormed = true) (q : Word) : pageWordVpn c q = q.toNat / c.pageWords := by
  obtain ⟨-, -, hp, ht, -⟩ := wf_sizes h
  have := vpnOf_lt h q
  unfold vpnOf at this
  unfold pageWordVpn bitField
  rw [← hp, ← ht, Nat.mod_eq_of_lt this]

theorem vpnFits_iff (c : Config) (v : Nat) : vpnFits c v = true ↔ v < c.ptEntries := by simp [vpnFits]

/-- R18: which bit of a Word a one-bit mask has. -/
theorem getLsbD_oneBit {i : Nat} (hi : i < 16) (j : Nat) :
    (1#16 <<< i).getLsbD j = decide (j = i) := by
  simp only [BitVec.getLsbD_shiftLeft, BitVec.getLsbD_one]
  by_cases h : j = i
  · simp [h, hi]
  · by_cases h2 : j < i
    · simp [h, h2]
    · simp [h]; omega

end Sys2Proof.Machine
end

