-- ==== Sys2Proof/Laws/Memory.lean ====
section
/-! SUPPORT. The laws of physical memory (10_state.md R11, 20_memory.md R39): a read after a write gives the
value written, a write leaves every other Word alone, and every write keeps the one canonical form. -/

namespace Sys2Proof.Machine

variable {c : Config}

/-! ### The list behind a memory -/

@[simp] theorem lookup_nil (a : Nat) : Memory.lookup c [] a = resetWord c a := rfl

theorem lookup_cons (k : Nat) (v : Word) (m : Memory) (a : Nat) :
    Memory.lookup c ((k, v) :: m) a = if k = a then v else Memory.lookup c m a := rfl

theorem lookup_of_unlisted {m : Memory} {a : Nat} (h : ∀ d ∈ m, d.1 ≠ a) : m.lookup c a = resetWord c a := by
  induction m with
  | nil => rfl
  | cons d m ih =>
    obtain ⟨k, v⟩ := d
    rw [lookup_cons, if_neg (h (k, v) (by simp)), ih fun d hd => h d (by simp [hd])]

theorem mem_forget {m : Memory} {a : Nat} {d : Cell} : d ∈ m.forget a ↔ d ∈ m ∧ d.1 ≠ a := by
  simp [Memory.forget]

theorem lookup_forget (m : Memory) (a b : Nat) :
    (m.forget a).lookup c b = if b = a then resetWord c a else m.lookup c b := by
  induction m with
  | nil => simp [Memory.forget]; rintro rfl; rfl
  | cons d m ih =>
    obtain ⟨k, v⟩ := d
    by_cases hk : k = a
    · have : Memory.forget ((k, v) :: m) a = Memory.forget m a := by simp [Memory.forget, hk]
      rw [this, ih, lookup_cons]
      split_ifs <;> first | rfl | (exfalso; omega)
    · have : Memory.forget ((k, v) :: m) a = (k, v) :: Memory.forget m a := by simp [Memory.forget, hk]
      rw [this, lookup_cons, lookup_cons, ih]
      split_ifs <;> first | rfl | (exfalso; omega)

theorem mem_insertCell {m : Memory} {a : Nat} {w : Word} {d : Cell} :
    d ∈ Memory.insertCell a w m ↔ d = (a, w) ∨ d ∈ m := by
  induction m with
  | nil => simp [Memory.insertCell]
  | cons e m ih =>
    obtain ⟨k, v⟩ := e
    simp only [Memory.insertCell]
    split_ifs <;> simp [ih, or_left_comm]

theorem lookup_insertCell {m : Memory} {a : Nat} (w : Word) (b : Nat) (h : ∀ d ∈ m, d.1 ≠ a) :
    (Memory.insertCell a w m).lookup c b = if b = a then w else m.lookup c b := by
  induction m with
  | nil => simp only [Memory.insertCell, lookup_cons, eq_comm]
  | cons d m ih =>
    obtain ⟨k, v⟩ := d
    have hk : k ≠ a := h (k, v) (by simp)
    simp only [Memory.insertCell]
    split_ifs with h1 h2 h2
    · simp [lookup_cons, h2]
    · rw [lookup_cons, if_neg (Ne.symm h2)]
    · rw [lookup_cons, if_neg (by omega), ih fun d hd => h d (by simp [hd]), if_pos h2]
    · rw [lookup_cons, lookup_cons, ih fun d hd => h d (by simp [hd]), if_neg h2]

/-! ### Words of memory and past it -/

/-- R8: what a Word of M reads as. -/
theorem read_eq_lookup (m : Memory) {a : Nat} (h : a < c.memWords) : m.read c a = m.lookup c a := by
  rw [Memory.read, (inMemory_iff c a).2 h, if_pos rfl]

/-- Past the last Word the value is the free one (log 7). -/
theorem read_past (m : Memory) {a : Nat} (h : c.memWords ≤ a) : m.read c a = Config.absentWord c m a := by
  rw [Memory.read, (inMemory_eq_false c a).2 h]; rfl

/-- Past the last Word there is nothing to write (log 7). -/
theorem write_past (m : Memory) {a : Nat} (h : c.memWords ≤ a) (w : Word) : m.write c a w = m := by
  rw [Memory.write, (inMemory_eq_false c a).2 h]; rfl

/-- R39: what any Word of M reads as after a write. -/
theorem read_write (m : Memory) (a : Nat) (w : Word) {b : Nat} (hb : b < c.memWords) :
    (m.write c a w).read c b = if b = a then w else m.read c b := by
  rw [read_eq_lookup _ hb, read_eq_lookup _ hb]
  by_cases ha : a < c.memWords
  · unfold Memory.write
    rw [(inMemory_iff c a).2 ha]
    simp only [Bool.not_true, Bool.false_eq_true, if_false]
    split_ifs with h1 h2 h2
    · rw [lookup_forget, if_pos h2, h1]
    · rw [lookup_forget, if_neg h2]
    · rw [lookup_insertCell w b fun d hd => (mem_forget.1 hd).2, if_pos h2]
    · rw [lookup_insertCell w b fun d hd => (mem_forget.1 hd).2, if_neg h2, lookup_forget, if_neg h2]
  · rw [write_past m (by omega), if_neg (by omega)]

@[simp] theorem read_write_self (m : Memory) {a : Nat} (ha : a < c.memWords) (w : Word) :
    (m.write c a w).read c a = w := by
  rw [read_write m a w ha, if_pos rfl]

theorem read_write_of_ne (m : Memory) {a b : Nat} (w : Word) (hb : b < c.memWords) (h : b ≠ a) :
    (m.write c a w).read c b = m.read c b := by
  rw [read_write m a w hb, if_neg h]

/-! ### The canonical form -/

/-- The canonical form, spelled out. -/
theorem wf_iff (m : Memory) :
    m.wf c = true ↔ m.Pairwise (fun d e => d.1 < e.1) ∧ ∀ d ∈ m, d.1 < c.memWords ∧ d.2 ≠ resetWord c d.1 := by
  simp [Memory.wf, inMemory_iff]

theorem wf_forget {m : Memory} (h : m.wf c = true) (a : Nat) : (m.forget a).wf c = true := by
  rw [wf_iff] at *
  exact ⟨h.1.filter _, fun d hd => h.2 d (mem_forget.1 hd).1⟩

theorem pairwise_insertCell {m : Memory} {a : Nat} (w : Word) (h : m.Pairwise (fun d e => d.1 < e.1))
    (ha : ∀ d ∈ m, d.1 ≠ a) : (Memory.insertCell a w m).Pairwise (fun d e => d.1 < e.1) := by
  induction m with
  | nil => simp [Memory.insertCell]
  | cons e m ih =>
    obtain ⟨k, v⟩ := e
    obtain ⟨he, hm⟩ := List.pairwise_cons.1 h
    have hk : k ≠ a := ha (k, v) (by simp)
    simp only [Memory.insertCell]
    split_ifs with hlt
    · refine List.pairwise_cons.2 ⟨fun d hd => ?_, h⟩
      rcases List.mem_cons.1 hd with rfl | hd
      · exact hlt
      · have := he d hd; simp only at this ⊢; omega
    · refine List.pairwise_cons.2 ⟨fun d hd => ?_, ih hm fun d hd => ha d (by simp [hd])⟩
      rcases mem_insertCell.1 hd with rfl | hd
      · simp only; omega
      · exact he d hd

/-- Every write keeps the canonical form. -/
theorem wf_write {m : Memory} (h : m.wf c = true) (a : Nat) (w : Word) : (m.write c a w).wf c = true := by
  have he := wf_forget h a
  unfold Memory.write
  split_ifs with hi hw
  · exact h
  · exact he
  · rw [wf_iff] at he ⊢
    refine ⟨pairwise_insertCell w he.1 fun d hd => (mem_forget.1 hd).2, fun d hd => ?_⟩
    rcases mem_insertCell.1 hd with rfl | hd
    · exact ⟨(inMemory_iff c _).1 (by simpa using hi), hw⟩
    · exact he.2 d hd

/-- In a memory in canonical form an address that is listed reads as it is listed. -/
theorem lookup_of_mem {m : Memory} (hs : m.Pairwise (fun d e => d.1 < e.1)) {d : Cell} (hd : d ∈ m) :
    m.lookup c d.1 = d.2 := by
  induction m with
  | nil => simp at hd
  | cons e m ih =>
    obtain ⟨k, v⟩ := e
    obtain ⟨he, hs'⟩ := List.pairwise_cons.1 hs
    rcases List.mem_cons.1 hd with rfl | hd
    · rw [lookup_cons, if_pos rfl]
    · have := he d hd
      rw [lookup_cons, if_neg (by simp only at this; omega)]
      exact ih hs' hd

/-- Which cells a memory in canonical form lists. -/
theorem mem_iff_lookup {m : Memory} (hm : m.wf c = true) (d : Cell) :
    d ∈ m ↔ m.lookup c d.1 = d.2 ∧ d.2 ≠ resetWord c d.1 := by
  obtain ⟨hs, hv⟩ := (wf_iff m).1 hm
  refine ⟨fun hd => ⟨lookup_of_mem hs hd, (hv d hd).2⟩, fun ⟨hr, hne⟩ => ?_⟩
  by_contra hd
  by_cases hk : ∃ e ∈ m, e.1 = d.1
  · obtain ⟨e, he, hek⟩ := hk
    exact hd ((Prod.ext hek (by rw [← lookup_of_mem (c := c) hs he, hek, hr]) : e = d) ▸ he)
  · push Not at hk
    exact hne (by rw [← hr, lookup_of_unlisted fun e he => hk e he])

/-- Two memories in canonical form that hold alike Words are the same data. -/
theorem wf_ext {m n : Memory} (hm : m.wf c = true) (hn : n.wf c = true)
    (h : ∀ a, a < c.memWords → m.read c a = n.read c a) : m = n := by
  have past : ∀ {m : Memory}, m.wf c = true → ∀ {a}, ¬ a < c.memWords → m.lookup c a = resetWord c a :=
    fun {_} hm {_} ha => lookup_of_unlisted fun d hd he => ha (by rw [← he]; exact (((wf_iff _).1 hm).2 d hd).1)
  have hl : ∀ a, m.lookup c a = n.lookup c a := fun a => by
    by_cases ha : a < c.memWords
    · rw [← read_eq_lookup m ha, ← read_eq_lookup n ha, h a ha]
    · rw [past hm ha, past hn ha]
  have hmem : ∀ d, d ∈ m ↔ d ∈ n := fun d => by rw [mem_iff_lookup hm, mem_iff_lookup hn, hl]
  have hsm := ((wf_iff m).1 hm).1
  have hsn := ((wf_iff n).1 hn).1
  have nodup : ∀ {l : Memory}, l.Pairwise (fun d e => d.1 < e.1) → l.Nodup := fun h =>
    h.imp fun {d e} hlt heq => by subst heq; omega
  have hp : m.Perm n := (List.perm_ext_iff_of_nodup (nodup hsm) (nodup hsn)).2 hmem
  exact List.Perm.eq_of_pairwise (fun a b _ _ h1 h2 => by omega) hsm hsn hp

/-- R27: reset memory has the form, at every configuration. -/
theorem wf_reset (p : Params) : (State.resetAt p).mem.wf p.config = true := rfl

/-! ### What an unlisted Word reads as (R27) -/

/-- R27: the marker. -/
theorem resetWord_curPid (c : Config) : resetWord c c.curPidAddr = noProcessWord c := by
  unfold resetWord; rw [if_pos rfl]

/-- R27: a Word of the bitmap. -/
theorem resetWord_bitmap (h : c.wellFormed = true) {i : Nat} (hi : i < c.bitmapWords) :
    resetWord c (c.bitmapAddr + i) = bitmapResetWord c i := by
  have := wf_layout h
  unfold resetWord
  rw [if_neg (by omega), if_pos (by omega), Nat.add_sub_cancel_left]

/-- R27: every other Word is 0. -/
theorem resetWord_other {a : Nat} (h0 : a ≠ c.curPidAddr)
    (hb : a < c.bitmapAddr ∨ c.bitmapAddr + c.bitmapWords ≤ a) : resetWord c a = 0#16 := by
  unfold resetWord
  rw [if_neg h0, if_neg (by omega)]

/-- R18: a bit of a bitmap Word at reset, over the bits looked at so far. -/
theorem getLsbD_bitmapFold (h : c.wellFormed = true) (i : Nat) {j : Nat} (hj : j < 16) (n : Nat) (hn : n ≤ 16) :
    ((List.range n).foldl (fun w j =>
      let f := c.wordBits * i + j
      if c.reservedFrames ≤ f ∧ f < c.numFrames then w ||| (1#16 <<< bmBit c f) else w) 0#16).getLsbD (15 - j) =
    (decide (j < n) && decide (c.reservedFrames ≤ 16 * i + j ∧ 16 * i + j < c.numFrames)) := by
  induction n with
  | zero => simp
  | succ n ih =>
    have hbit : bmBit c (c.wordBits * i + n) = 15 - n := by
      unfold bmBit; rw [wordBits_eq h, Nat.mul_add_mod, Nat.mod_eq_of_lt (by omega)]
    rw [List.range_succ, List.foldl_append, List.foldl_cons, List.foldl_nil]
    simp only
    rw [hbit]
    split_ifs with hf
    · rw [BitVec.getLsbD_or, ih (by omega), getLsbD_oneBit (by omega)]
      rw [wordBits_eq h] at hf
      by_cases hjn : j = n
      · subst hjn; simp [hf]
      · rw [show decide (15 - j = 15 - n) = false by simp; omega, Bool.or_false]
        congr 1; simp; omega
    · rw [ih (by omega)]
      rw [wordBits_eq h] at hf
      by_cases hjn : j = n
      · subst hjn; simp [hf]
      · congr 1; simp; omega

/-- R27: at reset exactly the assignable frames are free. -/
theorem isFree_reset (h : c.wellFormed = true) {f : Nat} (hf : f < c.numFrames) :
    isFree c [] f = decide (c.reservedFrames ≤ f) := by
  have hw := wordBits_eq h
  have hi : f / 16 < c.bitmapWords := by have := frame_lt_bits h hf; omega
  unfold isFree
  rw [read_eq_lookup _ (bmWord_lt_memWords h (frame_lt_bits h hf)), lookup_nil]
  unfold bmWord bmBit
  rw [hw, resetWord_bitmap h hi]
  unfold bitmapResetWord
  rw [hw]
  have := getLsbD_bitmapFold h (f / 16) (j := f % 16) (by omega) 16 (by omega)
  rw [hw] at this
  rw [this, show 16 * (f / 16) + f % 16 = f by omega]
  simp [hf]; omega

end Sys2Proof.Machine
end

