-- ==== Sys2Proof/Laws/Allocator.lean ====
section
/-! SUPPORT. What the frame allocator can do (40_frame_allocator.md R60, R61): its effect on every frame's
bit and on every Word, and the canonical form it keeps. -/

namespace Sys2Proof.Machine

variable {c : Config}

/-- A frame's bit depends on its bitmap Word alone. -/
theorem isFree_congr {m n : Memory} {f : Nat} (h : n.read c (bmWord c f) = m.read c (bmWord c f)) :
    isFree c n f = isFree c m f := by
  unfold isFree; rw [h]

/-- R61: a number no frame has is freed without effect. -/
theorem markFree_of_ge (m : Memory) {f : Nat} (hf : c.numFrames ≤ f) : markFree c m f = m := by
  unfold markFree; rw [if_neg (by omega)]

section
variable (h : c.wellFormed = true)
include h

/-- A write to another Word leaves a bit of the bitmap. -/
theorem isFree_write (m : Memory) {a : Nat} (w : Word) {f : Nat} (hf : f < 16 * c.bitmapWords) (ha : bmWord c f ≠ a) :
    isFree c (m.write c a w) f = isFree c m f :=
  isFree_congr (read_write_of_ne m w (bmWord_lt_memWords h hf) ha)

/-- R60: marking `f` used clears the bit of `f` and no other bit of the bitmap. -/
theorem isFree_markUsed (m : Memory) (f : Nat) {g : Nat} (hg : g < 16 * c.bitmapWords) :
    isFree c (markUsed c m f) g = (isFree c m g && decide (g ≠ f)) := by
  unfold isFree markUsed
  rw [read_write _ _ _ (bmWord_lt_memWords h hg)]
  split_ifs with hw
  · rw [hw, BitVec.getLsbD_and, BitVec.getLsbD_not, getLsbD_oneBit (bmBit_lt h f) (bmBit c g)]
    by_cases hgf : g = f
    · simp [hgf]
    · have : bmBit c g ≠ bmBit c f := fun he => hgf (bm_inj h hw he)
      simp [hgf, this, bmBit_lt h]
  · have : g ≠ f := fun he => hw (by rw [he])
    simp [this]

/-- R61: marking `f` free sets the bit of `f`, if it is a frame, and no other bit of the bitmap. -/
theorem isFree_markFree (m : Memory) (f : Nat) {g : Nat} (hg : g < 16 * c.bitmapWords) :
    isFree c (markFree c m f) g = (isFree c m g || decide (g = f ∧ g < c.numFrames)) := by
  by_cases hf : f < c.numFrames
  · unfold isFree markFree
    rw [if_pos hf, read_write _ _ _ (bmWord_lt_memWords h hg)]
    split_ifs with hw
    · rw [hw, BitVec.getLsbD_or, getLsbD_oneBit (bmBit_lt h f) (bmBit c g)]
      by_cases hgf : g = f
      · simp [hgf, hf]
      · have : bmBit c g ≠ bmBit c f := fun he => hgf (bm_inj h hw he)
        simp [hgf, this]
    · have : g ≠ f := fun he => hw (by rw [he])
      simp [this]
  · rw [markFree_of_ge m (by omega)]
    have : ¬ (g = f ∧ g < c.numFrames) := by omega
    simp [this]

end

theorem read_markUsed (m : Memory) {f a : Nat} (ha : a < c.memWords) (hne : a ≠ bmWord c f) :
    (markUsed c m f).read c a = m.read c a := read_write_of_ne m _ ha hne

theorem read_markFree (m : Memory) {f a : Nat} (ha : a < c.memWords) (hne : f < c.numFrames → a ≠ bmWord c f) :
    (markFree c m f).read c a = m.read c a := by
  unfold markFree
  split_ifs with hf
  · exact read_write_of_ne m _ ha (hne hf)
  · rfl

theorem wf_markUsed {m : Memory} (hm : m.wf c = true) (f : Nat) : (markUsed c m f).wf c = true := wf_write hm _ _

theorem wf_markFree {m : Memory} (hm : m.wf c = true) (f : Nat) : (markFree c m f).wf c = true := by
  unfold markFree
  split_ifs
  · exact wf_write hm _ _
  · exact hm

/-- R60: everything ALLOC can do. Either it finds the lowest free assignable frame and marks it used, or
none is free and nothing is written. -/
theorem alloc_spec (c : Config) (m : Memory) :
    (∃ f, c.reservedFrames ≤ f ∧ f < c.numFrames ∧ isFree c m f = true ∧
      (∀ g, c.reservedFrames ≤ g → g < f → isFree c m g = false) ∧
      alloc c m = ⟨.ok, BitVec.ofNat 16 f, markUsed c m f⟩) ∨
    ((∀ g, c.reservedFrames ≤ g → g < c.numFrames → isFree c m g = false) ∧ alloc c m = ⟨.noFreeFrame, 0, m⟩) := by
  unfold alloc
  cases h : (assignableFrames c).find? (isFree c m) with
  | none =>
    refine .inr ⟨fun g h1 h2 => ?_, rfl⟩
    simpa using List.find?_eq_none.1 h g ((mem_assignableFrames c g).2 ⟨h1, h2⟩)
  | some f =>
    obtain ⟨hf, as, bs, hl, hlow⟩ := List.find?_eq_some_iff_append.1 h
    have hmem : f ∈ assignableFrames c := by rw [hl]; simp
    obtain ⟨h1, h2⟩ := (mem_assignableFrames c f).1 hmem
    refine .inl ⟨f, h1, h2, hf, fun g hg1 hg2 => ?_, rfl⟩
    have hg : g ∈ assignableFrames c := (mem_assignableFrames c g).2 ⟨hg1, by omega⟩
    have hs : (assignableFrames c).Pairwise (· < ·) := by
      unfold assignableFrames; exact List.pairwise_lt_range' ..
    rw [hl] at hg hs
    rcases List.mem_append.1 hg with hg | hg
    · simpa using hlow g hg
    · rcases List.mem_cons.1 hg with rfl | hg
      · omega
      · have := (List.pairwise_cons.1 (List.pairwise_append.1 hs).2.1).1 g hg
        omega

/-- R60: ALLOC's result when `f` is the lowest free assignable frame. -/
theorem alloc_eq_of_lowest {m : Memory} {f : Nat} (h1 : c.reservedFrames ≤ f) (h2 : f < c.numFrames)
    (hf : isFree c m f = true) (hlow : ∀ g, c.reservedFrames ≤ g → g < f → isFree c m g = false) :
    alloc c m = ⟨.ok, BitVec.ofNat 16 f, markUsed c m f⟩ := by
  rcases alloc_spec c m with ⟨g, hg1, hg2, hg, hglow, he⟩ | ⟨hn, _⟩
  · rcases Nat.lt_trichotomy f g with h | rfl | h
    · simp [hglow f h1 h] at hf
    · exact he
    · simp [hlow g hg1 h] at hg
  · simp [hn f h1 h2] at hf

theorem alloc_eq_of_none {m : Memory} (hn : ∀ g, c.reservedFrames ≤ g → g < c.numFrames → isFree c m g = false) :
    alloc c m = ⟨.noFreeFrame, 0, m⟩ := by
  rcases alloc_spec c m with ⟨g, hg1, hg2, hg, _⟩ | ⟨_, he⟩
  · simp [hn g hg1 hg2] at hg
  · exact he

theorem wf_alloc {m : Memory} (hm : m.wf c = true) : (alloc c m).mem.wf c = true := by
  rcases alloc_spec c m with ⟨f, _, _, _, _, he⟩ | ⟨_, he⟩ <;> rw [he]
  · exact wf_markUsed hm f
  · exact hm

end Sys2Proof.Machine
end

