-- ==== Sys2Proof/Laws/PageTable.lean ====
section
/-! SUPPORT. What page table maintenance can do (41_page_table.md R65, R66), for one page and for the
unmapping of a whole table (44_traps.md R92, 43_process_lifecycle.md R81). -/

namespace Sys2Proof.Machine

variable {c : Config}

/-- The Words that no bitmap change reaches. -/
abbrev OffBitmap (c : Config) (a : Nat) : Prop := a < c.bitmapAddr ∨ c.bitmapAddr + c.bitmapWords ≤ a

theorem ne_bmWord (h : c.wellFormed = true) {a f : Nat} (ha : OffBitmap c a) (hf : f < c.numFrames) :
    a ≠ bmWord c f := by
  have := bmWord_lt h (frame_lt_bits h hf); omega

/-- A table from `PT_REGION_BASE` on lies past the bitmap. -/
theorem offBitmap_of_ge (h : c.wellFormed = true) {a : Nat} (ha : c.ptRegionBase ≤ a) : OffBitmap c a := by
  have := wf_layout h; exact .inr (by omega)

section map
variable (h : c.wellFormed = true)
include h

/-- R65: everything MAP can do, in the order of its checks. -/
theorem mapPage_spec (m : Memory) (tb vpn : Nat) (r w : Bool) :
    (pteValid (m.read c (tb + vpn)) = true ∧ mapPage c m tb vpn r w = ⟨.alreadyMapped, 0, m⟩) ∨
    (pteValid (m.read c (tb + vpn)) = false ∧
      (∀ g, c.reservedFrames ≤ g → g < c.numFrames → isFree c m g = false) ∧
      mapPage c m tb vpn r w = ⟨.outOfFrames, 0, m⟩) ∨
    (pteValid (m.read c (tb + vpn)) = false ∧ ∃ f, c.reservedFrames ≤ f ∧ f < c.numFrames ∧ isFree c m f = true ∧
      (∀ g, c.reservedFrames ≤ g → g < f → isFree c m g = false) ∧
      mapPage c m tb vpn r w =
        ⟨.ok, BitVec.ofNat 16 f, (markUsed c m f).write c (tb + vpn) (mkPte c f r w)⟩) := by
  unfold mapPage
  by_cases hv : pteValid (m.read c (tb + vpn)) = true
  · exact .inl ⟨hv, by rw [if_pos hv]⟩
  · have hv' : pteValid (m.read c (tb + vpn)) = false := by simpa using hv
    right
    rcases alloc_spec c m with ⟨f, h1, h2, hf, hlow, he⟩ | ⟨hn, he⟩
    · refine .inr ⟨hv', f, h1, h2, hf, hlow, ?_⟩
      have := toNat_frame h h2
      simp only [hv', he, Bool.false_eq_true, if_false, if_true, this]
    · exact .inl ⟨hv', hn, by simp [hv', he]⟩

theorem mapPage_eq_of_lowest {m : Memory} {tb vpn f : Nat} (r w : Bool)
    (hv : pteValid (m.read c (tb + vpn)) = false) (h1 : c.reservedFrames ≤ f) (h2 : f < c.numFrames)
    (hf : isFree c m f = true) (hlow : ∀ g, c.reservedFrames ≤ g → g < f → isFree c m g = false) :
    mapPage c m tb vpn r w =
      ⟨.ok, BitVec.ofNat 16 f, (markUsed c m f).write c (tb + vpn) (mkPte c f r w)⟩ := by
  have := toNat_frame h h2
  unfold mapPage
  simp only [hv, alloc_eq_of_lowest h1 h2 hf hlow, Bool.false_eq_true, if_false, if_true, this]

theorem wf_mapPage {m : Memory} (hm : m.wf c = true) (tb vpn : Nat) (r w : Bool) :
    (mapPage c m tb vpn r w).mem.wf c = true := by
  rcases mapPage_spec h m tb vpn r w with ⟨_, he⟩ | ⟨_, _, he⟩ | ⟨_, f, _, _, _, _, he⟩ <;> rw [he]
  · exact hm
  · exact hm
  · exact wf_write (wf_markUsed hm f) _ _

end map

/-- R66: everything UNMAP can do. -/
theorem unmapPage_spec (c : Config) (m : Memory) (tb vpn : Nat) :
    (pteValid (m.read c (tb + vpn)) = false ∧ unmapPage c m tb vpn = ⟨.notMapped, 0, m⟩) ∨
    (pteValid (m.read c (tb + vpn)) = true ∧ unmapPage c m tb vpn =
      ⟨.ok, 0, (markFree c m (pteFrame c (m.read c (tb + vpn)))).write c (tb + vpn)
        (m.read c (tb + vpn) &&& 0xFFFE#16)⟩) := by
  unfold unmapPage freeFrame
  by_cases hv : pteValid (m.read c (tb + vpn)) = true
  · exact .inr ⟨hv, by simp [hv]⟩
  · have hv' : pteValid (m.read c (tb + vpn)) = false := by simpa using hv
    exact .inl ⟨hv', by simp [hv']⟩

theorem wf_unmapPage {m : Memory} (hm : m.wf c = true) (tb vpn : Nat) :
    (unmapPage c m tb vpn).mem.wf c = true := by
  rcases unmapPage_spec c m tb vpn with ⟨_, he⟩ | ⟨_, he⟩ <;> rw [he]
  · exact hm
  · exact wf_write (wf_markFree hm _) _ _

theorem unmapEach_cons (c : Config) (tb v : Nat) (vs : List Nat) (m : Memory) :
    unmapEach c tb (v :: vs) m = unmapEach c tb vs (unmapPage c m tb v).mem := by
  simp only [unmapEach]
  rcases unmapPage_spec c m tb v with ⟨hv, he⟩ | ⟨hv, he⟩ <;> simp [hv, he]

theorem wf_unmapEach (tb : Nat) (vs : List Nat) {m : Memory} (hm : m.wf c = true) :
    (unmapEach c tb vs m).wf c = true := by
  induction vs generalizing m with
  | nil => exact hm
  | cons v vs ih =>
    rw [unmapEach_cons]
    exact ih (wf_unmapPage hm tb v)

/-- R92: unmapping a whole table keeps the canonical form. -/
theorem wf_unmapAll {m : Memory} (hm : m.wf c = true) (tb : Nat) : (unmapAll c m tb).wf c = true :=
  wf_unmapEach tb _ hm

section unmap
variable (h : c.wellFormed = true)
include h

/-- One page of an unmapping pass: the Words it leaves off the bitmap. -/
theorem read_unmapPage (m : Memory) (tb v : Nat) {a : Nat} (ha : a < c.memWords) (hb : OffBitmap c a) :
    (unmapPage c m tb v).mem.read c a =
      if a = tb + v ∧ pteValid (m.read c (tb + v)) = true then m.read c a &&& 0xFFFE#16 else m.read c a := by
  rcases unmapPage_spec c m tb v with ⟨hv, he⟩ | ⟨hv, he⟩ <;> rw [he]
  · simp [hv]
  · simp only [read_write _ _ _ ha, hv, and_true]
    split_ifs with hav
    · rw [hav]
    · exact read_markFree m ha (ne_bmWord h hb)

/-- One page of an unmapping pass, on a table past the bitmap: the bits of the bitmap it leaves set. -/
theorem isFree_unmapPage (m : Memory) {tb : Nat} (htb : c.bitmapAddr + c.bitmapWords ≤ tb) (v : Nat) {g : Nat}
    (hg : g < 16 * c.bitmapWords) : isFree c (unmapPage c m tb v).mem g = (isFree c m g ||
      (pteValid (m.read c (tb + v)) && decide (g = pteFrame c (m.read c (tb + v)) ∧ g < c.numFrames))) := by
  rcases unmapPage_spec c m tb v with ⟨hv, he⟩ | ⟨hv, he⟩ <;> rw [he]
  · simp [hv]
  · have := bmWord_lt h hg
    rw [isFree_write h _ _ hg (by omega), isFree_markFree h m _ hg, hv, Bool.true_and]

/-- R92: after unmapping the listed pages, what each Word off the bitmap holds. -/
theorem read_unmapEach (tb : Nat) {a : Nat} (ha : a < c.memWords) (hb : OffBitmap c a)
    (vs : List Nat) (hvs : vs.Nodup) (m : Memory) :
    (unmapEach c tb vs m).read c a =
      if (∃ v ∈ vs, a = tb + v) ∧ pteValid (m.read c a) = true then m.read c a &&& 0xFFFE#16 else m.read c a := by
  induction vs generalizing m with
  | nil => simp [unmapEach]
  | cons v vs ih =>
    obtain ⟨hv, hvs⟩ := List.nodup_cons.1 hvs
    rw [unmapEach_cons, ih hvs, read_unmapPage h m tb v ha hb]
    by_cases hav : a = tb + v
    · subst hav
      by_cases hval : pteValid (m.read c (tb + v)) = true
      · simp [hval, pteValid_clear]
      · simp [hval]
    · simp [hav]

/-- R92: after unmapping the listed pages, which bits of the bitmap are set. -/
theorem isFree_unmapEach {tb : Nat} (htb : c.bitmapAddr + c.bitmapWords ≤ tb) {g : Nat} (hg : g < 16 * c.bitmapWords)
    (vs : List Nat) (hvs : vs.Nodup) (hin : ∀ v ∈ vs, tb + v < c.memWords) (m : Memory) :
    isFree c (unmapEach c tb vs m) g = true ↔ isFree c m g = true ∨
      ∃ v ∈ vs, pteValid (m.read c (tb + v)) = true ∧ pteFrame c (m.read c (tb + v)) = g ∧ g < c.numFrames := by
  induction vs generalizing m with
  | nil => simp [unmapEach]
  | cons v vs ih =>
    obtain ⟨hv, hvs⟩ := List.nodup_cons.1 hvs
    have hrd : ∀ u ∈ vs, (unmapPage c m tb v).mem.read c (tb + u) = m.read c (tb + u) := fun u hu => by
      rw [read_unmapPage h m tb v (hin u (by simp [hu])) (.inr (by omega)), if_neg]
      rintro ⟨h, -⟩
      exact hv (by rwa [show v = u by omega])
    rw [unmapEach_cons, ih hvs fun u hu => hin u (by simp [hu]), isFree_unmapPage h m htb v hg]
    simp only [Bool.or_eq_true, Bool.and_eq_true, decide_eq_true_eq, List.mem_cons, exists_eq_or_imp,
      or_assoc]
    constructor
    · rintro (h | ⟨h1, h2⟩ | ⟨u, hu, h⟩)
      · exact .inl h
      · exact .inr (.inl ⟨h1, h2.1.symm, h2.2⟩)
      · exact .inr (.inr ⟨u, hu, by rwa [hrd u hu] at h⟩)
    · rintro (h | ⟨h1, h2⟩ | ⟨u, hu, h⟩)
      · exact .inl h
      · exact .inr (.inl ⟨h1, h2.1.symm, h2.2⟩)
      · exact .inr (.inr ⟨u, hu, by rwa [hrd u hu]⟩)

/-- R92: unmapping a whole table leaves none of its entries valid and every other Word off the bitmap. -/
theorem read_unmapAll (m : Memory) (tb : Nat) {a : Nat} (ha : a < c.memWords) (hb : OffBitmap c a) :
    (unmapAll c m tb).read c a =
      if (tb ≤ a ∧ a < tb + c.ptEntries) ∧ pteValid (m.read c a) = true then m.read c a &&& 0xFFFE#16
      else m.read c a := by
  unfold unmapAll
  rw [read_unmapEach h tb ha hb _ List.nodup_range]
  have : (∃ v ∈ List.range c.ptEntries, a = tb + v) ↔ tb ≤ a ∧ a < tb + c.ptEntries := by
    simp only [List.mem_range]
    exact ⟨fun ⟨v, h1, h2⟩ => by omega, fun h => ⟨a - tb, by omega, by omega⟩⟩
  simp only [this]

/-- R92: unmapping a whole table frees exactly the frames its valid entries name. -/
theorem isFree_unmapAll (m : Memory) {tb : Nat} (htb : c.bitmapAddr + c.bitmapWords ≤ tb)
    (hin : tb + c.ptEntries ≤ c.memWords) {g : Nat} (hg : g < 16 * c.bitmapWords) :
    isFree c (unmapAll c m tb) g = true ↔ isFree c m g = true ∨
      ∃ v, v < c.ptEntries ∧ pteValid (m.read c (tb + v)) = true ∧ pteFrame c (m.read c (tb + v)) = g ∧
        g < c.numFrames := by
  unfold unmapAll
  rw [isFree_unmapEach h htb hg _ List.nodup_range fun v hv => by have := List.mem_range.1 hv; omega]
  simp only [List.mem_range]

end unmap

end Sys2Proof.Machine
end

