-- ==== Sys2Proof/Laws/State.lean ====
section
/-! SUPPORT. One lemma per field of State per update, true by `rfl`. -/

namespace Sys2Proof.Machine

section respond
variable (s : State) (st : Status) (v : Word)
@[simp] theorem respond_mem : (s.respond st v).mem = s.mem := rfl
@[simp] theorem respond_pc : (s.respond st v).pc = s.pc := rfl
@[simp] theorem respond_ptbr : (s.respond st v).ptbr = s.ptbr := rfl
@[simp] theorem respond_running : (s.respond st v).running = s.running := rfl
@[simp] theorem respond_fault : (s.respond st v).fault = s.fault := rfl
@[simp] theorem respond_log : (s.respond st v).log = s.log := rfl
@[simp] theorem respond_everLoaded : (s.respond st v).everLoaded = s.everLoaded := rfl
@[simp] theorem respond_response : (s.respond st v).response = some ⟨st, v⟩ := rfl
@[simp] theorem respond_input : (s.respond st v).input = s.input := rfl
@[simp] theorem respond_params : (s.respond st v).params = s.params := rfl
end respond

section diag
variable (s : State) (c : DiagCode) (a b : Word)
@[simp] theorem diag_mem : (s.diag c a b).mem = s.mem := rfl
@[simp] theorem diag_pc : (s.diag c a b).pc = s.pc := rfl
@[simp] theorem diag_ptbr : (s.diag c a b).ptbr = s.ptbr := rfl
@[simp] theorem diag_running : (s.diag c a b).running = s.running := rfl
@[simp] theorem diag_fault : (s.diag c a b).fault = s.fault := rfl
@[simp] theorem diag_log : (s.diag c a b).log = s.log ++ [⟨c, a, b⟩] := rfl
@[simp] theorem diag_everLoaded : (s.diag c a b).everLoaded = s.everLoaded := rfl
@[simp] theorem diag_response : (s.diag c a b).response = s.response := rfl
@[simp] theorem diag_input : (s.diag c a b).input = s.input := rfl
@[simp] theorem diag_params : (s.diag c a b).params = s.params := rfl
end diag

section finish
variable (s : State) (r : Ret)
@[simp] theorem finish_mem : (s.finish r).mem = r.mem := rfl
@[simp] theorem finish_pc : (s.finish r).pc = s.pc := rfl
@[simp] theorem finish_ptbr : (s.finish r).ptbr = s.ptbr := rfl
@[simp] theorem finish_running : (s.finish r).running = s.running := rfl
@[simp] theorem finish_fault : (s.finish r).fault = s.fault := rfl
@[simp] theorem finish_log : (s.finish r).log = s.log := rfl
@[simp] theorem finish_everLoaded : (s.finish r).everLoaded = s.everLoaded := rfl
@[simp] theorem finish_response : (s.finish r).response = some ⟨r.status, r.value⟩ := rfl
@[simp] theorem finish_input : (s.finish r).input = s.input := rfl
@[simp] theorem finish_params : (s.finish r).params = s.params := rfl
end finish

section refuse
variable (s : State)
@[simp] theorem refuse_mem : (refuse s).mem = s.mem := rfl
@[simp] theorem refuse_pc : (refuse s).pc = s.pc := rfl
@[simp] theorem refuse_ptbr : (refuse s).ptbr = s.ptbr := rfl
@[simp] theorem refuse_running : (refuse s).running = s.running := rfl
@[simp] theorem refuse_fault : (refuse s).fault = s.fault := rfl
@[simp] theorem refuse_log : (refuse s).log = s.log := rfl
@[simp] theorem refuse_everLoaded : (refuse s).everLoaded = s.everLoaded := rfl
@[simp] theorem refuse_response : (refuse s).response = some ⟨.refused, 0⟩ := rfl
@[simp] theorem refuse_input : (refuse s).input = s.input := rfl
@[simp] theorem refuse_params : (refuse s).params = s.params := rfl
end refuse

section loadProcess
variable (s : State) (p : Nat)
@[simp] theorem loadProcess_mem :
    (loadProcess s p).mem = s.mem.write s.cfg s.cfg.curPidAddr (BitVec.ofNat 16 p) := rfl
@[simp] theorem loadProcess_pc :
    (loadProcess s p).pc = (s.mem.write s.cfg s.cfg.curPidAddr (BitVec.ofNat 16 p)).read s.cfg (pcb s.cfg p + 1) := rfl
@[simp] theorem loadProcess_ptbr :
    (loadProcess s p).ptbr = (s.mem.write s.cfg s.cfg.curPidAddr (BitVec.ofNat 16 p)).read s.cfg (pcb s.cfg p + 2) :=
  rfl
@[simp] theorem loadProcess_running : (loadProcess s p).running = s.running := rfl
@[simp] theorem loadProcess_fault : (loadProcess s p).fault = s.fault := rfl
@[simp] theorem loadProcess_log : (loadProcess s p).log = s.log := rfl
@[simp] theorem loadProcess_everLoaded : (loadProcess s p).everLoaded = insertPid p s.everLoaded := rfl
@[simp] theorem loadProcess_response : (loadProcess s p).response = s.response := rfl
@[simp] theorem loadProcess_input : (loadProcess s p).input = s.input := rfl
@[simp] theorem loadProcess_params : (loadProcess s p).params = s.params := rfl
end loadProcess

section saveContext
variable (s : State) (p : Nat)
@[simp] theorem saveContext_mem :
    (saveContext s p).mem = (s.mem.write s.cfg (pcb s.cfg p + 1) s.pc).write s.cfg (pcb s.cfg p + 2) s.ptbr := rfl
@[simp] theorem saveContext_pc : (saveContext s p).pc = s.pc := rfl
@[simp] theorem saveContext_ptbr : (saveContext s p).ptbr = s.ptbr := rfl
@[simp] theorem saveContext_running : (saveContext s p).running = s.running := rfl
@[simp] theorem saveContext_fault : (saveContext s p).fault = s.fault := rfl
@[simp] theorem saveContext_log : (saveContext s p).log = s.log := rfl
@[simp] theorem saveContext_everLoaded : (saveContext s p).everLoaded = s.everLoaded := rfl
@[simp] theorem saveContext_response : (saveContext s p).response = s.response := rfl
@[simp] theorem saveContext_input : (saveContext s p).input = s.input := rfl
@[simp] theorem saveContext_params : (saveContext s p).params = s.params := rfl
end saveContext

section retire
variable (s : State) (p : Nat)
@[simp] theorem retire_mem :
    (retire s p).mem = (unmapAll s.cfg s.mem s.ptbr.toNat).write s.cfg (pcb s.cfg p) (terminatedWord s.cfg) := rfl
@[simp] theorem retire_pc : (retire s p).pc = s.pc := rfl
@[simp] theorem retire_ptbr : (retire s p).ptbr = s.ptbr := rfl
@[simp] theorem retire_running : (retire s p).running = s.running := rfl
@[simp] theorem retire_fault : (retire s p).fault = s.fault := rfl
@[simp] theorem retire_log : (retire s p).log = s.log := rfl
@[simp] theorem retire_everLoaded : (retire s p).everLoaded = s.everLoaded := rfl
@[simp] theorem retire_response : (retire s p).response = s.response := rfl
@[simp] theorem retire_input : (retire s p).input = s.input := rfl
@[simp] theorem retire_params : (retire s p).params = s.params := rfl
end retire

section raiseFault
variable (s : State) (c : FaultCause) (va : Word) (k : AccessKind)
@[simp] theorem raiseFault_mem : (raiseFault s c va k).mem = s.mem := by cases c <;> rfl
@[simp] theorem raiseFault_pc : (raiseFault s c va k).pc = s.pc := by cases c <;> rfl
@[simp] theorem raiseFault_ptbr : (raiseFault s c va k).ptbr = s.ptbr := by cases c <;> rfl
@[simp] theorem raiseFault_running : (raiseFault s c va k).running = s.running := by cases c <;> rfl
@[simp] theorem raiseFault_fault : (raiseFault s c va k).fault = ⟨c, va, k⟩ := by cases c <;> rfl
@[simp] theorem raiseFault_everLoaded : (raiseFault s c va k).everLoaded = s.everLoaded := by
  cases c <;> rfl
@[simp] theorem raiseFault_response : (raiseFault s c va k).response = some ⟨.fault, c.code⟩ := by
  cases c <;> rfl
@[simp] theorem raiseFault_input : (raiseFault s c va k).input = s.input := by cases c <;> rfl
/-- R104, R111: a fault logs its own event, with the address and the current pid. -/
theorem raiseFault_log (d : DiagCode) (h : c.diag = some d) :
    (raiseFault s c va k).log = s.log ++ [⟨d, va, s.curPid⟩] := by
  cases c <;> simp_all [FaultCause.diag] <;> subst h <;> rfl
@[simp] theorem raiseFault_params : (raiseFault s c va k).params = s.params := by cases c <;> rfl
end raiseFault

section setPc
variable (s : State) (v : Word)
@[simp] theorem setPc_mem : (setPc s v).mem = s.mem := rfl
@[simp] theorem setPc_pc : (setPc s v).pc = if s.runEnable then v else s.pc := rfl
@[simp] theorem setPc_ptbr : (setPc s v).ptbr = s.ptbr := rfl
@[simp] theorem setPc_running : (setPc s v).running = s.running := rfl
@[simp] theorem setPc_fault : (setPc s v).fault = s.fault := rfl
@[simp] theorem setPc_log : (setPc s v).log = s.log := rfl
@[simp] theorem setPc_everLoaded : (setPc s v).everLoaded = s.everLoaded := rfl
@[simp] theorem setPc_response : (setPc s v).response = s.response := rfl
@[simp] theorem setPc_input : (setPc s v).input = s.input := rfl
@[simp] theorem setPc_params : (setPc s v).params = s.params := rfl
end setPc

section resetAt
variable (p : Params)
@[simp] theorem resetAt_mem : (State.resetAt p).mem = [] := rfl
@[simp] theorem resetAt_pc : (State.resetAt p).pc = 0 := rfl
@[simp] theorem resetAt_ptbr : (State.resetAt p).ptbr = 0 := rfl
@[simp] theorem resetAt_running : (State.resetAt p).running = true := rfl
@[simp] theorem resetAt_fault : (State.resetAt p).fault = ⟨.none, 0, .read⟩ := rfl
@[simp] theorem resetAt_log : (State.resetAt p).log = [] := rfl
@[simp] theorem resetAt_everLoaded : (State.resetAt p).everLoaded = [] := rfl
@[simp] theorem resetAt_response : (State.resetAt p).response = none := rfl
@[simp] theorem resetAt_input : (State.resetAt p).input = [] := rfl
@[simp] theorem resetAt_params : (State.resetAt p).params = p := rfl
end resetAt

section applyReset
variable (s : State)
@[simp] theorem applyReset_mem : (applyReset s).mem = (State.resetAt s.params).mem := rfl
@[simp] theorem applyReset_pc : (applyReset s).pc = (State.resetAt s.params).pc := rfl
@[simp] theorem applyReset_ptbr : (applyReset s).ptbr = (State.resetAt s.params).ptbr := rfl
@[simp] theorem applyReset_running : (applyReset s).running = (State.resetAt s.params).running := rfl
@[simp] theorem applyReset_fault : (applyReset s).fault = (State.resetAt s.params).fault := rfl
@[simp] theorem applyReset_log : (applyReset s).log = (State.resetAt s.params).log := rfl
@[simp] theorem applyReset_everLoaded : (applyReset s).everLoaded = (State.resetAt s.params).everLoaded := rfl
@[simp] theorem applyReset_response : (applyReset s).response = (State.resetAt s.params).response := rfl
@[simp] theorem applyReset_input : (applyReset s).input = s.input := rfl
@[simp] theorem applyReset_params : (applyReset s).params = s.params := rfl
end applyReset

section placeFirst
variable (s : State) (e : Encoded)
@[simp] theorem placeFirst_mem : (placeFirst s e).mem = s.mem := rfl
@[simp] theorem placeFirst_pc : (placeFirst s e).pc = s.pc := rfl
@[simp] theorem placeFirst_ptbr : (placeFirst s e).ptbr = s.ptbr := rfl
@[simp] theorem placeFirst_running : (placeFirst s e).running = s.running := rfl
@[simp] theorem placeFirst_fault : (placeFirst s e).fault = s.fault := rfl
@[simp] theorem placeFirst_log : (placeFirst s e).log = s.log := rfl
@[simp] theorem placeFirst_everLoaded : (placeFirst s e).everLoaded = s.everLoaded := rfl
@[simp] theorem placeFirst_response : (placeFirst s e).response = s.response := rfl
@[simp] theorem placeFirst_input : (placeFirst s e).input = .issue e :: s.input := rfl
@[simp] theorem placeFirst_params : (placeFirst s e).params = s.params := rfl
end placeFirst

end Sys2Proof.Machine
end

