-- ==== Sys2Proof/Laws/Ops.lean ====
section
/-! SUPPORT. One lemma per shared operation that says everything it can do: refusal (30_encoding.md R53),
translation and access (42_translate.md R70), the scan (44_traps.md R90), the bodies of the three traps (44
R91 to R93), and one step. -/

namespace Sys2Proof.Machine

open Sys2Proof.Safety

/-! ### Refusal -/

theorem runEnable_iff (s : State) : s.runEnable = true ↔ s.running = true ∧ s.fault.cause = .none := by
  simp [State.runEnable]

/-- R53 (a), (b): an ended run refuses. -/
theorem unlessRefused_of_ended {s : State} (h : s.runEnable = false) (r p : Bool) (body : State → State) :
    unlessRefused s r p body = .next (refuse s) := by
  unfold unlessRefused refusedBy
  by_cases hc : s.fault.cause = .none
  · have : s.running = false := by simpa [State.runEnable, hc] using h
    simp [hc, this]
  · simp [hc]

/-- R53 (d): an operand out of range is refused. -/
theorem unlessRefused_of_outOfRange (s : State) (p : Bool) (body : State → State) :
    unlessRefused s false p body = .next (refuse s) := by
  unfold unlessRefused refusedBy
  by_cases hc : s.fault.cause = .none <;> by_cases hr : s.running = true <;> simp [hc, hr]

/-- R53 (e): with no current process the operation is refused. -/
theorem unlessRefused_of_noProcess {s : State} (h : s.curPid = noProcessWord s.cfg) (r : Bool)
    (body : State → State) : unlessRefused s r true body = .next (refuse s) := by
  unfold unlessRefused refusedBy
  by_cases hc : s.fault.cause = .none <;> by_cases hr : s.running = true <;> cases r <;> simp [hc, hr, h]

/-- R53: a command that meets no refusal condition runs its body. -/
theorem unlessRefused_of_accepted {s : State} (h : s.runEnable = true) {p : Bool}
    (hp : p = true → s.curPid ≠ noProcessWord s.cfg) (body : State → State) :
    unlessRefused s true p body = .next (body s) := by
  obtain ⟨h1, h2⟩ := (runEnable_iff s).1 h
  unfold unlessRefused refusedBy
  cases p
  · simp [h1, h2]
  · simp [h1, h2, hp rfl]

/-- R53: everything `unlessRefused` can do. -/
theorem unlessRefused_spec (s : State) (r p : Bool) (body : State → State) :
    unlessRefused s r p body = .next (refuse s) ∨
      (s.runEnable = true ∧ r = true ∧ (p = true → s.curPid ≠ noProcessWord s.cfg) ∧
        unlessRefused s r p body = .next (body s)) := by
  by_cases h : s.runEnable = true
  · cases r
    · exact .inl (unlessRefused_of_outOfRange s p body)
    · by_cases hp : p = true → s.curPid ≠ noProcessWord s.cfg
      · exact .inr ⟨h, rfl, hp, unlessRefused_of_accepted h hp body⟩
      · push Not at hp
        obtain ⟨rfl, hc⟩ := hp
        exact .inl (unlessRefused_of_noProcess hc true body)
  · exact .inl (unlessRefused_of_ended (by simpa using h) r p body)

/-- R53, R45: a command always completes. -/
theorem unlessRefused_next (s : State) (r p : Bool) (body : State → State) :
    ∃ t, unlessRefused s r p body = .next t := by
  rcases unlessRefused_spec s r p body with h | ⟨_, _, _, h⟩ <;> exact ⟨_, h⟩

/-! ### Translation -/

/-- R70: everything `translate` can do, the three checks in order; `e` is the entry it reads. -/
theorem translate_spec (s : State) (va : Word) (k : AccessKind) {e : Word}
    (he : s.word (s.ptbr.toNat + vpnOf s.cfg va) = e) :
    (vpnOf s.cfg va < s.cfg.reservedVpnBoundary ∧ translate s va k = .violation .reservedRegion) ∨
    (s.cfg.reservedVpnBoundary ≤ vpnOf s.cfg va ∧ pteValid e = false ∧ translate s va k = .violation .unmappedAccess) ∨
    (s.cfg.reservedVpnBoundary ≤ vpnOf s.cfg va ∧ pteValid e = true ∧ pteAllows e k = false ∧
      translate s va k = .violation .permissionViolation) ∨
    (s.cfg.reservedVpnBoundary ≤ vpnOf s.cfg va ∧ pteValid e = true ∧ pteAllows e k = true ∧
      translate s va k = .address (physAddr s.cfg (pteFrame s.cfg e) (offsetOf s.cfg va))) := by
  unfold translate
  simp only [he]
  by_cases hr : vpnOf s.cfg va < s.cfg.reservedVpnBoundary
  · exact .inl ⟨hr, by simp [hr]⟩
  · right
    have hr' : s.cfg.reservedVpnBoundary ≤ vpnOf s.cfg va := by omega
    cases hv : pteValid e with
    | false => exact .inl ⟨hr', rfl, by simp [hr]⟩
    | true =>
      right
      cases ha : pteAllows e k with
      | false => exact .inl ⟨hr', rfl, rfl, by simp [hr]⟩
      | true => exact .inr ⟨hr', rfl, rfl, by simp [hr]⟩

/-- R35, R56: an address translated through an entry that names a frame is a Word of M. -/
theorem translate_address_lt {s : State} {va : Word} {k : AccessKind} {pa : Nat} (ht : translate s va k = .address pa)
    (hf : pteFrame s.cfg (s.word (s.ptbr.toNat + vpnOf s.cfg va)) < s.cfg.numFrames) : pa < s.cfg.memWords := by
  rcases translate_spec s va k rfl with ⟨_, he⟩ | ⟨_, _, he⟩ | ⟨_, _, _, he⟩ | ⟨_, _, _, he⟩ <;>
    rw [he] at ht
  all_goals cases ht
  exact physAddr_lt s.params.wellFormed hf (offsetOf_lt s.params.wellFormed va)

/-- R70, R104: an access goes on at a translated address or enters a fault. -/
theorem access_spec (s : State) (va : Word) (k : AccessKind) (f : Nat → State) :
    (∃ pa, translate s va k = .address pa ∧ access s va k f = f pa) ∨
    (∃ cause, cause ≠ .none ∧ translate s va k = .violation cause ∧ access s va k f = raiseFault s cause va k) := by
  unfold access
  rcases translate_spec s va k rfl with ⟨_, he⟩ | ⟨_, _, he⟩ | ⟨_, _, _, he⟩ | ⟨_, _, _, he⟩ <;> rw [he]
  · exact .inr ⟨_, by decide, rfl, rfl⟩
  · exact .inr ⟨_, by decide, rfl, rfl⟩
  · exact .inr ⟨_, by decide, rfl, rfl⟩
  · exact .inl ⟨_, rfl, rfl⟩

/-! ### The scheduler scan -/

/-- R90: everything the scan can do over the distances still to look at. -/
theorem scan_spec (c : Config) (m : Memory) (n cur : Nat) (ks : List Nat) :
    (∃ as k bs, ks = as ++ k :: bs ∧ (∀ j ∈ as, notTerminated c m ((cur + j) % n) = false) ∧
      notTerminated c m ((cur + k) % n) = true ∧ scan c m n cur ks = some ((cur + k) % n)) ∨
    ((∀ j ∈ ks, notTerminated c m ((cur + j) % n) = false) ∧ scan c m n cur ks = none) := by
  induction ks with
  | nil => exact .inr ⟨by simp, rfl⟩
  | cons k ks ih =>
    cases ht : notTerminated c m ((cur + k) % n) with
    | true => exact .inl ⟨[], k, ks, rfl, by simp, ht, by simp [scan, ht]⟩
    | false =>
      have hstep : scan c m n cur (k :: ks) = scan c m n cur ks := by simp [scan, ht]
      rcases ih with ⟨as, j, bs, he, h1, h2, h3⟩ | ⟨h1, h2⟩
      · exact .inl ⟨k :: as, j, bs, by rw [he]; rfl, by simp [ht]; exact h1, h2, by rw [hstep, h3]⟩
      · exact .inr ⟨by simp [ht]; exact h1, by rw [hstep, h2]⟩

/-- R90: a pid the scan answers is the first after `cur`. -/
theorem nextLive_some {c : Config} {m : Memory} {cur p : Nat} (h : nextLive c m cur = some p) :
    FirstAfter c m cur p := by
  unfold nextLive at h
  rcases scan_spec c m (procCount c m) cur (List.range' 1 (procCount c m)) with
    ⟨as, k, bs, he, h1, h2, h3⟩ | ⟨_, h2⟩
  · rw [h3] at h
    injection h with h
    have hk : k ∈ List.range' 1 (procCount c m) := by rw [he]; simp
    rw [List.mem_range'_1] at hk
    refine ⟨k, hk.1, by omega, h.symm, by rw [← h]; exact h2, fun j hj1 hj2 => h1 j ?_⟩
    have hj : j ∈ List.range' 1 (procCount c m) := by rw [List.mem_range'_1]; omega
    have hs : (List.range' 1 (procCount c m)).Pairwise (· < ·) := List.pairwise_lt_range' ..
    rw [he] at hj hs
    rcases List.mem_append.1 hj with hj | hj
    · exact hj
    · rcases List.mem_cons.1 hj with rfl | hj
      · omega
      · have := (List.pairwise_cons.1 (List.pairwise_append.1 hs).2.1).1 j hj
        omega
  · rw [h2] at h; cases h

/-- R90: the first pid after `cur` is one pid. -/
theorem FirstAfter_unique {c : Config} {m : Memory} {cur p q : Nat} (hp : FirstAfter c m cur p)
    (hq : FirstAfter c m cur q) :
    p = q := by
  obtain ⟨k, k1, _, rfl, kt, kl⟩ := hp
  obtain ⟨j, j1, _, rfl, jt, jl⟩ := hq
  rcases Nat.lt_trichotomy j k with h | rfl | h
  · simp [kl j j1 h] at jt
  · rfl
  · simp [jl k k1 h] at kt

/-- R90: the scan answers the first pid after `cur` if there is one, in every state. -/
theorem nextLive_eq_of_first {c : Config} {m : Memory} {cur p : Nat} (h : FirstAfter c m cur p) :
    nextLive c m cur = some p := by
  obtain ⟨k, k1, k2, rfl, kt, kl⟩ := h
  have hk : k ∈ List.range' 1 (procCount c m) := by rw [List.mem_range'_1]; omega
  rcases scan_spec c m (procCount c m) cur (List.range' 1 (procCount c m)) with
    ⟨as, j, bs, he, h1, h2, h3⟩ | ⟨h1, _⟩
  · have hs : nextLive c m cur = some ((cur + j) % procCount c m) := h3
    rw [hs, FirstAfter_unique (nextLive_some hs) ⟨k, k1, k2, rfl, kt, kl⟩]
  · simp [h1 k hk] at kt

/-- R90, R96: with no created pid live, the scan answers none, in every state. -/
theorem nextLive_eq_none {c : Config} {m : Memory} {cur : Nat} (h : AllTerminated c m) : nextLive c m cur = none := by
  rcases Nat.eq_zero_or_pos (procCount c m) with h0 | h0
  · unfold nextLive; rw [h0]; rfl
  rcases scan_spec c m (procCount c m) cur (List.range' 1 (procCount c m)) with ⟨as, j, bs, _, _, h2, _⟩ | ⟨_, h2⟩
  · simp [h _ (Nat.mod_lt (cur + j) h0)] at h2
  · exact h2

/-! ### The trap bodies -/

/-- R91, R96: everything YIELD's body can do: it saves the context and either loads the pid the scan finds or
changes nothing else. -/
theorem yieldBody_spec (s : State) :
    (∃ p, nextLive s.cfg (saveContext s s.curPid.toNat).mem s.curPid.toNat = some p ∧
      yieldBody s = (loadProcess (saveContext s s.curPid.toNat) p).respond .ok (BitVec.ofNat 16 p)) ∨
    (nextLive s.cfg (saveContext s s.curPid.toNat).mem s.curPid.toNat = none ∧
      yieldBody s = (saveContext s s.curPid.toNat).respond .ok (noProcessWord s.cfg)) := by
  unfold yieldBody
  simp only
  cases h : nextLive s.cfg (saveContext s s.curPid.toNat).mem s.curPid.toNat with
  | none => exact .inr ⟨rfl, rfl⟩
  | some p => exact .inl ⟨p, rfl, rfl⟩

/-- R92: everything HALT's body can do: it retires the current process and either loads the pid the scan finds
or stops the run. -/
theorem haltBody_spec (s : State) :
    (∃ p, nextLive s.cfg (retire s s.curPid.toNat).mem s.curPid.toNat = some p ∧
      haltBody s = (loadProcess (retire s s.curPid.toNat) p).respond .ok (BitVec.ofNat 16 p)) ∨
    (nextLive s.cfg (retire s s.curPid.toNat).mem s.curPid.toNat = none ∧
      haltBody s = { retire s s.curPid.toNat with running := false }.respond .ok (noProcessWord s.cfg)) := by
  unfold haltBody
  simp only
  cases h : nextLive s.cfg (retire s s.curPid.toNat).mem s.curPid.toNat with
  | none => exact .inr ⟨rfl, rfl⟩
  | some p => exact .inl ⟨p, rfl, rfl⟩

/-- R93: everything BRK's body does: the memory is what `map` or `unmap` leaves, the log gains at most the event
of R111, and nothing but memory, log and response changes. -/
theorem brkBody_spec (s : State) (vpn : Nat) (r w g : Bool) :
    brkBody vpn r w g s = { s with
      mem := (brkRet s vpn r w g).mem
      log := s.log ++ ((brkDiag g (brkRet s vpn r w g).status).map
        (fun d => (⟨d, BitVec.ofNat 16 vpn, s.curPid⟩ : DiagEvent))).toList
      response := some ⟨.ok, 0⟩ } := by
  unfold brkBody
  simp only
  generalize brkRet s vpn r w g = ret
  cases brkDiag g ret.status <;> simp [State.respond, State.diag]

/-! ### One step -/

/-- R45, R124: everything a step can be. -/
theorem step_cases (s : State) :
    (s.input = [] ∧ step s = .next s) ∨
    (∃ i rest, s.input = i :: rest ∧
      ((∃ e j, i = .issue e ∧ decode s.cfg e = .ok j ∧ step s = exec j { s with input := rest }) ∨
       (∃ e err, i = .issue e ∧ decode s.cfg e = .error err ∧
          step s = .next (settleUndecoded { s with input := rest } err)) ∨
       (∃ v, i = .setPc v ∧ step s = .next (setPc { s with input := rest } v)) ∨
       (i = .reset ∧ step s = .next { State.resetAt s.params with input := rest }))) := by
  unfold step fetch
  cases hi : s.input with
  | nil => exact .inl ⟨rfl, rfl⟩
  | cons i rest =>
    refine .inr ⟨i, rest, rfl, ?_⟩
    cases i with
    | issue e =>
      cases hd : decode s.cfg e with
      | ok j => exact .inl ⟨e, j, rfl, hd, by simp [takeInput, hd]⟩
      | error err => exact .inr (.inl ⟨e, err, rfl, hd, by simp [takeInput, hd]⟩)
    | setPc v => exact .inr (.inr (.inl ⟨v, rfl, rfl⟩))
    | reset => exact .inr (.inr (.inr ⟨rfl, rfl⟩))

end Sys2Proof.Machine
end

