-- ==== Sys2Proof/Laws/Create.lean ====
section
/-! SUPPORT. What process creation can do (43_process_lifecycle.md R81 to R83): the table clear, the mapping
passes, the image copy, and the canonical form they keep. -/

namespace Sys2Proof.Machine

variable {c : Config}

/-- R81: after the table clear. -/
theorem read_clearEach (tb : Nat) {a : Nat} (ha : a < c.memWords) (vs : List Nat) (m : Memory) :
    (clearEach c tb vs m).read c a = if ∃ v ∈ vs, a = tb + v then 0#16 else m.read c a := by
  induction vs generalizing m with
  | nil => simp [clearEach]
  | cons v vs ih =>
    rw [clearEach, ih, read_write _ _ _ ha]
    by_cases h : ∃ u ∈ vs, a = tb + u <;> by_cases hv : a = tb + v <;> simp [h, hv]

theorem read_clearTable (m : Memory) (tb : Nat) {a : Nat} (ha : a < c.memWords) :
    (clearTable c m tb).read c a = if tb ≤ a ∧ a < tb + c.ptEntries then 0#16 else m.read c a := by
  unfold clearTable
  rw [read_clearEach tb ha]
  have : (∃ v ∈ List.range c.ptEntries, a = tb + v) ↔ tb ≤ a ∧ a < tb + c.ptEntries := by
    simp only [List.mem_range]
    exact ⟨fun ⟨v, h1, h2⟩ => by omega, fun h => ⟨a - tb, by omega, by omega⟩⟩
  simp only [this]

theorem wf_clearEach (tb : Nat) (vs : List Nat) {m : Memory} (hm : m.wf c = true) :
    (clearEach c tb vs m).wf c = true := by
  induction vs generalizing m with
  | nil => exact hm
  | cons v vs ih => exact ih (wf_write hm _ _)

/-- R81: a mapping pass writes only the bitmap and the entries it maps. -/
theorem read_mapEach (h : c.wellFormed = true) {tb : Nat} (r w : Bool) {a : Nat} (ha : a < c.memWords)
    (hb : OffBitmap c a) (vs : List Nat) (hvs : ∀ v ∈ vs, a ≠ tb + v) (m : Memory) :
    (mapEach c tb r w vs m).2.read c a = m.read c a := by
  induction vs generalizing m with
  | nil => rfl
  | cons v vs ih =>
    have hv := hvs v (by simp)
    have hr : (mapPage c m tb v r w).mem.read c a = m.read c a := by
      rcases mapPage_spec h m tb v r w with ⟨_, he⟩ | ⟨_, _, he⟩ | ⟨_, f, _, hf, _, _, he⟩ <;> rw [he]
      rw [read_write_of_ne _ _ ha hv, read_markUsed m ha (ne_bmWord h hb hf)]
    unfold mapEach
    simp only
    split_ifs
    · rw [ih (fun u hu => hvs u (by simp [hu])), hr]
    · exact hr

theorem wf_mapEach (h : c.wellFormed = true) (tb : Nat) (r w : Bool) (vs : List Nat) {m : Memory}
    (hm : m.wf c = true) : (mapEach c tb r w vs m).2.wf c = true := by
  induction vs generalizing m with
  | nil => exact hm
  | cons v vs ih =>
    have hr := wf_mapPage h hm tb v r w
    unfold mapEach
    simp only
    split_ifs
    · exact ih hr
    · exact hr

theorem copyImage_cons (c : Config) (tb base k : Nat) (w : Word) (ws : List Word) (m : Memory) :
    copyImage c tb base k (w :: ws) m = copyImage c tb base (k + 1) ws
      (m.write c (physAddr c (pteFrame c (m.read c (tb + base + k / c.pageWords))) (k % c.pageWords)) w) := rfl

theorem wf_copyImage (tb base : Nat) (ws : List Word) (k : Nat) {m : Memory} (hm : m.wf c = true) :
    (copyImage c tb base k ws m).wf c = true := by
  induction ws generalizing k m with
  | nil => exact hm
  | cons w ws ih =>
    rw [copyImage_cons]
    exact ih (k + 1) (wf_write hm _ w)

/-- R82: the physical address Word `k` of a segment lands at, when `fr` gives the frame of each of its pages. -/
def imageAddr (c : Config) (fr : Nat → Nat) (k : Nat) : Nat := physAddr c (fr (k / c.pageWords)) (k % c.pageWords)

/-- R82: what the image copy relies on: every page it reaches has its entry in a reserved frame, naming
frame `fr` of that page, and every such frame is assignable. -/
def SegmentMapped (c : Config) (m : Memory) (tb base : Nat) (fr : Nat → Nat) (k len : Nat) : Prop :=
  ∀ i, i < len → tb + base + (k + i) / c.pageWords < c.reservedFrames * c.pageWords ∧
    pteFrame c (m.read c (tb + base + (k + i) / c.pageWords)) = fr ((k + i) / c.pageWords) ∧
    c.reservedFrames ≤ fr ((k + i) / c.pageWords) ∧ fr ((k + i) / c.pageWords) < c.numFrames

section copy
variable (h : c.wellFormed = true)
include h

theorem SegmentMapped_tail {m : Memory} {tb base : Nat} {fr : Nat → Nat} {k n : Nat}
    (hm : SegmentMapped c m tb base fr k (n + 1)) {b : Nat} (hb : c.reservedFrames * c.pageWords ≤ b) (w : Word) :
    SegmentMapped c (m.write c b w) tb base fr (k + 1) n := fun i hi => by
  have := hm (i + 1) (by omega)
  have := reservedWords_lt h
  rw [show k + 1 + i = k + (i + 1) by omega, read_write_of_ne _ _ (by omega) (by omega)]
  assumption

theorem imageAddr_lt {fr : Nat → Nat} {k : Nat} (hf : fr (k / c.pageWords) < c.numFrames) :
    imageAddr c fr k < c.memWords := physAddr_lt h hf (Nat.mod_lt _ (pageWords_pos h))

/-- One Word of the copy. -/
theorem copyImage_step {m : Memory} {tb base : Nat} {fr : Nat → Nat} {k : Nat} {ws : List Word} {w : Word}
    (hm : SegmentMapped c m tb base fr k (w :: ws).length) :
    copyImage c tb base k (w :: ws) m = copyImage c tb base (k + 1) ws (m.write c (imageAddr c fr k) w) ∧
      SegmentMapped c (m.write c (imageAddr c fr k) w) tb base fr (k + 1) ws.length ∧
      imageAddr c fr k < c.memWords := by
  have h0 := hm 0 (Nat.succ_pos _)
  rw [Nat.add_zero] at h0
  exact ⟨by rw [copyImage_cons, h0.2.1]; rfl, SegmentMapped_tail h hm (physAddr_ge h0.2.2.1 _) w,
    imageAddr_lt h h0.2.2.2⟩

/-- R82: a Word where no image Word lands keeps its value. -/
theorem read_copyImage_of_ne {tb base : Nat} {fr : Nat → Nat} {a : Nat} (ws : List Word) (k : Nat)
    {m : Memory} (hm : SegmentMapped c m tb base fr k ws.length) (hlt : a < c.memWords)
    (ha : ∀ i, i < ws.length → a ≠ imageAddr c fr (k + i)) :
    (copyImage c tb base k ws m).read c a = m.read c a := by
  induction ws generalizing k m with
  | nil => rfl
  | cons w ws ih =>
    obtain ⟨he, hm', -⟩ := copyImage_step h hm
    have h0 := ha 0 (Nat.succ_pos _)
    rw [Nat.add_zero] at h0
    rw [he, ih (k + 1) hm' fun i hi => ?_, read_write_of_ne _ _ hlt h0]
    have := ha (i + 1) (Nat.succ_lt_succ hi)
    rwa [show k + (i + 1) = k + 1 + i by omega] at this

/-- R82: Word `i` of the image lands at its page's frame, when different pages have different frames. -/
theorem read_copyImage_at {tb base : Nat} {fr : Nat → Nat} (ws : List Word) (k : Nat) {m : Memory}
    (hm : SegmentMapped c m tb base fr k ws.length)
    (hinj : ∀ i j, k ≤ i → i < k + ws.length → k ≤ j → j < k + ws.length →
      fr (i / c.pageWords) = fr (j / c.pageWords) → i / c.pageWords = j / c.pageWords) (i : Nat)
    (hi : i < ws.length) : (copyImage c tb base k ws m).read c (imageAddr c fr (k + i)) = ws[i] := by
  induction ws generalizing k m i with
  | nil => exact absurd hi (Nat.not_lt_zero i)
  | cons w ws ih =>
    obtain ⟨he, hm', hlt⟩ := copyImage_step h hm
    rw [List.length_cons] at hinj hi
    rw [he]
    cases i with
    | zero =>
      show (copyImage c tb base (k + 1) ws (m.write c (imageAddr c fr k) w)).read c (imageAddr c fr k) = w
      rw [read_copyImage_of_ne h ws (k + 1) hm' hlt fun j hj hc => ?_, read_write_self _ hlt]
      have hpos := pageWords_pos h
      obtain ⟨hf, ho⟩ := physAddr_inj h (Nat.mod_lt _ hpos) (Nat.mod_lt _ hpos) hc
      have hd := hinj k (k + 1 + j) (by omega) (by omega) (by omega) (by omega) hf
      have h1 := Nat.div_add_mod k c.pageWords
      have h2 := Nat.div_add_mod (k + 1 + j) c.pageWords
      rw [← hd, ← ho] at h2
      omega
    | succ i =>
      rw [show k + (i + 1) = k + 1 + i by omega, List.getElem_cons_succ]
      exact ih (k + 1) hm' (fun a b h1 h2 h3 h4 => hinj a b (by omega) (by omega) (by omega) (by omega)) i
        (by omega)

theorem wf_buildSegment {m : Memory} (hm : m.wf c = true) (tb base pages : Nat) (r w : Bool) (img : List Word) :
    (buildSegment c m tb base pages r w img).2.wf c = true := by
  have hm := wf_mapEach h tb r w (List.range' base pages) hm
  unfold buildSegment
  simp only
  split_ifs
  · exact wf_copyImage _ _ _ _ hm
  · exact hm

end copy

theorem wf_prepareSlot {m : Memory} (hm : m.wf c = true) (p : Nat) : (prepareSlot c m p).wf c = true :=
  wf_clearEach _ _ (wf_write (wf_write (wf_write hm _ _) _ _) _ _)

/-- R81: creation, successful or rolled back, keeps the canonical form. -/
theorem wf_createProcess (h : c.wellFormed = true) {m : Memory} (hm : m.wf c = true) (code heap : List Word) :
    (createProcess c m code heap).mem.wf c = true := by
  have hc := wf_buildSegment h (wf_prepareSlot hm (procCount c m)) (ptBase c (procCount c m)) c.codeBaseVpn
    c.codePages true false code
  have hh := wf_buildSegment h hc (ptBase c (procCount c m)) c.heapBaseVpn c.heapPages true true heap
  unfold createProcess
  simp only
  split_ifs
  · exact wf_write hh c.procCountAddr (BitVec.ofNat 16 (procCount c m + 1))
  · exact wf_unmapAll hh _
  · exact wf_unmapAll hc _

end Sys2Proof.Machine
end

