-- ==== Sys2Proof/Laws/PerInstr.lean ====
section
/-! SUPPORT. Facts about every instruction as syntax, one lemma per constructor. -/

namespace Sys2Proof.Laws.TableWord

open Sys2Proof

/-- spec/opcode_table.json: the `width_bits` and the `match` value of an instruction's row. -/
def row : Instr → Nat × Nat
  | .alloc => (16, 0x0000)
  | .free _ => (16, 0x0001)
  | .map _ _ _ _ => (16, 0x0002)
  | .unmap _ _ => (16, 0x0003)
  | .xlate _ _ => (16, 0x0004)
  | .vread _ => (16, 0x0005)
  | .vwrite _ _ => (16, 0x0006)
  | .create _ _ => (16, 0x0007)
  | .load _ => (16, 0x0008)
  | .yield => (16, 0x0009)
  | .halt => (16, 0x000A)
  | .brk _ _ _ _ => (16, 0x000B)
  | .grow _ _ _ => (16, 0x000B)
  | .shrink _ => (16, 0x000B)
  | .reservedC => (16, 0x000C)
  | .reservedD => (16, 0x000D)
  | .reservedE => (16, 0x000E)
  | .reservedF => (16, 0x000F)
  | .trapvecHalt => (8, 0x25)
  | .trapvecYield => (8, 0x28)
  | .trapvecBrk _ _ _ _ => (8, 0x29)

/-- R46, R52, R58: what a row's `match` value is compared with, and its width: the command word of a command,
the number of a trap vector. -/
def matched : Encoded → Nat × Nat
  | .command c => (16, c.cw.toNat)
  | .trapVector v _ => (8, v.toNat)

/-- R51, R52: the words `encode` writes for an instruction at the default configuration carry the exact `match` value
of its row, whatever the operands. -/
def Statement (i : Instr) : Prop := matched (encode defaultConfig i) = row i

theorem alloc : Statement .alloc := rfl

theorem free (frame : Word) : Statement (.free frame) := rfl

theorem map (tb : Word) (vpn : Nat) (read write : Bool) : Statement (.map tb vpn read write) := rfl

theorem unmap (tb : Word) (vpn : Nat) : Statement (.unmap tb vpn) := rfl

theorem xlate (va : Word) (kind : AccessKind) : Statement (.xlate va kind) := rfl

theorem vread (va : Word) : Statement (.vread va) := rfl

theorem vwrite (va data : Word) : Statement (.vwrite va data) := rfl

theorem create (code heap : List Word) : Statement (.create code heap) := rfl

theorem load (pid : Word) : Statement (.load pid) := rfl

theorem yield : Statement .yield := rfl

theorem halt : Statement .halt := rfl

theorem brk (vpn : Nat) (read write grow : Bool) : Statement (.brk vpn read write grow) := rfl

theorem grow (vpn : Nat) (read write : Bool) : Statement (.grow vpn read write) := rfl

theorem shrink (vpn : Nat) : Statement (.shrink vpn) := rfl

theorem reservedC : Statement .reservedC := rfl

theorem reservedD : Statement .reservedD := rfl

theorem reservedE : Statement .reservedE := rfl

theorem reservedF : Statement .reservedF := rfl

theorem trapvecHalt : Statement .trapvecHalt := rfl

theorem trapvecYield : Statement .trapvecYield := rfl

theorem trapvecBrk (vpn : Nat) (read write grow : Bool) : Statement (.trapvecBrk vpn read write grow) := rfl

end Sys2Proof.Laws.TableWord
end

