-- ==== Sys2Proof/Tests/Slice0.lean ====
section
/-! SUPPORT. The model's own tests: what the checks of WellFormed refuse, words written out from the encoding,
at most two small steps per instruction with results from 95_test_vectors.md, and, for every statement with
hypotheses, a state and operands that meet them. -/

namespace Sys2Proof.Tests

open Sys2Proof Sys2Proof.Machine Sys2Proof.Safety

/-! ### Helpers -/

/-- The defaults of R6, which `State.reset` is built at. -/
abbrev std : Config := defaultConfig

/-- The next state, if there is one. -/
def answer : Result → Option State
  | .next t => some t
  | .fault _ => none
  | .refused _ => none

/-- Whether there is a next state that passes a check. -/
def gives (r : Result) (p : State → Bool) : Bool := (answer r).any p

theorem gives_next {r : Result} {p : State → Bool} (h : gives r p = true) : ∃ t, r = .next t ∧ p t = true := by
  cases r with
  | next t => exact ⟨t, rfl, h⟩
  | fault f => cases h
  | refused f => cases h

/-- The state after a list of instructions; one without a next state is passed over. -/
def after : List Instr → State → State
  | [], s => s
  | i :: is, s => after is ((answer (exec i s)).getD s)

/-- The state of part 2 (Translation): pid 0 with two images, loaded. -/
def one : State := after [.create [0x1111, 0x2222] [0xAAAA], .load 0] State.reset

/-- The state of program P1 after step 3: pids 0 and 1, pid 0 current. -/
def two : State := after [.create [0x1111, 0x2222] [0xAAAA], .create [0x3333] [0xBBBB, 0xCCCC], .load 0] State.reset

/-- Reset with no frame free. -/
def full : State := { State.reset with mem := (State.reset.mem.write std 3 0).write std 4 0 }

/-- Another configuration: 16 pages of 4096 Words, 10 frames with 6 bits for their number, 10 processes, the
bookkeeping, the virtual regions, the sentinels and the trap vectors elsewhere. -/
def smallConfig : Config where
  wordBits := 16
  offsetBits := 12
  vpnBits := 4
  pageWords := 4096
  ptEntries := 16
  numFrames := 10
  frameBits := 6
  memWords := 40960
  reservedFrames := 1
  curPidAddr := 5
  procCountAddr := 7
  bitmapAddr := 9
  bitmapWords := 1
  pcbBase := 20
  pcbWords := 4
  ptRegionBase := 2000
  maxProcs := 10
  reservedVpnBoundary := 2
  codeBaseVpn := 3
  codePages := 1
  heapBaseVpn := 5
  heapPages := 3
  initialPc := 12288
  terminated := 0xFFF0
  noProcess := 0xFFF1
  trapHalt := 0x10
  trapYield := 0x11
  trapBrk := 0x12

/-- A machine built at `smallConfig`, after reset. -/
def small : State := State.resetAt ⟨smallConfig, by decide⟩

/-- The response an instruction gives, and one Word of the memory it leaves. -/
def shows (i : Instr) (s : State) (status : Status) (v : Word) (a : Nat) (w : Word) : Bool :=
  gives (exec i s) fun t => t.response == some ⟨status, v⟩ && t.word a == w

/-- Two live processes with one heap page each (frames 3 and 4), pid 0 current: what is left of program P1 after
every other page has been shrunk away. -/
def pair : State := { State.reset with
  mem := [(0, 0), (1, 2), (3, 0x07FF), (13, 0x3000), (14, 0x1000), (15, 1), (16, 0x3000), (17, 0x1020),
    (0x1008, 0x1807), (0x1028, 0x2007)]
  pc := 0x3002
  ptbr := 0x1000
  everLoaded := [0] }

/-- Reset with the first process slot marked as current though nothing was created, and PTBR as given. -/
def astray (ptbr : Word) : State := { State.reset with mem := [(0, 0)], ptbr := ptbr }

/-- `pair` once pid 0 has halted: pid 1 is current and the only live process. -/
def survivor : State := { pair with
  mem := [(0, 1), (1, 2), (3, 0x17FF), (12, 0xFFFF), (13, 0x3000), (14, 0x1000), (15, 1), (16, 0x3000),
    (17, 0x1020), (0x1008, 0x1806), (0x1028, 0x2007)]
  pc := 0x3000
  ptbr := 0x1020
  everLoaded := [0, 1] }

/-- Reset with some Words of memory otherwise. -/
def withMem (m : Memory) : State := { State.reset with mem := m }

/-- Pid 0 current with the first table, and no frame free. -/
def crowded : State := { State.reset with mem := [(0, 0), (3, 0), (4, 0)], ptbr := 0x1000 }

/-- A state with one thing to issue. -/
def issuing (s : State) (i : Instr) : State := placeFirst s (encode s.cfg i)

/-- A state whose run has aborted on a read of address 0. -/
def aborted : State := raiseFault pair .reservedRegion 0 .read

/-- A state whose run has stopped. -/
def stopped : State := { pair with running := false }

/-- The machine of `smallConfig` with pid 0 current, its heap page mapped by an entry whose frame field is past the
last frame. -/
def corrupted : State := { small with mem := [(5, 0), (7, 1), (2005, 0xFC07)], ptbr := 2000 }

/-! ### Smoke: each check of WellFormed refuses an ill-formed term -/

theorem test_wf_accepts_defaults : std.wellFormed = true := by decide
theorem test_wf_refuses_word_bits : Config.wfWord { std with wordBits := 8 } = false := by decide
theorem test_wf_refuses_split : Config.wfSplit { std with offsetBits := 10 } = false := by decide
theorem test_wf_refuses_page_words : Config.wfSplit { std with pageWords := 1024 } = false := by decide
theorem test_wf_refuses_frames : Config.wfFrames { std with numFrames := 33 } = false := by decide
theorem test_wf_refuses_no_reserved : Config.wfReserved { std with reservedFrames := 0 } = false := by decide
theorem test_wf_refuses_overlap : Config.wfLayout { std with procCountAddr := 4 } = false := by decide
theorem test_wf_refuses_small_bitmap : Config.wfBitmap { std with bitmapWords := 1 } = false := by decide
theorem test_wf_refuses_virtual : Config.wfVirtual { std with codePages := 3 } = false := by decide
theorem test_wf_refuses_pids : Config.wfPids { std with terminated := 63 } = false := by decide
theorem test_wf_refuses_start : Config.wfStart { std with initialPc := 0x3001 } = false := by decide
theorem test_fits_accepts_defaults : std.fits = true := by decide
theorem test_fits_refuses_two_words_a_slot : Config.fits { std with pcbWords := 2 } = false := by decide
theorem test_fits_refuses_offset : Config.fits { std with offsetBits := 2 } = false := by decide
theorem test_fits_refuses_wide_sentinel : Config.fits { std with terminated := 65536 } = false := by decide
theorem test_fits_refuses_wide_marker : Config.fits { std with noProcess := 65536 } = false := by decide
theorem test_fits_refuses_wide_vector : Config.fits { std with trapHalt := 256 } = false := by decide
theorem test_fits_refuses_one_vector_twice : Config.fits { std with trapBrk := 0x25 } = false := by decide
theorem test_wf_refuses_map : (Instr.map 0x1000 32 true true).wellFormed std = false := by decide
theorem test_wf_refuses_unmap : (Instr.unmap 0x1000 32).wellFormed std = false := by decide
theorem test_wf_refuses_brk : (Instr.brk 32 true true true).wellFormed std = false := by decide
theorem test_wf_refuses_grow : (Instr.grow 32 true true).wellFormed std = false := by decide
theorem test_wf_refuses_shrink : (Instr.shrink 32).wellFormed std = false := by decide
theorem test_wf_refuses_trapvec_brk : (Instr.trapvecBrk 32 true true true).wellFormed std = false := by decide

/-! ### Decoding: words written out from R46, R48, R49, R51, R52 -/

theorem test_decode_alloc : decode std (plainCommand 0x0000 7 9) = .ok .alloc := by decide
theorem test_decode_free : decode std (plainCommand 0x0001 0x0003 9) = .ok (.free 3) := by decide
theorem test_decode_map : decode std (plainCommand 0x0002 0x1020 0x47FE) = .ok (.map 0x1020 8 true true) := by decide
theorem test_decode_map_write_only :
    decode std (plainCommand 0x0002 0x1000 0x4004) = .ok (.map 0x1000 8 false true) := by decide
theorem test_decode_unmap : decode std (plainCommand 0x0003 0x1000 0xFFFF) = .ok (.unmap 0x1000 31) := by decide
theorem test_decode_xlate_read : decode std (plainCommand 0x0004 0x3005 0xFFFE) = .ok (.xlate 0x3005 .read) := by decide
theorem test_decode_xlate_write : decode std (plainCommand 0x0004 0x4000 1) = .ok (.xlate 0x4000 .write) := by decide
theorem test_decode_vread : decode std (plainCommand 0x0005 0x3001 9) = .ok (.vread 0x3001) := by decide
theorem test_decode_vwrite : decode std (plainCommand 0x0006 0x4001 0x5555) = .ok (.vwrite 0x4001 0x5555) := by decide
theorem test_decode_create : decode std (.command ⟨0x0007, 9, 9, [1, 2], [3]⟩) = .ok (.create [1, 2] [3]) := by decide
theorem test_decode_load : decode std (plainCommand 0x0008 64 9) = .ok (.load 64) := by decide
theorem test_decode_yield : decode std (plainCommand 0x0009 9 9) = .ok .yield := by decide
theorem test_decode_halt : decode std (plainCommand 0x000A 9 9) = .ok .halt := by decide
theorem test_decode_brk : decode std (plainCommand 0x000B 0x5003 9) = .ok (.brk 10 true false true) := by decide
theorem test_decode_grow_word : decode std (plainCommand 0x000B 0x1007 0) = .ok (.brk 2 true true true) := by decide
theorem test_decode_shrink_word : decode std (plainCommand 0x000B 0x5000 0) = .ok (.brk 10 false false false) := by
  decide
theorem test_decode_reservedC : decode std (plainCommand 0x000C 0 0) = .ok .reservedC := by decide
theorem test_decode_reservedD : decode std (plainCommand 0x000D 0 0) = .ok .reservedD := by decide
theorem test_decode_reservedE : decode std (plainCommand 0x000E 0 0) = .ok .reservedE := by decide
theorem test_decode_reservedF : decode std (plainCommand 0x000F 0 0) = .ok .reservedF := by decide
theorem test_decode_refuses_0010 : decode std (plainCommand 0x0010 0 0) = .error (.illegalCommandWord 0x0010) := by
  decide
theorem test_decode_refuses_1007 : decode std (plainCommand 0x1007 0 0) = .error (.illegalCommandWord 0x1007) := by
  decide
theorem test_decode_trapvec_halt : decode std (.trapVector 0x25 0) = .ok .trapvecHalt := by decide
theorem test_decode_trapvec_yield : decode std (.trapVector 0x28 0) = .ok .trapvecYield := by decide
theorem test_decode_trapvec_brk : decode std (.trapVector 0x29 0x5005) = .ok (.trapvecBrk 10 false true true) := by
  decide
theorem test_decode_refuses_vector : decode std (.trapVector 0x20 0) = .error (.foreignTrapVector 0x20) := by decide
theorem test_encode_grow : encode std (.grow 10 true false) = plainCommand 0x000B 0x5003 0 := by decide
theorem test_encode_shrink : encode std (.shrink 10) = plainCommand 0x000B 0x5000 0 := by decide
theorem test_table_word_command : decodeTableWord 16 0x000A = some .halt := by decide
theorem test_table_word_operands : decodeTableWord 48 0x400610000002 = some (.map 0x1000 8 true true) := by decide
theorem test_table_word_vector : decodeTableWord 8 0x25 = some .trapvecHalt := by decide
theorem test_table_word_refused : decodeTableWord 16 0x8000 = none := by decide
theorem test_fetch_word_runs :
    gives (step (State.reset.withFetchWord 16 0x0000)) (fun t => t.response == some ⟨.ok, 3⟩) = true := by decide

/-! ### Another configuration, with results worked out by hand from the rules -/

theorem test_small_is_a_configuration : smallConfig.wellFormed = true ∧ smallConfig.fits = true := by decide
/-- R49: the page number is in the high VPN_BITS bits, here 4. -/
theorem test_small_decode_map :
    decode smallConfig (plainCommand 0x0002 0x07D0 0x9006) = .ok (.map 0x07D0 9 true true) := by decide
/-- R52: the vectors are parameters. -/
theorem test_small_decode_vectors : decode smallConfig (.trapVector 0x10 0) = .ok .trapvecHalt ∧
    decode smallConfig (.trapVector 0x25 0) = .error (.foreignTrapVector 0x25) := by decide
/-- R27, R18: what reset leaves. -/
theorem test_small_reset : small.word 5 = 0xFFF1 ∧ small.word 9 = 0x7FC0 ∧ small.word 0 = 0 := by decide
/-- R81, R82: the first process, on frames 1 to 4. -/
theorem test_small_create :
    gives (exec (.create [7] [8]) small) (fun t => t.response == some ⟨.ok, 0⟩ && t.word 7 == 1 &&
      t.word 21 == 0x3000 && t.word 22 == 2000 && t.word 2003 == 0x0403 && t.word 2007 == 0x1007 &&
      t.word 9 == 0x07C0 && t.word 4096 == 7 && t.word 8192 == 8) = true := by decide
/-- R92: the last HALT, as a trap with this machine's vector. -/
theorem test_small_halt :
    gives (step (placeFirst { corrupted with mem := [(5, 0), (7, 1), (9, 0x3FC0), (2005, 0x0407)] }
        (.trapVector 0x10 0)))
      (fun t => t.response == some ⟨.ok, 0xFFF1⟩ && !t.running && t.word 20 == 0xFFF0 && t.word 9 == 0x7FC0 &&
        t.word 2005 == 0x0406) = true := by decide +kernel
/-- R120: RESET is the reset of the machine as it is built. -/
theorem test_small_reset_command :
    gives (step { corrupted with input := [.reset] }) (fun t => t == small) = true := by decide

/-! ### Steps, with results from 95_test_vectors.md -/

/-- V-A1 -/
theorem test_alloc_first : shows .alloc State.reset .ok 3 3 0x0FFF = true := by decide
/-- V-A6 -/
theorem test_alloc_none : shows .alloc full .noFreeFrame 0 3 0 = true := by decide
/-- V-A8 -/
theorem test_free_31 : shows (.free 31) full .ok 0 4 0x0001 = true := by decide
/-- V-A12 -/
theorem test_free_32 : shows (.free 32) full .refused 0 4 0 = true := by decide
/-- V-M1 -/
theorem test_map : shows (.map 0x1000 8 true true) State.reset .ok 3 0x1008 0x1807 = true := by decide
/-- V-M7 -/
theorem test_map_not_a_base : shows (.map 0x1001 8 true true) State.reset .refused 0 0x1009 0 = true := by decide
/-- V-M3 -/
theorem test_unmap : shows (.unmap 0x1000 8) pair .ok 0 0x1008 0x1806 = true := by decide
/-- V-M4 -/
theorem test_unmap_twice : shows (.unmap 0x1000 9) pair .notMapped 0 0x1009 0 = true := by decide
/-- V-X2 -/
theorem test_xlate : shows (.xlate 0x3FFF .read) one .ok 0x27FF 0 0 = true := by decide
/-- V-X5 -/
theorem test_xlate_write_to_code :
    gives (exec (.xlate 0x3005 .write) one) (fun t => t.response == some ⟨.fault, 3⟩ &&
      t.fault == ⟨.permissionViolation, 0x3005, .write⟩ && t.log == [⟨.faultPermission, 0x3005, 0⟩]) = true := by
  decide
/-- V-X10 -/
theorem test_vread : shows (.vread 0x3001) one .ok 0x2222 0x1801 0x2222 = true := by decide
/-- V-X6 (a read by VREAD below the boundary) -/
theorem test_vread_reserved :
    gives (exec (.vread 0x2FFF) one) (fun t => t.response == some ⟨.fault, 1⟩ &&
      t.log == [⟨.faultReserved, 0x2FFF, 0⟩]) = true := by decide
/-- V-X11 -/
theorem test_vwrite : shows (.vwrite 0x4001 0x5555) one .ok 0 0x2801 0x5555 = true := by decide
/-- V-X13 -/
theorem test_vwrite_to_code : shows (.vwrite 0x3000 0) one .fault 3 0x1800 0x1111 = true := by decide
/-- P1 step 1 -/
theorem test_create : shows (.create [0x1111, 0x2222] [0xAAAA]) State.reset .ok 0 0x1008 0x2807 = true := by
  decide
/-- P1 step 2 -/
theorem test_create_second : two.word 0x4801 = 0xCCCC ∧ two.word 17 = 0x1020 ∧ two.word 3 = 0x001F := by
  decide
/-- V-L1 -/
theorem test_load_64 : shows (.load 64) State.reset .refused 0 0 0xFFFF = true := by decide
/-- P1 step 3 -/
theorem test_load : one.pc = 0x3000 ∧ one.ptbr = 0x1000 ∧ one.word 0 = 0 := by decide
/-- P1 step 8 -/
theorem test_yield :
    gives (exec .yield { two with pc := 0x3005 }) (fun t => t.response == some ⟨.ok, 1⟩ && t.word 13 == 0x3005 &&
      t.pc == 0x3000 && t.ptbr == 0x1020) = true := by decide
/-- V-L6 -/
theorem test_yield_alone :
    gives (exec .yield { one with pc := 0x3007 }) (fun t => t.response == some ⟨.ok, 0⟩ && t.word 13 == 0x3007 &&
      t.pc == 0x3007) = true := by decide
/-- P3 step 2, of pid 0 -/
theorem test_halt :
    gives (exec .halt pair) (fun t => t.response == some ⟨.ok, 1⟩ && t.word 12 == 0xFFFF &&
      t.word 0x1008 == 0x1806 && t.word 3 == 0x17FF && t.pc == 0x3000 && t.ptbr == 0x1020) = true := by
  decide +kernel
/-- P3 step 7 -/
theorem test_halt_last :
    gives (exec .halt one) (fun t => t.response == some ⟨.ok, 0xFFFF⟩ && !t.running && t.word 0 == 0 &&
      t.word 3 == 0x1FFF) = true := by decide +kernel
/-- P2 step 1 -/
theorem test_brk_grow : shows (.brk 10 true true true) one .ok 0 0x100A 0x3807 = true := by decide
/-- P2 step 7 -/
theorem test_brk_shrink_unmapped :
    gives (exec (.brk 10 false false false) one) (fun t => t.response == some ⟨.ok, 0⟩ &&
      t.log == [⟨.shrinkNotMapped, 10, 0⟩]) = true := by decide
/-- P2 step 5 -/
theorem test_grow_mapped :
    gives (exec (.grow 8 true false) pair) (fun t => t.response == some ⟨.ok, 0⟩ && t.mem == pair.mem &&
      t.log == [⟨.growAlreadyMapped, 8, 0⟩]) = true := by decide
/-- V-X12 -/
theorem test_grow_reserved_page : shows (.grow 2 true true) one .ok 0 0x1002 0x3807 = true := by decide
/-- P2 step 6 -/
theorem test_shrink : shows (.shrink 8) pair .ok 0 0x1008 0x1806 = true := by decide
/-- V-L4 -/
theorem test_reservedC : shows .reservedC pair .refused 0 0 0 = true := by decide
/-- R51: 0xD -/
theorem test_reservedD : shows .reservedD pair .refused 0 0 0 = true := by decide
/-- R51: 0xE -/
theorem test_reservedE : shows .reservedE pair .refused 0 0 0 = true := by decide
/-- R51: 0xF -/
theorem test_reservedF : shows .reservedF aborted .refused 0 0 0 = true := by decide
/-- V-L5 -/
theorem test_illegal_word :
    gives (step (placeFirst pair (plainCommand 0x0010 0 0)))
      (fun t => t == { pair with response := some ⟨.refused, 0⟩ }) = true := by decide
/-- R52: vector 0x25 -/
theorem test_trapvec_halt :
    gives (step (placeFirst pair (.trapVector 0x25 0))) (fun t => t.word 12 == 0xFFFF && t.word 0 == 1) = true := by
  decide +kernel
/-- R52: vector 0x28 -/
theorem test_trapvec_yield :
    gives (step (placeFirst pair (.trapVector 0x28 0))) (fun t => t.word 13 == 0x3002 && t.word 0 == 1) = true := by
  decide
/-- V-X17's request, as a trap -/
theorem test_trapvec_brk :
    gives (step (placeFirst pair (.trapVector 0x29 0x5005))) (fun t => t.word 0x100A == 0x2805) = true := by
  decide
/-- R126 (b), U3, U12: LOAD of a slot never created, then a grow that overwrites `cur_pid` with an entry (PTBR is 0),
leaves a current pid without a slot, and YIELD still answers. -/
theorem test_yield_without_slot :
    shows .yield (after [.load 0, .grow 0 true true] State.reset) .ok 0xFFFF 0 0x1807 = true := by decide
/-- R115: SETPC once the run has stopped. -/
theorem test_setPc_stopped :
    gives (step { stopped with input := [.setPc 5] }) (fun t => t == stopped) = true := by decide
/-- V-X15 -/
theorem test_after_fault : shows (.shrink 8) aborted .refused 0 0x1008 0x1807 = true := by decide

/-! ### Witnesses: for each statement with hypotheses, a state and operands that meet them together -/

/-- Memory that lists nothing in the tables of uncreated slots has no valid entry there. -/
theorem uncreated_of {m : Memory} (h : ∀ d ∈ m, d.1 < ptBase std (procCount std m) ∨ 6144 ≤ d.1) :
    UncreatedOwnNothing std m := fun p hp hn v hv => by
  have ha : ptBase std p = 4096 + 32 * p := rfl
  have hb : ptBase std (procCount std m) = 4096 + 32 * procCount std m := rfl
  have hp' : p < 64 := hp
  have hv' : v < 32 := hv
  have hm : ptBase std p + v < std.memWords := ptBase_add_lt_memWords defaultConfig_wellFormed hp hv
  have h0 : std.curPidAddr = 0 := rfl
  have h3 : std.bitmapAddr = 3 := rfl
  have h2 : std.bitmapWords = 2 := rfl
  rw [entry, read_eq_lookup m hm, lookup_of_unlisted fun d hd => by have := h d hd; omega,
    resetWord_other (by omega) (by omega), pteValid_zero]

theorem witness_uncreated : UncreatedOwnNothing std pair.mem := uncreated_of (by decide)
theorem witness_uncreated_survivor : UncreatedOwnNothing std survivor.mem := uncreated_of (by decide)

theorem pair_slot (p : Nat) (hp : p < std.maxProcs) (v : Nat) (hv : v < std.ptEntries)
    (h : pteValid (entry std pair.mem p v) = true) : p < pair.procCount ∧ v = 8 := by
  have slot : ∀ p, p < pair.procCount → ∀ v, v < std.ptEntries → pteValid (entry std pair.mem p v) = true →
      v = 8 := by decide
  by_cases hn : p < pair.procCount
  · exact ⟨hn, slot p hn v hv h⟩
  · rw [witness_uncreated p hp (Nat.le_of_not_lt hn) v hv] at h; cases h

theorem survivor_slot (p : Nat) (hp : p < std.maxProcs) (v : Nat) (hv : v < std.ptEntries)
    (h : pteValid (entry std survivor.mem p v) = true) : p = 1 ∧ v = 8 := by
  have slot : ∀ p, p < survivor.procCount → ∀ v, v < std.ptEntries →
      pteValid (entry std survivor.mem p v) = true → p = 1 ∧ v = 8 := by decide
  by_cases hn : p < survivor.procCount
  · exact slot p hn v hv h
  · rw [witness_uncreated_survivor p hp (Nat.le_of_not_lt hn) v hv] at h; cases h

theorem witness_disciplined : Disciplined pair where
  reserved := by decide
  named := by decide
  exclusive := fun p hp q hq v hv w hw hpv hqw he => by
    have frame : ∀ p, p < pair.procCount → pteFrame pair.cfg (entry pair.cfg pair.mem p 8) = 3 + p := by decide
    obtain ⟨hp', rfl⟩ := pair_slot p hp v hv hpv
    obtain ⟨hq', rfl⟩ := pair_slot q hq w hw hqw
    rw [frame p hp', frame q hq'] at he
    omega
  noLeak := by decide
  terminated := by decide
  uncreated := witness_uncreated
  slots := by decide
  current := by decide
  bounded := by decide
  currentLive := by decide

theorem witness_disciplined_survivor : Disciplined survivor where
  reserved := by decide
  named := by decide
  exclusive := fun p hp q hq v hv w hw hpv hqw _ => by
    obtain ⟨rfl, rfl⟩ := survivor_slot p hp v hv hpv
    obtain ⟨rfl, rfl⟩ := survivor_slot q hq w hw hqw
    exact ⟨rfl, rfl⟩
  noLeak := by decide
  terminated := by decide
  uncreated := witness_uncreated_survivor
  slots := by decide
  current := by decide
  bounded := by decide
  currentLive := by decide

/-- The invariants speak of no input, so issuing something keeps them. -/
theorem disciplined_issuing {s : State} (h : Disciplined s) (i : Instr) : Disciplined (issuing s i) :=
  ⟨h.1, h.2, h.3, h.4, h.5, h.6, h.7, h.8, h.9, h.10⟩

theorem std_fits : std.fits = true := by decide

theorem witness_serving : Serving pair := by unfold Serving; decide
theorem corrupted_serving : Serving corrupted := by unfold Serving; decide
theorem corrupted_ptbrIsTable : PtbrIsTable corrupted := ⟨0, by decide, by decide⟩
theorem witness_ptbrIsTable : PtbrIsTable pair := ⟨0, by decide, by decide⟩
theorem witness_slotsInRange : SlotsInRange pair := by unfold SlotsInRange; decide

theorem lowestFree_of {m : Memory} {f : Nat} (h3 : 3 ≤ f) (h32 : f < 32) (hf : isFree std m f = true)
    (h : ∀ g, g < f → 3 ≤ g → isFree std m g = false) : LowestFree std m f :=
  ⟨h3, h32, hf, fun g hg hgf => h g hgf hg⟩

theorem noneFree_of {m : Memory} (h : ∀ g, g < 32 → isFree std m g = false) : NoneFree std m := fun g _ hg => h g hg

theorem stepsOn {r : Result} (h : gives r (fun _ => true) = true) : ∃ t, r = .next t :=
  (gives_next h).imp fun _ h => h.1

theorem witness_StepRunsTheDecodedInstruction :
    (issuing pair .yield).input = .issue (plainCommand 0x0009 0 0) :: [] ∧
    decode std (plainCommand 0x0009 0 0) = .ok .yield := by decide

theorem witness_TheConfigurationIsFixed :
    (∃ t, exec .halt pair = .next t) ∧ ∃ t, step { corrupted with input := [.reset] } = .next t :=
  ⟨stepsOn (by decide +kernel), stepsOn (by decide)⟩

theorem witness_StepTakesExternalActions :
    State.reset.input = [] ∧ { pair with input := [.setPc 0x3005] }.input = .setPc 0x3005 :: [] ∧
    { pair with input := [.setPc 0x3005] }.runEnable = true ∧
    { stopped with input := [.setPc 0x3005] }.input = .setPc 0x3005 :: [] ∧
    { stopped with input := [.setPc 0x3005] }.runEnable = false ∧
    { pair with input := [.reset, .reset] }.input = .reset :: [.reset] ∧
    { pair with input := [.issue (.trapVector 0x27 0)] }.input = .issue (.trapVector 0x27 0) :: [] ∧
    (0x27#8).toNat ≠ pair.cfg.trapHalt ∧ (0x27#8).toNat ≠ pair.cfg.trapYield ∧
    (0x27#8).toNat ≠ pair.cfg.trapBrk := by decide

theorem witness_EncodedInstructionsDecodeBack :
    std.wellFormed = true ∧ std.fits = true ∧ smallConfig.wellFormed = true ∧ smallConfig.fits = true ∧
    (Instr.unmap 0xFFFF 15).wellFormed smallConfig = true ∧
    (Instr.map 0xFFFF 31 true false).wellFormed std = true ∧
    (Instr.trapvecBrk 31 true true true).wellFormed std = true ∧
    (Instr.shrink 0).wellFormed std = true := by decide

theorem witness_DecodedInstructionsAreWellFormed :
    std.wellFormed = true ∧ std.fits = true ∧
    decode std (plainCommand 0x000B 0xFFFF 0) = .ok (.brk 31 true true true) ∧
    (0x4006#16).getLsbD 1 = (0x47FF#16).getLsbD 1 ∧ (0x4006#16).getLsbD 2 = (0x47FF#16).getLsbD 2 ∧
    (0x4006#16).toNat / std.pageWords = (0x47FF#16).toNat / std.pageWords ∧ 0xC ≤ (0xC#16).toNat ∧
    (1#16).getLsbD 0 = (0xFFFF#16).getLsbD 0 ∧ (0x5003#16).getLsbD 0 = (0x57FB#16).getLsbD 0 ∧
    (0x5003#16).getLsbD 1 = (0x57FB#16).getLsbD 1 ∧ (0x5003#16).getLsbD 2 = (0x57FB#16).getLsbD 2 ∧
    (0x5003#16).toNat / std.pageWords = (0x57FB#16).toNat / std.pageWords := by decide

theorem witness_CommandWordsMatchExactly :
    16 ≤ (Command.mk 0x0010 0 0 [] []).cw.toNat ∧ (Command.mk 0x000F 0 0 [] []).cw.toNat < 16 := by decide

theorem witness_Refused_aborted : mustRefuse aborted .alloc := .inl (by decide)
theorem witness_Refused_stopped : mustRefuse stopped .alloc := .inr (.inl rfl)
theorem witness_Refused_reserved : mustRefuse pair .reservedD := .inr (.inr trivial)
theorem witness_ReservedOpcodesAreRefused : Instr.reservedF = .reservedC ∨ Instr.reservedF = .reservedD ∨
    Instr.reservedF = .reservedE ∨ Instr.reservedF = .reservedF := .inr (.inr (.inr rfl))
theorem witness_Refused_free : mustRefuse pair (.free 32) := .inr (.inr (by decide))
theorem witness_Refused_map : mustRefuse pair (.map 0x1800 8 true true) ∧ mustRefuse pair (.unmap 0x1001 8) :=
  ⟨.inr (.inr (by decide)), .inr (.inr (by decide))⟩
theorem witness_Refused_load : mustRefuse pair (.load 64) := .inr (.inr (by decide))
theorem witness_Refused_noProcess : mustRefuse State.reset .yield := .inr (.inr (by decide))
theorem witness_Refused_not : ¬ mustRefuse pair (.free 31) := fun h => by
  rcases h with h | h | h
  · exact h (by decide)
  · exact absurd h (by decide)
  · exact absurd h (by decide)
theorem witness_Refused_illegal_word :
    16 ≤ (Command.mk 0xFFFF 0 0 [] []).cw.toNat ∧
    (placeFirst pair (plainCommand 0xFFFF 0 0)).input = .issue (.command ⟨0xFFFF, 0, 0, [], []⟩) :: [] := by decide

theorem witness_AllocTakesLowestFreeFrame :
    State.reset.runEnable = true ∧ LowestFree std State.reset.mem 3 ∧
    (withMem (full.mem.write std 4 1)).runEnable = true ∧ LowestFree std (withMem (full.mem.write std 4 1)).mem 31 :=
  ⟨by decide, lowestFree_of (by decide) (by decide) (by decide) (by decide), by decide,
    lowestFree_of (by decide) (by decide) (by decide) (by decide)⟩
theorem witness_AllocTakesLowestFreeFrame_none : full.runEnable = true ∧ NoneFree std full.mem :=
  ⟨by decide, noneFree_of (by decide)⟩

theorem witness_FreeMarksTheFrameFree :
    pair.runEnable = true ∧ (31#16).toNat < pair.cfg.numFrames ∧ (0#16).toNat < pair.cfg.numFrames ∧
    pair.cfg.numFrames ≤ (32#16).toNat := by decide

/-- A bit of the last bitmap Word that no frame has. -/
theorem witness_FreeMarksTheFrameFree_lastWord :
    small.runEnable = true ∧ (9#16).toNat < small.cfg.numFrames ∧ small.cfg.numFrames ≤ 15 ∧
    15 < 16 * small.cfg.bitmapWords := by decide

theorem witness_FirstFitReturnsTheFreedFrame :
    ∃ t, exec .alloc pair = .next t ∧ (t.response == some ⟨.ok, 5⟩) = true := gives_next (by decide)

theorem witness_FreeCountFollowsAllocAndFree :
    pair.runEnable = true ∧ (3#16).toNat < pair.cfg.numFrames ∧ pair.cfg.reservedFrames ≤ (3#16).toNat ∧
    isFree std pair.mem (3#16).toNat = false ∧
    (31#16).toNat < pair.cfg.numFrames ∧ isFree std pair.mem (31#16).toNat = true ∧
    (2#16).toNat < pair.cfg.reservedFrames := by decide

theorem witness_MapWritesTheEntry_mapped :
    pair.runEnable = true ∧ 0 < pair.cfg.maxProcs ∧ (0x1000#16).toNat = ptBase pair.cfg 0 ∧ 8 < pair.cfg.ptEntries ∧
    (pair.word ((0x1000#16).toNat + 8)).getLsbD 0 = true := by decide
theorem witness_MapWritesTheEntry_noFrame :
    full.runEnable = true ∧ 63 < full.cfg.maxProcs ∧ (0x17E0#16).toNat = ptBase full.cfg 63 ∧ 31 < full.cfg.ptEntries ∧
    (full.word ((0x17E0#16).toNat + 31)).getLsbD 0 = false ∧ NoneFree std full.mem :=
  ⟨by decide, by decide, by decide, by decide, by decide, noneFree_of (by decide)⟩
theorem witness_MapWritesTheEntry_mapping :
    pair.runEnable = true ∧ 63 < pair.cfg.maxProcs ∧ (0x17E0#16).toNat = ptBase pair.cfg 63 ∧ 31 < pair.cfg.ptEntries ∧
    (pair.word ((0x17E0#16).toNat + 31)).getLsbD 0 = false ∧ LowestFree std pair.mem 5 :=
  ⟨by decide, by decide, by decide, by decide, by decide,
    lowestFree_of (by decide) (by decide) (by decide) (by decide)⟩

theorem witness_UnmapFreesTheFrame :
    pair.runEnable = true ∧ 1 < pair.cfg.maxProcs ∧ (0x1020#16).toNat = ptBase pair.cfg 1 ∧ 8 < pair.cfg.ptEntries ∧
    31 < pair.cfg.ptEntries ∧ pteFrame pair.cfg (pair.word ((0x1020#16).toNat + 8)) < pair.cfg.numFrames ∧
    (pair.word ((0x1020#16).toNat + 8)).getLsbD 0 = true ∧
    (pair.word ((0x1020#16).toNat + 31)).getLsbD 0 = false := by decide
/-- An entry whose frame field is past the last frame (log 26), a bitmap Word among those that keep their value. -/
theorem witness_UnmapFreesTheFrame_corrupted :
    corrupted.runEnable = true ∧ 0 < corrupted.cfg.maxProcs ∧ (0x07D0#16).toNat = ptBase corrupted.cfg 0 ∧
    5 < corrupted.cfg.ptEntries ∧ (corrupted.word ((0x07D0#16).toNat + 5)).getLsbD 0 = true ∧
    corrupted.cfg.numFrames ≤ pteFrame corrupted.cfg (corrupted.word ((0x07D0#16).toNat + 5)) ∧
    corrupted.cfg.bitmapAddr < corrupted.cfg.memWords ∧ corrupted.cfg.bitmapAddr ≠ (0x07D0#16).toNat + 5 := by decide

theorem witness_MapTwiceKeepsTheFirstMapping :
    31 < pair.cfg.ptEntries ∧ ∃ t, exec (.map 0x17E0 31 false true) pair = .next t ∧
    (t.response == some ⟨.ok, 5⟩) = true :=
  ⟨by decide, gives_next (by decide)⟩

theorem witness_AccessFaults_reserved :
    Accesses (.vwrite 0x2FFF 7) 0x2FFF .write ∧ Serving pair ∧
    (0x2FFF#16).toNat / pair.cfg.pageWords < pair.cfg.reservedVpnBoundary :=
  ⟨.inr (.inr ⟨7, rfl, rfl⟩), witness_serving, by decide⟩
theorem witness_AccessFaults_unmapped :
    Accesses (.vread 0xFFFF) 0xFFFF .read ∧ Serving (astray 0xFFE0) ∧
    (astray 0xFFE0).cfg.reservedVpnBoundary ≤ (0xFFFF#16).toNat / (astray 0xFFE0).cfg.pageWords ∧
    (entryFor (astray 0xFFE0) 0xFFFF).getLsbD 0 = false :=
  ⟨.inr (.inl ⟨rfl, rfl⟩), by unfold Serving; decide, by decide, by decide⟩
theorem witness_AccessFaults_permission :
    Accesses (.xlate 0x3000 .write) 0x3000 .write ∧ Serving one ∧
    one.cfg.reservedVpnBoundary ≤ (0x3000#16).toNat / one.cfg.pageWords ∧
    (entryFor one 0x3000).getLsbD 0 = true ∧
    permits (entryFor one 0x3000) .write = false :=
  ⟨.inl rfl, by unfold Serving; decide, by decide, by decide, by decide⟩

theorem witness_XlateGivesThePhysicalAddress :
    Serving one ∧ Reaches one 0x3000 .read ∧ pteFrame one.cfg (entryFor one 0x3000) < one.cfg.numFrames ∧
    landing one 0x3000 < 65536 := by unfold Reaches Serving; decide
/-- An entry whose frame field is past the last frame: the address is no Word's. -/
theorem witness_XlateGivesThePhysicalAddress_corrupted :
    Serving corrupted ∧ Reaches corrupted 0x5000 .write ∧ landing corrupted 0x5000 = 258048 := by
  unfold Reaches Serving; decide
theorem witness_VreadReadsTheTranslatedWord : Serving pair ∧ Reaches pair 0x4000 .read := by
  unfold Reaches Serving; decide
theorem witness_VwriteWritesTheTranslatedWord : Serving pair ∧ Reaches pair 0x47FF .write ∧
    pteFrame pair.cfg (entryFor pair 0x47FF) < pair.cfg.numFrames ∧ Serving corrupted ∧
    Reaches corrupted 0x5000 .write := by unfold Reaches Serving; decide

theorem witness_ReservedRegionAlwaysFaults :
    Accesses (.xlate 0x2FFF .read) 0x2FFF .read ∧ Serving pair ∧
    (0x2FFF#16).toNat / pair.cfg.pageWords < pair.cfg.reservedVpnBoundary :=
  ⟨.inl rfl, witness_serving, by decide⟩

theorem witness_FaultingAccessHasNoOtherEffect :
    Accesses (.vread 0x5000) 0x5000 .read ∧
    ∃ t, exec (.vread 0x5000) pair = .next t ∧ (t.response == some ⟨.fault, 2⟩) = true :=
  ⟨.inr (.inl ⟨rfl, rfl⟩), gives_next (by decide)⟩

theorem witness_TranslationDependsOnlyOnItsEntry :
    Serving pair ∧ Serving { pair with mem := pair.mem.write std 0x2000 5, pc := 9, log := [⟨.growNoFrame, 8, 0⟩] } ∧
    pair.params = { pair with mem := pair.mem.write std 0x2000 5, pc := 9, log := [⟨.growNoFrame, 8, 0⟩] }.params ∧
    pair.ptbr = 0x1000 ∧ entryFor pair 0x4001 =
      entryFor { pair with mem := pair.mem.write std 0x2000 5, pc := 9, log := [⟨.growNoFrame, 8, 0⟩] } 0x4001 ∧
    ∃ t, exec (.xlate 0x4001 .write) pair = .next t ∧ (t.response == some ⟨.ok, 0x1801⟩) = true :=
  ⟨witness_serving, by unfold Serving; decide, rfl, by decide, by decide, gives_next (by decide)⟩

theorem witness_TranslationsNeverMeet :
    Disciplined pair ∧ 0 < pair.procCount ∧ 1 < pair.procCount ∧
    ((0, 0x4001#16) : Nat × Word) ≠ (1, 0x4001#16) ∧
    (∃ t, exec (.xlate 0x4001 .read) { pair with ptbr := BitVec.ofNat 16 (ptBase std 0) } = .next t ∧
      (t.response == some ⟨.ok, 0x1801⟩) = true) ∧
    ∃ t, exec (.xlate 0x4001 .read) { pair with ptbr := BitVec.ofNat 16 (ptBase std 1) } = .next t ∧
      (t.response == some ⟨.ok, 0x2001⟩) = true :=
  ⟨witness_disciplined, by decide, by decide, by decide, gives_next (by decide), gives_next (by decide)⟩

theorem witness_WritesAreInvisibleToOtherProcesses :
    Disciplined pair ∧ Serving pair ∧
    (∃ t, exec (.vwrite 0x4001 5) pair = .next t ∧ (t.response == some ⟨.ok, 0⟩) = true) ∧
    1 < pair.procCount ∧ 1 ≠ pair.curPid.toNat ∧
    ∃ t, exec (.vread 0x4001) { pair with ptbr := BitVec.ofNat 16 (ptBase std 1) } = .next t ∧
      (t.response == some ⟨.ok, 0⟩) = true :=
  ⟨witness_disciplined, witness_serving, gives_next (by decide), by decide, by decide, gives_next (by decide)⟩

theorem witness_CreateWithFullTableIsLogged :
    (withMem [(1, 64)]).runEnable = true ∧ std.maxProcs ≤ (withMem [(1, 64)]).procCount := by decide

theorem witness_CreateSucceedsExactlyWhenFramesSuffice :
    std.fits = true ∧ (withMem [(1, 63), (3, 0), (4, 0x000F)]).runEnable = true ∧
    procCount std [(1, 63), (3, 0), (4, 0x000F)] < std.maxProcs ∧
    createPages std ≤ freeCount std [(1, 63), (3, 0), (4, 0x000F)] ∧
    (withMem [(3, 0), (4, 0x0007)]).runEnable = true ∧ procCount std [(3, 0), (4, 0x0007)] < std.maxProcs ∧
    freeCount std [(3, 0), (4, 0x0007)] < createPages std := by decide

theorem witness_CreateBuildsTheProcess :
    std.fits = true ∧ pair.runEnable = true ∧ pair.procCount = 2 ∧ 2 < std.maxProcs ∧
    ((assignableFrames std).filter (isFree std pair.mem)).take (createPages std) = [5, 6, 7, 8] ∧
    [5, 6, 7, 8].length = createPages std := by decide
theorem witness_CreateBuildsTheProcess_last :
    (withMem [(1, 63), (3, 0), (4, 0x8007)]).runEnable = true ∧ procCount std [(1, 63), (3, 0), (4, 0x8007)] = 63 ∧
    63 < std.maxProcs ∧
    ((assignableFrames std).filter (isFree std [(1, 63), (3, 0), (4, 0x8007)])).take (createPages std) =
      [16, 29, 30, 31] ∧ [16, 29, 30, 31].length = createPages std := by decide

theorem witness_CreateLoadsTheImages :
    std.fits = true ∧ ((assignableFrames std).filter (isFree std pair.mem)).take (createPages std) = [5, 6, 7, 8] ∧
    ∃ t, exec (.create [1, 2] [3]) pair = .next t ∧ (t.response == some ⟨.ok, 2⟩) = true :=
  ⟨std_fits, by decide, gives_next (by decide)⟩

theorem witness_FailedCreateLeavesNoMapping :
    std.fits = true ∧ (withMem [(3, 0), (4, 0x0007)]).runEnable = true ∧ procCount std [(3, 0), (4, 0x0007)] = 0 ∧
    0 < std.maxProcs ∧ freeCount std [(3, 0), (4, 0x0007)] < createPages std := by decide

theorem witness_FailedCreateLeavesStaleWords :
    std.fits = true ∧ (withMem [(3, 0), (4, 0x0007)]).runEnable = true ∧ procCount std [(3, 0), (4, 0x0007)] = 0 ∧
    0 < std.maxProcs ∧ (assignableFrames std).filter (isFree std [(3, 0), (4, 0x0007)]) = [29, 30, 31] ∧
    [29, 30, 31].length < createPages std ∧ std.codePages ≤ [29, 30, 31].length ∧ std.codePages ≤ 2 ∧
    [29, 30, 31][2]? = some 31 := by decide
theorem witness_FailedCreateLeavesStaleWords_one :
    (withMem [(1, 63), (3, 0), (4, 0x0001)]).runEnable = true ∧ procCount std [(1, 63), (3, 0), (4, 0x0001)] = 63 ∧
    63 < std.maxProcs ∧ (assignableFrames std).filter (isFree std [(1, 63), (3, 0), (4, 0x0001)]) = [31] ∧
    [31].length < createPages std ∧ [31].length < std.codePages := by decide

theorem witness_LoadRestoresTheContext : std.fits = true ∧ pair.runEnable = true ∧
    (63#16).toNat < std.maxProcs := by decide

theorem witness_YieldSwitchesToTheNextLive :
    std.fits = true ∧ IsYield .trapvecYield ∧ Serving pair ∧ SlotsInRange pair ∧ pair.curPid.toNat = 0 ∧
    FirstAfter std pair.mem 0 1 :=
  ⟨std_fits, .inr rfl, witness_serving, witness_slotsInRange, by decide,
    ⟨1, by decide, by decide, by decide, by decide, fun j h1 h2 => by omega⟩⟩
theorem witness_YieldSwitchesToTheNextLive_itself :
    IsYield .yield ∧ Serving survivor ∧ SlotsInRange survivor ∧ survivor.curPid.toNat = 1 ∧
    FirstAfter std survivor.mem 1 1 :=
  ⟨.inl rfl, by unfold Serving; decide, by unfold SlotsInRange; decide, by decide,
    ⟨2, by decide, by decide, by decide, by decide, fun j h1 h2 => by
      obtain rfl : j = 1 := by omega
      decide⟩⟩

theorem witness_YieldWithNoneLiveOnlySaves :
    std.fits = true ∧ IsYield .yield ∧ Serving (astray 0x1000) ∧ SlotsInRange (astray 0x1000) ∧
    (astray 0x1000).curPid.toNat = 0 ∧ AllTerminated std (astray 0x1000).mem ∧ Disciplined pair ∧ Serving pair :=
  ⟨std_fits, .inl rfl, by unfold Serving; decide, by unfold SlotsInRange; decide, by decide,
    by unfold AllTerminated; decide, witness_disciplined, witness_serving⟩

theorem witness_TwoProcessesYieldThereAndBack :
    std.fits = true ∧ Disciplined pair ∧ Serving pair ∧ pair.procCount = 2 ∧ live std pair.mem 0 = true ∧
    live std pair.mem 1 = true ∧
    pair.curPid = 0#16 :=
  ⟨std_fits, witness_disciplined, witness_serving, by decide, by decide, by decide, by decide⟩

theorem witness_LiveProcessRunsWithinOneCycle :
    std.fits = true ∧ Disciplined pair ∧ Serving pair ∧ live std pair.mem 1 = true :=
  ⟨std_fits, witness_disciplined, witness_serving, by decide⟩

theorem witness_HaltSwitchesToTheNextLive :
    std.fits = true ∧ IsHalt .trapvecHalt ∧ Serving pair ∧ SlotsInRange pair ∧ PtbrIsTable pair ∧
    pair.curPid.toNat = 0 ∧ FirstAfter std (pair.mem.write std (pcb std 0) (terminatedWord std)) 0 1 :=
  ⟨std_fits, .inr rfl, witness_serving, witness_slotsInRange, witness_ptbrIsTable, by decide,
    ⟨1, by decide, by decide, by decide, by decide, fun j h1 h2 => by omega⟩⟩

/-- The same with an entry whose frame field is past the last frame (log 26), and a second process. -/
theorem witness_HaltSwitchesToTheNextLive_corrupted (s : State)
    (hs : s = { corrupted with mem := [(5, 0), (7, 2), (2005, 0xFC07)] }) :
    s.cfg.fits = true ∧ IsHalt .halt ∧ Serving s ∧ SlotsInRange s ∧ PtbrIsTable s ∧ s.curPid.toNat = 0 ∧
    FirstAfter s.cfg (s.mem.write s.cfg (pcb s.cfg 0) (terminatedWord s.cfg)) 0 1 := by
  subst hs
  exact ⟨by decide, .inl rfl, by unfold Serving; decide, by unfold SlotsInRange; decide, ⟨0, by decide, by decide⟩,
    by decide, ⟨1, by decide, by decide, by decide, by decide, fun j h1 h2 => by omega⟩⟩

theorem witness_LastHaltStopsTheRun :
    std.fits = true ∧ IsHalt .halt ∧ Serving survivor ∧ SlotsInRange survivor ∧ PtbrIsTable survivor ∧
    survivor.curPid.toNat = 1 ∧ AllTerminated std (survivor.mem.write std (pcb std 1) (terminatedWord std)) :=
  ⟨std_fits, .inl rfl, by unfold Serving; decide, by unfold SlotsInRange; decide, ⟨1, by decide, by decide⟩, by decide,
    by unfold AllTerminated; decide⟩

/-- The same with an entry whose frame field is past the last frame (log 26). -/
theorem witness_LastHaltStopsTheRun_corrupted :
    corrupted.cfg.fits = true ∧ IsHalt .halt ∧ Serving corrupted ∧ SlotsInRange corrupted ∧ PtbrIsTable corrupted ∧
    corrupted.curPid.toNat = 0 ∧ AllTerminated corrupted.cfg
      (corrupted.mem.write corrupted.cfg (pcb corrupted.cfg 0) (terminatedWord corrupted.cfg)) :=
  ⟨by decide, .inl rfl, corrupted_serving, by unfold SlotsInRange; decide, corrupted_ptbrIsTable, by decide,
    by unfold AllTerminated; decide⟩

theorem witness_HaltReturnsEveryPage : std.fits = true ∧ Disciplined pair ∧ Serving pair :=
  ⟨std_fits, witness_disciplined, witness_serving⟩

theorem witness_GrowMapsOrLogs_mapped :
    IsGrow (.brk 8 true false true) 8 true false ∧ 8 < std.ptEntries ∧ Serving pair ∧ PtbrIsTable pair ∧
    (pair.word (pair.ptbr.toNat + 8)).getLsbD 0 = true :=
  ⟨.inl rfl, by decide, witness_serving, witness_ptbrIsTable, by decide⟩
theorem witness_GrowMapsOrLogs_noFrame :
    IsGrow (.grow 31 true true) 31 true true ∧ 31 < std.ptEntries ∧ Serving crowded ∧ PtbrIsTable crowded ∧
    (crowded.word (crowded.ptbr.toNat + 31)).getLsbD 0 = false ∧ NoneFree std crowded.mem :=
  ⟨.inr (.inl rfl), by decide, by unfold Serving; decide, ⟨0, by decide, by decide⟩, by decide,
    noneFree_of (by decide)⟩
theorem witness_GrowMapsOrLogs_mapping :
    IsGrow (.trapvecBrk 31 false true true) 31 false true ∧ 31 < std.ptEntries ∧ Serving pair ∧ PtbrIsTable pair ∧
    (pair.word (pair.ptbr.toNat + 31)).getLsbD 0 = false ∧ LowestFree std pair.mem 5 :=
  ⟨.inr (.inr rfl), by decide, witness_serving, witness_ptbrIsTable, by decide,
    lowestFree_of (by decide) (by decide) (by decide) (by decide)⟩

theorem astray_not_table : ¬ PtbrIsTable (astray 0) := fun ⟨p, _, h⟩ => by
  have : (0 : Nat) = 4096 + 32 * p := h
  omega
/-- PTBR 0, as LOAD of a slot never created leaves it (R87): the entry of page 1 is the Word of `proc_count`, and that
of page 3 a Word of the bitmap, here with its bit 0 set. -/
theorem witness_GrowMapsOrLogs_noTable :
    ¬ PtbrIsTable (astray 0) ∧ Serving (astray 0) ∧ ((astray 0).word ((astray 0).ptbr.toNat + 1)).getLsbD 0 = false ∧
    (astray 0).ptbr.toNat + 1 < std.memWords ∧ LowestFree std (astray 0).mem 3 ∧
    bmWord std 3 ≠ (astray 0).ptbr.toNat + 1 ∧
    ((astray 0).word ((astray 0).ptbr.toNat + 3)).getLsbD 0 = true :=
  ⟨astray_not_table, by unfold Serving; decide, by decide, by decide,
    lowestFree_of (by decide) (by decide) (by decide) (by decide), by decide, by decide⟩
/-- As above; the frame that the bitmap Word names when taken for an entry has its own bit in that Word. -/
theorem witness_ShrinkUnmapsOrLogs_noTable :
    ¬ PtbrIsTable (astray 0) ∧ Serving (astray 0) ∧ ((astray 0).word ((astray 0).ptbr.toNat + 3)).getLsbD 0 = true ∧
    (astray 0).ptbr.toNat + 3 < std.memWords ∧ bmWord std 16 ≠ (astray 0).ptbr.toNat + 3 ∧
    ((astray 0).word ((astray 0).ptbr.toNat + 1)).getLsbD 0 = false :=
  ⟨astray_not_table, by unfold Serving; decide, by decide, by decide, by decide, by decide⟩
theorem witness_ShrinkUnmapsOrLogs :
    IsShrink (.brk 8 true true false) 8 ∧ IsShrink (.trapvecBrk 31 false false false) 31 ∧ IsShrink (.shrink 8) 8 ∧
    8 < std.ptEntries ∧ 31 < std.ptEntries ∧ Serving pair ∧ PtbrIsTable pair ∧
    (pair.word (pair.ptbr.toNat + 8)).getLsbD 0 = true ∧
    (pair.word (pair.ptbr.toNat + 31)).getLsbD 0 = false :=
  ⟨.inl ⟨_, _, rfl⟩, .inr (.inr ⟨_, _, rfl⟩), .inr (.inl rfl), by decide, by decide, witness_serving,
    witness_ptbrIsTable, by decide, by decide⟩
/-- An entry whose frame field is past the last frame (log 26), a bitmap Word among those that keep their value. -/
theorem witness_ShrinkUnmapsOrLogs_corrupted :
    IsShrink (.shrink 5) 5 ∧ 5 < corrupted.cfg.ptEntries ∧ Serving corrupted ∧ PtbrIsTable corrupted ∧
    (corrupted.word (corrupted.ptbr.toNat + 5)).getLsbD 0 = true ∧
    corrupted.cfg.numFrames ≤ pteFrame corrupted.cfg (corrupted.word (corrupted.ptbr.toNat + 5)) ∧
    corrupted.cfg.bitmapAddr < corrupted.cfg.memWords ∧ corrupted.cfg.bitmapAddr ≠ corrupted.ptbr.toNat + 5 :=
  ⟨.inr (.inl rfl), by decide, corrupted_serving, corrupted_ptbrIsTable, by decide, by decide, by decide, by decide⟩

theorem witness_GrowThenShrinkRestoresTheBitmap :
    31 < std.ptEntries ∧ Serving pair ∧ PtbrIsTable pair ∧ (pair.word (pair.ptbr.toNat + 31)).getLsbD 0 = false ∧
    0 < freeCount std pair.mem := ⟨by decide, witness_serving, witness_ptbrIsTable, by decide, by decide⟩

theorem witness_OnlyStatedOperationsChangeRegisters :
    (¬ IsYield .alloc ∧ ¬ IsHalt .alloc ∧ (∀ p, Instr.alloc ≠ .load p) ∧ ∀ va k, ¬ Accesses .alloc va k) ∧
    ∃ t, exec .alloc pair = .next t ∧ (t.response == some ⟨.ok, 5⟩) = true :=
  ⟨⟨(fun h => by rcases h with h | h <;> cases h), (fun h => by rcases h with h | h <;> cases h),
    (fun _ h => by cases h),
    (fun _ _ h => by rcases h with h | ⟨h, _⟩ | ⟨_, h, _⟩ <;> cases h)⟩, gives_next (by decide)⟩

theorem witness_OnlyCreateAndVwriteWriteFrames :
    std.fits = true ∧ (Instr.brk 31 true true true).wellFormed std = true ∧
    (∃ t, exec (.brk 31 true true true) pair = .next t) ∧
    (∀ code heap, Instr.brk 31 true true true ≠ .create code heap) ∧
    (∀ va d, Instr.brk 31 true true true ≠ .vwrite va d) ∧ PtbrIsTable pair ∧
    pair.curPid.toNat < std.maxProcs :=
  ⟨std_fits, by decide, stepsOn (by decide), (fun _ _ h => by cases h), (fun _ _ h => by cases h), witness_ptbrIsTable,
    by decide⟩
/-- A shrink of an entry whose frame field is past the last frame (log 26). -/
theorem witness_OnlyCreateAndVwriteWriteFrames_corrupted :
    corrupted.cfg.fits = true ∧ (Instr.shrink 5).wellFormed corrupted.cfg = true ∧
    (∃ t, exec (.shrink 5) corrupted = .next t ∧
      (t == { corrupted with mem := [(5, 0), (7, 1), (2005, 0xFC06)], response := some ⟨.ok, 0⟩ }) = true) ∧
    (∀ code heap, Instr.shrink 5 ≠ .create code heap) ∧ (∀ va d, Instr.shrink 5 ≠ .vwrite va d) ∧
    PtbrIsTable corrupted ∧ corrupted.curPid.toNat < corrupted.cfg.maxProcs :=
  ⟨by decide, by decide, gives_next (by decide), (fun _ _ h => by cases h), (fun _ _ h => by cases h),
    corrupted_ptbrIsTable, by decide⟩
theorem witness_OnlyCreateAndVwriteWriteFrames_reset :
    Instr.alloc.wellFormed std = true ∧ (∃ t, exec .alloc State.reset = .next t) ∧
    (∀ code heap, Instr.alloc ≠ .create code heap) ∧ (∀ va d, Instr.alloc ≠ .vwrite va d) ∧
    State.reset.curPid = noProcessWord std :=
  ⟨by decide, stepsOn (by decide), (fun _ _ h => by cases h), (fun _ _ h => by cases h), by decide⟩

theorem witness_EndedRunIsFrozen :
    (issuing stopped .alloc).runEnable = false ∧ (∀ rest, (issuing stopped .alloc).input ≠ .reset :: rest) ∧
    { aborted with input := [.setPc 5] }.runEnable = false ∧
    ∀ rest, { aborted with input := [.setPc 5] }.input ≠ .reset :: rest :=
  ⟨by decide, (fun _ h => by cases h), by decide, fun _ h => by cases h⟩

theorem witness_StepKeepsTheCanonicalForm :
    Canonical (issuing pair .halt) ∧ ∃ t, step (issuing pair .halt) = .next t :=
  ⟨by unfold Canonical; decide +kernel, stepsOn (by decide +kernel)⟩

theorem witness_StepKeepsLatchAndLogTogether :
    LatchMatchesLog (issuing pair (.vread 0)) ∧ LatchMatchesLog (issuing aborted .alloc) ∧
    (∃ t, step (issuing pair (.vread 0)) = .next t ∧ (t.fault.cause == .reservedRegion) = true) ∧
    ∃ t, step (issuing aborted .alloc) = .next t :=
  ⟨⟨rfl, rfl⟩, ⟨[], rfl, rfl⟩, gives_next (by decide), stepsOn (by decide)⟩

theorem witness_DisciplinedStepKeepsTheInvariants :
    std.fits = true ∧ Disciplined (issuing pair .halt) ∧ nextDisciplined (issuing pair .halt) = true ∧
    ∃ t, step (issuing pair .halt) = .next t :=
  ⟨std_fits, disciplined_issuing witness_disciplined _, by decide, stepsOn (by decide +kernel)⟩

/-- A disciplined run of two steps, after which VWRITE answers. -/
theorem witness_DisciplinedRunsKeepTheInvariants :
    ∃ s, s.cfg.fits = true ∧ DisciplinedRun s ∧ ∃ t, exec (.vwrite 0x4000 5) s = .next t ∧
    (t.response == some ⟨.ok, 0⟩) = true := by
  refine ⟨{ one with input := [] }, by decide, ?_, gives_next (by decide)⟩
  let inputs := [Input.issue (encode std (.create [0x1111, 0x2222] [0xAAAA])), .issue (encode std (.load 0))]
  have h0 := DisciplinedRun.start defaultParams inputs
  obtain ⟨s, hs, es⟩ := gives_next (r := step { State.reset with input := inputs })
    (p := fun s => s == { after [.create [0x1111, 0x2222] [0xAAAA]] State.reset with input := inputs.tail })
    (by decide)
  have h1 := DisciplinedRun.next _ _ h0 (by decide) hs
  rw [eq_of_beq es] at h1
  obtain ⟨t, ht, et⟩ := gives_next
    (r := step { after [.create [0x1111, 0x2222] [0xAAAA]] State.reset with input := inputs.tail })
    (p := fun t => t == { one with input := [] }) (by decide)
  have h2 := DisciplinedRun.next _ _ h1 (by decide) ht
  rwa [eq_of_beq et] at h2

theorem witness_disciplined_foreign_vector :
    nextDisciplined { pair with input := [.issue (.trapVector 0x20 0)] } = true := by decide

theorem witness_EveryStepAnswers :
    (placeFirst pair (plainCommand 0xFFFF 0 0)).input = .issue (.command ⟨0xFFFF, 0, 0, [], []⟩) :: [] := by decide

theorem witness_TerminatedIsForEver :
    std.fits = true ∧ Disciplined (issuing survivor .yield) ∧ nextDisciplined (issuing survivor .yield) = true ∧
    (∀ rest, (issuing survivor .yield).input ≠ .reset :: rest) ∧ (∃ t, step (issuing survivor .yield) = .next t) ∧
    0 < (issuing survivor .yield).procCount ∧ notTerminated std (issuing survivor .yield).mem 0 = false :=
  ⟨std_fits, disciplined_issuing witness_disciplined_survivor _, by decide, (fun _ h => by cases h),
    stepsOn (by decide +kernel), by decide, by decide⟩

theorem witness_ProcessStates_create :
    std.fits = true ∧ (∃ t, exec (.create [] []) pair = .next t ∧ (t.response == some ⟨.ok, 2⟩) = true) ∧
    pair.curPid.toNat ≠ (2#16).toNat ∧ (2#16).toNat ∉ pair.everLoaded :=
  ⟨std_fits, gives_next (by decide), by decide, by decide⟩
theorem witness_ProcessStates_load :
    std.fits = true ∧ (∃ t, exec (.load 1) pair = .next t ∧ (t.response == some ⟨.ok, 0⟩) = true) ∧
    live std pair.mem (1#16).toNat = true ∧ pair.procCount ≤ std.maxProcs ∧ pair.curPid.toNat ∈ pair.everLoaded :=
  ⟨std_fits, gives_next (by decide), by decide, by decide, by decide⟩
theorem witness_ProcessStates_yield :
    std.fits = true ∧ IsYield .yield ∧ Disciplined pair ∧ Serving pair ∧ pair.curPid.toNat ∈ pair.everLoaded ∧
    ∃ t, exec .yield pair = .next t ∧ (t.response == some ⟨.ok, 1⟩) = true :=
  ⟨std_fits, .inl rfl, witness_disciplined, witness_serving, by decide, gives_next (by decide)⟩
theorem witness_ProcessStates_halt :
    std.fits = true ∧ IsHalt .halt ∧ Disciplined pair ∧ Serving pair ∧
    ∃ t, exec .halt pair = .next t ∧ (t.response == some ⟨.ok, 1⟩) = true :=
  ⟨std_fits, .inl rfl, witness_disciplined, witness_serving, gives_next (by decide +kernel)⟩

theorem witness_YieldIsLiteralInEveryState :
    IsYield .yield ∧ Serving pair ∧ pair.curPid.toNat = 0 ∧
    FirstAfter std ((pair.mem.write std (pcb std 0 + 1) pair.pc).write std (pcb std 0 + 2) pair.ptbr) 0 1 :=
  ⟨.inl rfl, witness_serving, by decide, ⟨1, by decide, by decide, by decide, by decide, fun j h1 h2 => by omega⟩⟩
/-- A current pid without a slot, and no process created. -/
theorem witness_YieldIsLiteralInEveryState_noSlot :
    Serving (withMem [(0, 0x5807)]) ∧ (withMem [(0, 0x5807)]).curPid.toNat = 22535 ∧
    std.memWords ≤ pcb std 22535 ∧
    AllTerminated std (((withMem [(0, 0x5807)]).mem.write std (pcb std 22535 + 1) 0).write std (pcb std 22535 + 2) 0) :=
  ⟨by unfold Serving; decide, by decide, by decide, by unfold AllTerminated; decide⟩

theorem witness_HaltIsLiteralInEveryState :
    IsHalt .halt ∧ Serving survivor ∧ survivor.curPid.toNat = 1 ∧
    AllTerminated std ((unmapAll std survivor.mem survivor.ptbr.toNat).write std (pcb std 1) (terminatedWord std)) :=
  ⟨.inl rfl, by unfold Serving; decide, by decide, by unfold AllTerminated; decide +kernel⟩
theorem witness_HaltIsLiteralInEveryState_switch :
    Serving pair ∧
    FirstAfter std ((unmapAll std pair.mem pair.ptbr.toNat).write std (pcb std 0) (terminatedWord std)) 0 1 :=
  ⟨witness_serving, ⟨1, by decide, by decide +kernel, by decide +kernel, by decide +kernel, fun j h1 h2 => by omega⟩⟩

theorem witness_AddressPastMemoryCompletes_access :
    Serving (astray 0xFFFA) ∧ Accesses (.vread 0x3000) 0x3000 .read ∧ entryAddr (astray 0xFFFA) 0x3000 = 65536 :=
  ⟨by unfold Serving; decide, .inr (.inl ⟨rfl, rfl⟩), by decide⟩
theorem witness_AddressPastMemoryCompletes_grow :
    Serving (astray 0xFFFF) ∧ IsGrow (.grow 1 true true) 1 true true ∧ (astray 0xFFFF).ptbr.toNat + 1 = 65536 ∧
    LowestFree std (astray 0xFFFF).mem 3 :=
  ⟨by unfold Serving; decide, .inr (.inl rfl), by decide,
    lowestFree_of (by decide) (by decide) (by decide) (by decide)⟩
theorem witness_AddressPastMemoryCompletes_grow_noFrame :
    Serving { crowded with ptbr := 0xFFE1 } ∧ { crowded with ptbr := 0xFFE1 }.ptbr.toNat + 31 = 65536 ∧
    NoneFree std { crowded with ptbr := 0xFFE1 }.mem :=
  ⟨by unfold Serving; decide, by decide, noneFree_of (by decide)⟩
theorem witness_AddressPastMemoryCompletes_shrink :
    Serving (astray 0xFFFF) ∧ IsShrink (.shrink 1) 1 ∧ (astray 0xFFFF).ptbr.toNat + 1 = 65536 :=
  ⟨by unfold Serving; decide, .inr (.inl rfl), by decide⟩

end Sys2Proof.Tests
end

section
/-! PROOFS. The configuration record is fixed (00_scope.md R6, R7, R10): what each shared operation keeps of it, then
one instruction, then one step. -/

namespace Sys2Proof.Machine

/-! ### What `exec` runs for each operation -/

section arms
variable (s : State)

theorem exec_alloc : exec .alloc s = unlessRefused s true false fun s => s.finish (alloc s.cfg s.mem) := rfl

theorem exec_free (frame : Word) : exec (.free frame) s =
    unlessRefused s (isFrame s.cfg frame) false fun s => s.finish (freeFrame s.cfg s.mem frame.toNat) := rfl

theorem exec_map (tb : Word) (vpn : Nat) (read write : Bool) : exec (.map tb vpn read write) s =
    unlessRefused s (isTableBase s.cfg tb) false fun s =>
      s.finish (mapPage s.cfg s.mem tb.toNat vpn read write) := rfl

theorem exec_unmap (tb : Word) (vpn : Nat) : exec (.unmap tb vpn) s =
    unlessRefused s (isTableBase s.cfg tb) false fun s => s.finish (unmapPage s.cfg s.mem tb.toNat vpn) := rfl

theorem exec_xlate (va : Word) (kind : AccessKind) : exec (.xlate va kind) s =
    unlessRefused s true true fun s => access s va kind fun pa => s.respond .ok (addressWord s.cfg pa) := rfl

theorem exec_vread (va : Word) : exec (.vread va) s =
    unlessRefused s true true fun s => access s va .read fun pa => s.respond .ok (s.word pa) := rfl

theorem exec_vwrite (va data : Word) : exec (.vwrite va data) s =
    unlessRefused s true true fun s =>
      access s va .write fun pa => { s with mem := s.mem.write s.cfg pa data }.respond .ok 0 := rfl

theorem exec_create (code heap : List Word) : exec (.create code heap) s =
    unlessRefused s true false fun s =>
      if s.cfg.maxProcs ≤ s.procCount then
        (s.diag .pcbTableFull (BitVec.ofNat 16 s.procCount) s.curPid).respond .pcbTableFull 0
      else s.finish (createProcess s.cfg s.mem code heap) := rfl

theorem exec_load (pid : Word) : exec (.load pid) s =
    unlessRefused s (isSlot s.cfg pid) false fun s => (loadProcess s pid.toNat).respond .ok 0 := rfl

theorem exec_yield : exec .yield s = unlessRefused s true true yieldBody := rfl

theorem exec_halt : exec .halt s = unlessRefused s true true haltBody := rfl

theorem exec_brk (vpn : Nat) (read write grow : Bool) :
    exec (.brk vpn read write grow) s = unlessRefused s true true (brkBody vpn read write grow) := rfl

theorem exec_grow (vpn : Nat) (read write : Bool) :
    exec (.grow vpn read write) s = exec (.brk vpn read write true) s := rfl

theorem exec_shrink (vpn : Nat) : exec (.shrink vpn) s = exec (.brk vpn false false false) s := rfl

theorem exec_reservedC : exec .reservedC s = .next (refuse s) := rfl

theorem exec_reservedD : exec .reservedD s = .next (refuse s) := rfl

theorem exec_reservedE : exec .reservedE s = .next (refuse s) := rfl

theorem exec_reservedF : exec .reservedF s = .next (refuse s) := rfl

theorem exec_trapvecHalt : exec .trapvecHalt s = exec .halt s := rfl

theorem exec_trapvecYield : exec .trapvecYield s = exec .yield s := rfl

theorem exec_trapvecBrk (vpn : Nat) (read write grow : Bool) :
    exec (.trapvecBrk vpn read write grow) s = exec (.brk vpn read write grow) s := rfl

end arms

/-! ### Reasoning rules for refusal and access -/

/-- R53: what holds of the refusal and, where the command is accepted, of its body holds of the outcome. -/
theorem of_unlessRefused {P : State → Prop} {s t : State} {inRange needsProcess : Bool} {body : State → State}
    (h : unlessRefused s inRange needsProcess body = .next t) (hrefuse : P (refuse s))
    (hbody : s.runEnable = true → inRange = true → (needsProcess = true → s.curPid ≠ noProcessWord s.cfg) →
      P (body s)) : P t := by
  rcases unlessRefused_spec s inRange needsProcess body with he | ⟨hrun, hrange, hproc, he⟩
  · rw [he] at h
    cases h
    exact hrefuse
  · rw [he] at h
    cases h
    exact hbody hrun hrange hproc

/-- A command keeps the configuration if its body does; a refused one changes the response alone. -/
theorem unlessRefused_params {s t : State} {inRange needsProcess : Bool} {body : State → State}
    (h : unlessRefused s inRange needsProcess body = .next t) (hbody : (body s).params = s.params) :
    t.params = s.params :=
  of_unlessRefused (P := fun u => u.params = s.params) h (refuse_params s) fun _ _ _ => hbody

/-- R70, R104: an access keeps the configuration if what it goes on to at the address does. -/
theorem access_params {s : State} {onAddress : Nat → State} (va : Word) (kind : AccessKind)
    (h : ∀ pa, (onAddress pa).params = s.params) : (access s va kind onAddress).params = s.params := by
  rcases access_spec s va kind onAddress with ⟨pa, -, he⟩ | ⟨cause, -, -, he⟩
  · rw [he, h pa]
  · rw [he, raiseFault_params]

/-! ### The trap bodies -/

@[simp] theorem yieldBody_params (s : State) : (yieldBody s).params = s.params := by
  rcases yieldBody_spec s with ⟨p, -, he⟩ | ⟨-, he⟩ <;> simp [he]

@[simp] theorem haltBody_params (s : State) : (haltBody s).params = s.params := by
  rcases haltBody_spec s with ⟨p, -, he⟩ | ⟨-, he⟩ <;> simp [he]

@[simp] theorem brkBody_params (s : State) (vpn : Nat) (read write grow : Bool) :
    (brkBody vpn read write grow s).params = s.params := by
  rw [brkBody_spec]

/-! ### One instruction, one step -/

/-- R10: no operation changes the configuration. -/
theorem exec_params {i : Instr} {s t : State} (h : exec i s = .next t) : t.params = s.params := by
  have hyield (h : exec .yield s = .next t) : t.params = s.params :=
    unlessRefused_params (exec_yield s ▸ h) (yieldBody_params s)
  have hhalt (h : exec .halt s = .next t) : t.params = s.params :=
    unlessRefused_params (exec_halt s ▸ h) (haltBody_params s)
  have hbrk {vpn read write grow} (h : exec (.brk vpn read write grow) s = .next t) : t.params = s.params :=
    unlessRefused_params (exec_brk s vpn read write grow ▸ h) (brkBody_params s vpn read write grow)
  have hrefused (h : Host.Outcome.next (refuse s) = (.next t : Result)) : t.params = s.params := by
    cases h
    exact refuse_params s
  cases i with
  | alloc => exact unlessRefused_params (exec_alloc s ▸ h) (finish_params _ _)
  | free frame => exact unlessRefused_params (exec_free s frame ▸ h) (finish_params _ _)
  | map tb vpn read write => exact unlessRefused_params (exec_map s tb vpn read write ▸ h) (finish_params _ _)
  | unmap tb vpn => exact unlessRefused_params (exec_unmap s tb vpn ▸ h) (finish_params _ _)
  | xlate va kind =>
    exact unlessRefused_params (exec_xlate s va kind ▸ h) (access_params va kind (by intro pa; rfl))
  | vread va =>
    exact unlessRefused_params (exec_vread s va ▸ h) (access_params va .read (by intro pa; rfl))
  | vwrite va data =>
    exact unlessRefused_params (exec_vwrite s va data ▸ h) (access_params va .write (by intro pa; rfl))
  | create code heap =>
    refine unlessRefused_params (exec_create s code heap ▸ h) ?_
    split
    · rw [respond_params, diag_params]
    · rw [finish_params]
  | load pid => exact unlessRefused_params (exec_load s pid ▸ h) (loadProcess_params s pid.toNat)
  | yield => exact hyield h
  | halt => exact hhalt h
  | brk => exact hbrk h
  | grow vpn read write => exact hbrk (exec_grow s vpn read write ▸ h)
  | shrink vpn => exact hbrk (exec_shrink s vpn ▸ h)
  | reservedC => exact hrefused (exec_reservedC s ▸ h)
  | reservedD => exact hrefused (exec_reservedD s ▸ h)
  | reservedE => exact hrefused (exec_reservedE s ▸ h)
  | reservedF => exact hrefused (exec_reservedF s ▸ h)
  | trapvecHalt => exact hhalt (exec_trapvecHalt s ▸ h)
  | trapvecYield => exact hyield (exec_trapvecYield s ▸ h)
  | trapvecBrk vpn read write grow => exact hbrk (exec_trapvecBrk s vpn read write grow ▸ h)

/-- R51, R52: words that decode to no instruction keep the configuration. -/
@[simp] theorem settleUndecoded_params (s : State) (err : DecodeError) :
    (settleUndecoded s err).params = s.params := by
  cases err with
  | illegalCommandWord cw => exact refuse_params s
  | foreignTrapVector vector => rfl

/-- R10, R120: no step changes the configuration, whatever its input asks for; RESET starts the machine again at the
configuration it is built at. -/
theorem step_params {s t : State} (h : step s = .next t) : t.params = s.params := by
  rcases step_cases s with
    ⟨-, he⟩ | ⟨_, rest, -, ⟨_, _, -, -, he⟩ | ⟨_, err, -, -, he⟩ | ⟨v, -, he⟩ | ⟨-, he⟩⟩ <;> rw [he] at h
  · cases h; rfl
  · exact exec_params (s := { s with input := rest }) h
  · cases h; exact settleUndecoded_params _ err
  · cases h; exact setPc_params _ v
  · cases h; exact resetAt_params s.params

/-! ### The obligation -/

/-- Settles O2: the configuration is kept by `exec_params` and `step_params`, is well-formed because every state carries
the proof (R7), and the addresses of the defaults are computed. -/
theorem theConfigurationIsFixed : Obligations.TheConfigurationIsFixed := by
  unfold Obligations.TheConfigurationIsFixed
  exact ⟨fun _ _ _ h => exec_params h, fun _ _ h => step_params h, fun s => s.params.wellFormed, rfl,
    by decide⟩

end Sys2Proof.Machine
end

section
/-! PROOFS. What one operation can do (30_encoding.md R45, R53), said once for all of them; and the
canonical form of memory and of the loaded pids, which every step keeps (logs 18, 6). -/

namespace Sys2Proof.Machine

open Sys2Proof.Safety

/-! ### Spellings of one operation (R52, R58) -/

theorem exec_of_isYield {i : Instr} (hi : IsYield i) (s : State) : exec i s = exec .yield s := by
  rcases hi with rfl | rfl
  · rfl
  · exact exec_trapvecYield s

theorem exec_of_isHalt {i : Instr} (hi : IsHalt i) (s : State) : exec i s = exec .halt s := by
  rcases hi with rfl | rfl
  · rfl
  · exact exec_trapvecHalt s

theorem exec_of_isGrow {i : Instr} {vpn : Nat} {r w : Bool} (hi : IsGrow i vpn r w) (s : State) :
    exec i s = exec (.brk vpn r w true) s := by
  rcases hi with rfl | rfl | rfl
  · rfl
  · exact exec_grow s vpn r w
  · exact exec_trapvecBrk s vpn r w true

/-- A shrink runs BRK with some permissions, which it ignores. -/
theorem exec_of_isShrink {i : Instr} {vpn : Nat} (hi : IsShrink i vpn) (s : State) :
    ∃ r w, exec i s = exec (.brk vpn r w false) s := by
  rcases hi with ⟨r, w, rfl⟩ | rfl | ⟨r, w, rfl⟩
  · exact ⟨r, w, rfl⟩
  · exact ⟨false, false, exec_shrink s vpn⟩
  · exact ⟨r, w, exec_trapvecBrk s vpn r w false⟩

/-- R53: an operation that needs a current process runs its body while the run goes on and there is one. -/
theorem unlessRefused_of_serving {s : State} (h : Serving s) (body : State → State) :
    unlessRefused s true true body = .next (body s) :=
  unlessRefused_of_accepted h.1 (fun _ => h.2) body

/-! ### What `exec` can do -/

/-- What an instruction can lead to from `s`: it is refused, or it is accepted and its body runs. The three operations
that translate end in an answer, a store or a fault. -/
inductive Effect (s : State) : Instr → State → Prop
  | refused (i : Instr) : Effect s i (refuse s)
  | allocated : Effect s .alloc (s.finish (alloc s.cfg s.mem))
  | freed (f : Word) : Effect s (.free f) (s.finish (freeFrame s.cfg s.mem f.toNat))
  | mapped (tb : Word) (vpn : Nat) (r w : Bool) :
      Effect s (.map tb vpn r w) (s.finish (mapPage s.cfg s.mem tb.toNat vpn r w))
  | unmapped (tb : Word) (vpn : Nat) : Effect s (.unmap tb vpn) (s.finish (unmapPage s.cfg s.mem tb.toNat vpn))
  | answered {i : Instr} {va : Word} {k : AccessKind} (hi : Accesses i va k) (v : Word) : Effect s i (s.respond .ok v)
  | faulted {i : Instr} {va : Word} {k : AccessKind} (hi : Accesses i va k) {cause : FaultCause}
      (hcause : cause ≠ .none) : Effect s i (raiseFault s cause va k)
  | stored {va : Word} (d : Word) {pa : Nat} (hserv : Serving s) (hpa : translate s va .write = .address pa) :
      Effect s (.vwrite va d) ({ s with mem := s.mem.write s.cfg pa d }.respond .ok 0)
  | tableFull (code heap : List Word) : Effect s (.create code heap)
      ((s.diag .pcbTableFull (BitVec.ofNat 16 s.procCount) s.curPid).respond .pcbTableFull 0)
  | created (code heap : List Word) (hroom : s.procCount < s.cfg.maxProcs) :
      Effect s (.create code heap) (s.finish (createProcess s.cfg s.mem code heap))
  | loaded (pid : Word) : Effect s (.load pid) ((loadProcess s pid.toNat).respond .ok 0)
  | yielded {i : Instr} (hi : IsYield i) (hserv : Serving s) : Effect s i (yieldBody s)
  | halted {i : Instr} (hi : IsHalt i) (hserv : Serving s) : Effect s i (haltBody s)
  | grown {i : Instr} {vpn : Nat} {r w : Bool} (hi : IsGrow i vpn r w) (hserv : Serving s) :
      Effect s i (brkBody vpn r w true s)
  | shrunk {i : Instr} {vpn : Nat} (r w : Bool) (hi : IsShrink i vpn) (hserv : Serving s) :
      Effect s i (brkBody vpn r w false s)

/-- An operation with a body that needs a current process has an effect if its body has. -/
theorem Effect.of_serving {i : Instr} {s t : State} {body : State → State}
    (h : unlessRefused s true true body = .next t) (hbody : Serving s → Effect s i (body s)) : Effect s i t :=
  of_unlessRefused h (.refused i) fun hrun _ hproc => hbody ⟨hrun, hproc rfl⟩

/-- R70, R104: an access that goes on to an effect at every address has an effect. -/
theorem Effect.of_access {i : Instr} {s : State} {va : Word} {k : AccessKind} {onAddress : Nat → State}
    (hi : Accesses i va k) (h : ∀ pa, translate s va k = .address pa → Effect s i (onAddress pa)) :
    Effect s i (access s va k onAddress) := by
  rcases access_spec s va k onAddress with ⟨pa, hpa, he⟩ | ⟨cause, hcause, -, he⟩ <;> rw [he]
  · exact h pa hpa
  · exact .faulted hi hcause

theorem effect_brk {i : Instr} {s t : State} {vpn : Nat} {r w g : Bool}
    (hgrow : g = true → IsGrow i vpn r w) (hshrink : g = false → IsShrink i vpn)
    (h : exec (.brk vpn r w g) s = .next t) : Effect s i t := by
  refine .of_serving (exec_brk s vpn r w g ▸ h) fun hserv => ?_
  cases g with
  | true => exact .grown (hgrow rfl) hserv
  | false => exact .shrunk r w (hshrink rfl) hserv

/-- Every outcome of `exec` is an effect. -/
theorem exec_effect {i : Instr} {s t : State} (h : exec i s = .next t) : Effect s i t := by
  have hrefused (h : Host.Outcome.next (refuse s) = (.next t : Result)) : Effect s i t := by
    cases h
    exact .refused i
  have hyield (hi : IsYield i) : Effect s i t :=
    .of_serving ((exec_yield s).symm.trans ((exec_of_isYield hi s).symm.trans h)) (.yielded hi)
  have hhalt (hi : IsHalt i) : Effect s i t :=
    .of_serving ((exec_halt s).symm.trans ((exec_of_isHalt hi s).symm.trans h)) (.halted hi)
  cases i with
  | alloc => exact of_unlessRefused (exec_alloc s ▸ h) (.refused _) fun _ _ _ => .allocated
  | free f => exact of_unlessRefused (exec_free s f ▸ h) (.refused _) fun _ _ _ => .freed f
  | map tb vpn r w =>
    exact of_unlessRefused (exec_map s tb vpn r w ▸ h) (.refused _) fun _ _ _ => .mapped tb vpn r w
  | unmap tb vpn => exact of_unlessRefused (exec_unmap s tb vpn ▸ h) (.refused _) fun _ _ _ => .unmapped tb vpn
  | xlate va k =>
    have hi : Accesses (.xlate va k) va k := .inl rfl
    exact .of_serving (exec_xlate s va k ▸ h) fun _ => .of_access hi fun _ _ => .answered hi _
  | vread va =>
    have hi : Accesses (.vread va) va .read := .inr (.inl ⟨rfl, rfl⟩)
    exact .of_serving (exec_vread s va ▸ h) fun _ => .of_access hi fun _ _ => .answered hi _
  | vwrite va d =>
    exact .of_serving (exec_vwrite s va d ▸ h) fun hserv =>
      .of_access (.inr (.inr ⟨d, rfl, rfl⟩)) fun _ hpa => .stored d hserv hpa
  | create code heap =>
    refine of_unlessRefused (exec_create s code heap ▸ h) (.refused _) fun _ _ _ => ?_
    split
    · exact .tableFull code heap
    · exact .created code heap (by omega)
  | load pid => exact of_unlessRefused (exec_load s pid ▸ h) (.refused _) fun _ _ _ => .loaded pid
  | yield => exact hyield (.inl rfl)
  | halt => exact hhalt (.inl rfl)
  | brk vpn r w g =>
    exact effect_brk (by rintro rfl; exact .inl rfl) (by rintro rfl; exact .inl ⟨r, w, rfl⟩) h
  | grow vpn r w => exact effect_brk (fun _ => .inr (.inl rfl)) (by simp) (exec_grow s vpn r w ▸ h)
  | shrink vpn => exact effect_brk (by simp) (fun _ => .inr (.inl rfl)) (exec_shrink s vpn ▸ h)
  | reservedC => exact hrefused (exec_reservedC s ▸ h)
  | reservedD => exact hrefused (exec_reservedD s ▸ h)
  | reservedE => exact hrefused (exec_reservedE s ▸ h)
  | reservedF => exact hrefused (exec_reservedF s ▸ h)
  | trapvecHalt => exact hhalt (.inr rfl)
  | trapvecYield => exact hyield (.inr rfl)
  | trapvecBrk vpn r w g =>
    exact effect_brk (by rintro rfl; exact .inr (.inr rfl)) (by rintro rfl; exact .inr (.inr ⟨r, w, rfl⟩))
      (exec_trapvecBrk s vpn r w g ▸ h)

/-! ### The canonical form -/

theorem mem_insertPid {p q : Nat} {l : List Nat} : q ∈ insertPid p l ↔ q = p ∨ q ∈ l := by
  induction l with
  | nil => simp [insertPid]
  | cons a l ih =>
    unfold insertPid
    split_ifs with hlt heq
    · simp
    · subst heq; simp
    · simp [ih, or_left_comm]

theorem pairwise_insertPid {l : List Nat} (p : Nat) (hl : l.Pairwise (· < ·)) : (insertPid p l).Pairwise (· < ·) := by
  induction l with
  | nil => simp [insertPid]
  | cons a l ih =>
    obtain ⟨ha, hl'⟩ := List.pairwise_cons.1 hl
    unfold insertPid
    split_ifs with hlt heq
    · exact List.pairwise_cons.2 ⟨List.forall_mem_cons.2 ⟨hlt, fun b hb => hlt.trans (ha b hb)⟩, hl⟩
    · exact hl
    · refine List.pairwise_cons.2 ⟨fun b hb => ?_, ih hl'⟩
      rcases mem_insertPid.1 hb with rfl | hb
      · omega
      · exact ha b hb

theorem wf_freeFrame {c : Config} {m : Memory} (hm : m.wf c = true) (f : Nat) : (freeFrame c m f).mem.wf c = true :=
  wf_markFree hm f

theorem wf_brkRet {s : State} (hm : s.mem.wf s.cfg = true) (vpn : Nat) (r w g : Bool) :
    (brkRet s vpn r w g).mem.wf s.cfg = true := by
  cases g with
  | true => exact wf_mapPage s.params.wellFormed hm _ vpn r w
  | false => exact wf_unmapPage hm _ vpn

/-- The canonical form speaks of memory, the loaded pids and the configuration alone. -/
theorem canonical_congr {s t : State} (h : Canonical s) (hmem : t.mem = s.mem) (hloaded : t.everLoaded = s.everLoaded)
    (hparams : t.params = s.params) : Canonical t := by
  unfold Canonical State.cfg
  rw [hmem, hloaded, hparams]
  exact h

theorem canonical_loadProcess {s : State} (h : Canonical s) (p : Nat) : Canonical (loadProcess s p) :=
  ⟨wf_write h.1 _ _, pairwise_insertPid p h.2⟩

theorem canonical_saveContext {s : State} (h : Canonical s) (p : Nat) : Canonical (saveContext s p) :=
  ⟨wf_write (wf_write h.1 _ _) _ _, h.2⟩

theorem canonical_retire {s : State} (h : Canonical s) (p : Nat) : Canonical (retire s p) :=
  ⟨wf_write (wf_unmapAll h.1 _) _ _, h.2⟩

theorem canonical_yieldBody {s : State} (h : Canonical s) : Canonical (yieldBody s) := by
  have hsaved := canonical_saveContext h s.curPid.toNat
  rcases yieldBody_spec s with ⟨p, -, he⟩ | ⟨-, he⟩ <;> rw [he]
  · exact canonical_congr (canonical_loadProcess hsaved p) rfl rfl rfl
  · exact canonical_congr hsaved rfl rfl rfl

theorem canonical_haltBody {s : State} (h : Canonical s) : Canonical (haltBody s) := by
  have hretired := canonical_retire h s.curPid.toNat
  rcases haltBody_spec s with ⟨p, -, he⟩ | ⟨-, he⟩ <;> rw [he]
  · exact canonical_congr (canonical_loadProcess hretired p) rfl rfl rfl
  · exact canonical_congr hretired rfl rfl rfl

theorem canonical_brkBody {s : State} (h : Canonical s) (vpn : Nat) (r w g : Bool) :
    Canonical (brkBody vpn r w g s) := by
  rw [brkBody_spec]
  exact ⟨wf_brkRet h.1 vpn r w g, h.2⟩

/-- Every operation keeps the canonical form. -/
theorem canonical_exec {i : Instr} {s t : State} (h : Canonical s) (he : exec i s = .next t) : Canonical t := by
  have hw := s.params.wellFormed
  cases exec_effect he with
  | refused => exact h
  | allocated => exact ⟨wf_alloc h.1, h.2⟩
  | freed f => exact ⟨wf_freeFrame h.1 f.toNat, h.2⟩
  | mapped tb vpn r w => exact ⟨wf_mapPage hw h.1 tb.toNat vpn r w, h.2⟩
  | unmapped tb vpn => exact ⟨wf_unmapPage h.1 tb.toNat vpn, h.2⟩
  | answered => exact h
  | faulted => exact canonical_congr h (by simp) (by simp) (by simp)
  | stored d => exact ⟨wf_write h.1 _ d, h.2⟩
  | tableFull => exact h
  | created code heap => exact ⟨wf_createProcess hw h.1 code heap, h.2⟩
  | loaded pid => exact canonical_loadProcess h pid.toNat
  | yielded => exact canonical_yieldBody h
  | halted => exact canonical_haltBody h
  | grown => exact canonical_brkBody h _ _ _ _
  | shrunk => exact canonical_brkBody h _ _ _ _

theorem canonical_resetAt (p : Params) : Canonical (State.resetAt p) := ⟨wf_reset p, .nil⟩

/-- Settles O49: at reset memory lists nothing and no pid has been loaded. -/
theorem resetIsCanonical : Obligations.ResetIsCanonical := canonical_resetAt

/-- Settles O48: a step runs an operation, which keeps the form (`canonical_exec`), or touches neither memory nor the
loaded pids, or resets. -/
theorem stepKeepsTheCanonicalForm : Obligations.StepKeepsTheCanonicalForm := by
  intro s t h hstep
  rcases step_cases s with
    ⟨-, he⟩ | ⟨_, rest, -, ⟨_, _, -, -, he⟩ | ⟨_, err, -, -, he⟩ | ⟨v, -, he⟩ | ⟨-, he⟩⟩ <;> rw [he] at hstep
  · cases hstep; exact h
  · exact canonical_exec (s := { s with input := rest }) h hstep
  · cases hstep; cases err <;> exact h
  · cases hstep; exact h
  · cases hstep; exact canonical_resetAt s.params

end Sys2Proof.Machine
end

section
/-! PROOFS. The ownership of frames as an invariant of memory (10_state.md R26 (a) to (f), (h)), with the number of
created pids as a parameter, so that it also speaks of a process in the making (43_process_lifecycle.md R81): what each
operation on memory keeps of it. -/

namespace Sys2Proof.Machine

open Sys2Proof.Safety

/-! ### The Words below the page tables and off the bitmap: the marker, the count, the slots -/

/-- The Words below the page tables and off the bitmap hold the same in both memories. -/
def LowKept (c : Config) (m m' : Memory) : Prop :=
  ∀ a, a < c.ptRegionBase → OffBitmap c a → m'.read c a = m.read c a

variable {c : Config} {m m' m'' : Memory} {n : Nat}

theorem LowKept.refl (c : Config) (m : Memory) : LowKept c m m := fun _ _ _ => rfl

/-- Whether a pid is terminated depends on its slot's id alone. -/
theorem notTerminated_congr {p : Nat} (he : m'.read c (pcb c p) = m.read c (pcb c p)) :
    notTerminated c m' p = notTerminated c m p := by
  unfold notTerminated
  rw [he]

theorem LowKept.trans (h : LowKept c m m') (h' : LowKept c m' m'') : LowKept c m m'' := fun a ha hb =>
  (h' a ha hb).trans (h a ha hb)

section low
variable (h : c.wellFormed = true)
include h

theorem low_lt_memWords {a : Nat} (ha : a < c.ptRegionBase) : a < c.memWords := by
  have := reservedWords_lt h; have := wf_layout h; omega

theorem ptRegionBase_le_reserved : c.ptRegionBase ≤ c.reservedFrames * c.pageWords := by
  have := wf_layout h; omega

theorem reserved_lt_memWords {a : Nat} (ha : a < c.reservedFrames * c.pageWords) : a < c.memWords :=
  ha.trans (reservedWords_lt h)

theorem curPidAddr_lt_ptRegion : c.curPidAddr < c.ptRegionBase := by
  have := wf_layout h; omega

theorem procCountAddr_lt_ptRegion : c.procCountAddr < c.ptRegionBase := by
  have := wf_layout h; omega

theorem curPidAddr_offBitmap : OffBitmap c c.curPidAddr := by
  have := wf_layout h; unfold OffBitmap; omega

theorem procCountAddr_offBitmap : OffBitmap c c.procCountAddr := by
  have := wf_layout h; unfold OffBitmap; omega

theorem pcb_offBitmap {p i : Nat} (hp : p < c.maxProcs) (hi : i < c.pcbWords) : OffBitmap c (pcb c p + i) := by
  have := pcb_add_lt h hp hi; have := wf_layout h; unfold OffBitmap; omega

theorem pcb_ne_curPidAddr {p i : Nat} (hp : p < c.maxProcs) (hi : i < c.pcbWords) : pcb c p + i ≠ c.curPidAddr := by
  have := pcb_add_lt h hp hi; have := wf_layout h; omega

theorem pcb_ne_procCountAddr {p i : Nat} (hp : p < c.maxProcs) (hi : i < c.pcbWords) :
    pcb c p + i ≠ c.procCountAddr := by
  have := pcb_add_lt h hp hi; have := wf_layout h; omega

theorem LowKept.curPid_eq (hk : LowKept c m m') : curPid c m' = curPid c m :=
  hk _ (curPidAddr_lt_ptRegion h) (curPidAddr_offBitmap h)

theorem LowKept.procCount_eq (hk : LowKept c m m') : procCount c m' = procCount c m := by
  unfold procCount
  rw [hk _ (procCountAddr_lt_ptRegion h) (procCountAddr_offBitmap h)]

theorem LowKept.pcb_eq (hk : LowKept c m m') {p i : Nat} (hp : p < c.maxProcs) (hi : i < c.pcbWords) :
    m'.read c (pcb c p + i) = m.read c (pcb c p + i) :=
  hk _ (pcb_add_lt h hp hi).2.2 (pcb_offBitmap h hp hi)

theorem LowKept.notTerminated_eq (hk : LowKept c m m') (h3 : 3 ≤ c.pcbWords) {p : Nat} (hp : p < c.maxProcs) :
    notTerminated c m' p = notTerminated c m p :=
  notTerminated_congr (hk.pcb_eq h hp (i := 0) (by omega))

/-- A write from the page tables on leaves the Words below them. -/
theorem lowKept_write (m : Memory) {a : Nat} (ha : c.ptRegionBase ≤ a) (w : Word) : LowKept c m (m.write c a w) :=
  fun _ hb _ => read_write_of_ne m w (low_lt_memWords h hb) (by omega)

theorem lowKept_markUsed (m : Memory) {f : Nat} (hf : f < c.numFrames) : LowKept c m (markUsed c m f) :=
  fun _ ha hb => read_markUsed m (low_lt_memWords h ha) (ne_bmWord h hb hf)

theorem lowKept_markFree (m : Memory) (f : Nat) : LowKept c m (markFree c m f) :=
  fun _ ha hb => read_markFree m (low_lt_memWords h ha) fun hf => ne_bmWord h hb hf

theorem lowKept_mapPage (m : Memory) {tb : Nat} (htb : c.ptRegionBase ≤ tb) (v : Nat) (r w : Bool) :
    LowKept c m (mapPage c m tb v r w).mem := by
  rcases mapPage_spec h m tb v r w with ⟨-, he⟩ | ⟨-, -, he⟩ | ⟨-, f, -, hf, -, -, he⟩ <;> rw [he]
  · exact .refl c m
  · exact .refl c m
  · exact (lowKept_markUsed h m hf).trans (lowKept_write h _ (by omega) _)

theorem lowKept_unmapPage (m : Memory) {tb : Nat} (htb : c.ptRegionBase ≤ tb) (v : Nat) :
    LowKept c m (unmapPage c m tb v).mem := by
  rcases unmapPage_spec c m tb v with ⟨-, he⟩ | ⟨-, he⟩ <;> rw [he]
  · exact .refl c m
  · exact (lowKept_markFree h m _).trans (lowKept_write h _ (by omega) _)

theorem lowKept_unmapEach {tb : Nat} (htb : c.ptRegionBase ≤ tb) (vs : List Nat) (m : Memory) :
    LowKept c m (unmapEach c tb vs m) := by
  induction vs generalizing m with
  | nil => exact .refl c m
  | cons v vs ih =>
    rw [unmapEach_cons]
    exact (lowKept_unmapPage h m htb v).trans (ih _)

theorem lowKept_unmapAll (m : Memory) {tb : Nat} (htb : c.ptRegionBase ≤ tb) : LowKept c m (unmapAll c m tb) :=
  lowKept_unmapEach h htb _ m

theorem lowKept_mapEach {tb : Nat} (htb : c.ptRegionBase ≤ tb) (r w : Bool) (vs : List Nat) (m : Memory) :
    LowKept c m (mapEach c tb r w vs m).2 := fun _ ha hb =>
  read_mapEach h r w (low_lt_memWords h ha) hb vs (fun _ _ => by omega) m

/-! ### Entries and bits of the bitmap after a write -/

omit h in
theorem ptBase_ge (c : Config) (p : Nat) : c.ptRegionBase ≤ ptBase c p := Nat.le_add_right _ _

/-- R19, R20: a write of an entry is read back there and nowhere else in the tables. -/
theorem entry_write_entry (m : Memory) {p v q u : Nat} (hv : v < c.ptEntries) (hq : q < c.maxProcs)
    (hu : u < c.ptEntries) (w : Word) :
    entry c (m.write c (ptBase c p + v) w) q u = if q = p ∧ u = v then w else entry c m q u := by
  unfold entry
  rw [read_write _ _ _ (ptBase_add_lt_memWords h hq hu)]
  by_cases he : q = p ∧ u = v
  · rw [if_pos he, if_pos (by rw [he.1, he.2])]
  · rw [if_neg he, if_neg fun hc => he (ptBase_add_inj h hu hv hc)]

theorem entry_markUsed (m : Memory) {f q u : Nat} (hf : f < c.numFrames) (hq : q < c.maxProcs) (hu : u < c.ptEntries) :
    entry c (markUsed c m f) q u = entry c m q u :=
  read_markUsed m (ptBase_add_lt_memWords h hq hu)
    (ne_bmWord h (offBitmap_of_ge h (ptBase_add_lt h hq hu).1) hf)

theorem entry_markFree (m : Memory) (f : Nat) {q u : Nat} (hq : q < c.maxProcs) (hu : u < c.ptEntries) :
    entry c (markFree c m f) q u = entry c m q u :=
  read_markFree m (ptBase_add_lt_memWords h hq hu) fun hf =>
    ne_bmWord h (offBitmap_of_ge h (ptBase_add_lt h hq hu).1) hf

theorem isFree_write_entry (m : Memory) (p v : Nat) (w : Word) {g : Nat} (hg : g < c.numFrames) :
    isFree c (m.write c (ptBase c p + v) w) g = isFree c m g := by
  have := bmWord_lt_ptRegion h (frame_lt_bits h hg)
  have := ptBase_ge c p
  exact isFree_write h m w (frame_lt_bits h hg) (by omega)

end low

/-! ### Ownership -/

/-- R26 (a) to (f) and (h) of a memory in which `n` pids count as created. -/
structure Owned (c : Config) (m : Memory) (n : Nat) : Prop where
  /-- (a) -/
  reserved : ReservedNeverFree c m
  /-- (b) -/
  named : ∀ p, p < n → ∀ v, v < c.ptEntries → pteValid (entry c m p v) = true →
    c.reservedFrames ≤ pteFrame c (entry c m p v) ∧ pteFrame c (entry c m p v) < c.numFrames ∧
      isFree c m (pteFrame c (entry c m p v)) = false
  /-- (c) -/
  exclusive : FramesExclusive c m
  /-- (d) -/
  noLeak : ∀ f, f < c.numFrames → c.reservedFrames ≤ f → isFree c m f = false →
    ∃ p, p < n ∧ notTerminated c m p = true ∧
      ∃ v, v < c.ptEntries ∧ pteValid (entry c m p v) = true ∧ pteFrame c (entry c m p v) = f
  /-- (e) -/
  terminated : ∀ p, p < n → notTerminated c m p = false → ∀ v, v < c.ptEntries → pteValid (entry c m p v) = false
  /-- beside (c) and (e) -/
  uncreated : ∀ p, p < c.maxProcs → n ≤ p → ∀ v, v < c.ptEntries → pteValid (entry c m p v) = false
  /-- (f) -/
  slots : ∀ p, p < n → ((m.read c (pcb c p)).toNat = p ∨ m.read c (pcb c p) = terminatedWord c) ∧
    (m.read c (pcb c p + 2)).toNat = ptBase c p
  /-- (h) -/
  bounded : n ≤ c.maxProcs

theorem live_iff {p : Nat} : live c m p = true ↔ p < procCount c m ∧ notTerminated c m p = true := by
  simp [live]

/-- R26 as ownership in memory and the two clauses on the current process. -/
theorem disciplined_iff (s : State) :
    Disciplined s ↔ Owned s.cfg s.mem s.procCount ∧ CurrentConsistent s ∧ CurrentLive s := by
  constructor
  · intro h
    refine ⟨⟨h.reserved, h.named, h.exclusive, fun f hf hr hu => ?_, h.terminated, h.uncreated, h.slots, h.bounded⟩,
      h.current, h.currentLive⟩
    obtain ⟨p, hp, hlive, hv⟩ := h.noLeak f hf hr hu
    exact ⟨p, hp, (live_iff.1 hlive).2, hv⟩
  · rintro ⟨h, hcur, hlive⟩
    refine ⟨h.reserved, h.named, h.exclusive, fun f hf hr hu => ?_, h.terminated, h.uncreated, h.slots, hcur, h.bounded,
      hlive⟩
    obtain ⟨p, hp, hnt, hv⟩ := h.noLeak f hf hr hu
    exact ⟨p, hp, live_iff.2 ⟨hp, hnt⟩, hv⟩

/-- An entry that a slot has valid belongs to a created pid. -/
theorem Owned.lt_of_valid (ho : Owned c m n) {p v : Nat} (hp : p < c.maxProcs) (hv : v < c.ptEntries)
    (hval : pteValid (entry c m p v) = true) : p < n := by
  by_contra hn
  rw [ho.uncreated p hp (by omega) v hv] at hval
  cases hval

/-- Two memories that agree in what ownership reads, among `n` created pids: the bits of the bitmap, the valid entries,
and the slots, except that a pid with no valid entry may have been marked terminated. -/
structure SameBooks (c : Config) (n : Nat) (m m' : Memory) : Prop where
  free : ∀ f, f < c.numFrames → isFree c m' f = isFree c m f
  entries : ∀ p, p < c.maxProcs → ∀ v, v < c.ptEntries → entry c m' p v = entry c m p v ∨
    pteValid (entry c m p v) = false ∧ pteValid (entry c m' p v) = false
  ids : ∀ p, p < n → m'.read c (pcb c p) = m.read c (pcb c p) ∨
    m'.read c (pcb c p) = terminatedWord c ∧ ∀ v, v < c.ptEntries → pteValid (entry c m p v) = false
  bases : ∀ p, p < n → m'.read c (pcb c p + 2) = m.read c (pcb c p + 2)

namespace SameBooks

theorem valid_eq (hs : SameBooks c n m m') {p v : Nat} (hp : p < c.maxProcs) (hv : v < c.ptEntries) :
    pteValid (entry c m' p v) = pteValid (entry c m p v) := by
  rcases hs.entries p hp v hv with he | ⟨h1, h2⟩
  · rw [he]
  · rw [h1, h2]

theorem entry_eq (hs : SameBooks c n m m') {p v : Nat} (hp : p < c.maxProcs) (hv : v < c.ptEntries)
    (hval : pteValid (entry c m p v) = true) : entry c m' p v = entry c m p v := by
  rcases hs.entries p hp v hv with he | ⟨h1, -⟩
  · exact he
  · rw [h1] at hval
    cases hval

/-- A pid that owns an entry is terminated in both memories or in neither. -/
theorem notTerminated_eq (hs : SameBooks c n m m') {p v : Nat} (hp : p < n) (hv : v < c.ptEntries)
    (hval : pteValid (entry c m p v) = true) : notTerminated c m' p = notTerminated c m p := by
  rcases hs.ids p hp with he | ⟨-, hnone⟩
  · exact notTerminated_congr he
  · rw [hnone v hv] at hval
    cases hval

end SameBooks

/-- Ownership is read from the books alone. -/
theorem Owned.congr (ho : Owned c m n) (hlayout : c.reservedFrames < c.numFrames) (hs : SameBooks c n m m') :
    Owned c m' n := by
  have hb := ho.bounded
  refine ⟨fun f hf => ?_, fun p hp v hv hval => ?_, fun p hp q hq v hv w hw hpv hqw => ?_, fun f hf hr hu => ?_,
    fun p hp hnt v hv => ?_, fun p hp hn v hv => ?_, fun p hp => ?_, hb⟩
  · rw [hs.free f (by omega), ho.reserved f hf]
  · rw [hs.valid_eq (by omega) hv] at hval
    obtain ⟨h1, h2, h3⟩ := ho.named p hp v hv hval
    rw [hs.entry_eq (by omega) hv hval]
    exact ⟨h1, h2, by rw [hs.free _ h2, h3]⟩
  · rw [hs.valid_eq hp hv] at hpv
    rw [hs.valid_eq hq hw] at hqw
    rw [hs.entry_eq hp hv hpv, hs.entry_eq hq hw hqw]
    exact ho.exclusive p hp q hq v hv w hw hpv hqw
  · rw [hs.free f hf] at hu
    obtain ⟨p, hp, hnt, v, hv, hval, hfr⟩ := ho.noLeak f hf hr hu
    refine ⟨p, hp, by rw [hs.notTerminated_eq hp hv hval, hnt], v, hv, ?_⟩
    rw [hs.entry_eq (by omega) hv hval]
    exact ⟨hval, hfr⟩
  · rw [hs.valid_eq (by omega) hv]
    by_contra hval
    rw [Bool.not_eq_false] at hval
    rw [hs.notTerminated_eq hp hv hval] at hnt
    rw [ho.terminated p hp hnt v hv] at hval
    cases hval
  · rw [hs.valid_eq hp hv, ho.uncreated p hp hn v hv]
  · obtain ⟨hid, hbase⟩ := ho.slots p hp
    rw [hs.bases p hp]
    rcases hs.ids p hp with he | ⟨he, -⟩
    · rw [he]
      exact ⟨hid, hbase⟩
    · exact ⟨.inr he, hbase⟩

section books
variable (h : c.wellFormed = true) (h3 : 3 ≤ c.pcbWords)
include h h3

/-- The books stand in the reserved frames, apart from the marker, the count and the saved PCs. -/
theorem sameBooks_of_read (hn : n ≤ c.maxProcs)
    (hr : ∀ a, a < c.reservedFrames * c.pageWords → a ≠ c.curPidAddr → a ≠ c.procCountAddr →
      (∀ p, p < c.maxProcs → a ≠ pcb c p + 1) → m'.read c a = m.read c a) : SameBooks c n m m' := by
  have hl := wf_layout h
  have hslot {p i : Nat} (hp : p < n) (hi : i < c.pcbWords) (h1 : i ≠ 1) :
      m'.read c (pcb c p + i) = m.read c (pcb c p + i) := by
    have hpm : p < c.maxProcs := by omega
    have hlt := pcb_add_lt h hpm hi
    refine hr _ (by omega) (pcb_ne_curPidAddr h hpm hi) (pcb_ne_procCountAddr h hpm hi) fun q _ he => ?_
    exact h1 (pcb_add_inj hi (by omega) he).2
  refine ⟨fun f hf => isFree_congr ?_, fun p hp v hv => .inl ?_,
    fun p hp => .inl (hslot hp (i := 0) (by omega) (by omega)), fun p hp => hslot hp (i := 2) (by omega) (by omega)⟩
  · have hlt := bmWord_lt h (frame_lt_bits h hf)
    refine hr _ (by omega) (by omega) (by omega) fun p hp => ?_
    have := pcb_offBitmap h hp (i := 1) (by omega)
    omega
  · have hlt := ptBase_add_lt h hp hv
    refine hr _ hlt.2 (by omega) (by omega) fun q hq => ?_
    have := pcb_add_lt h hq (i := 1) (by omega)
    omega

/-- A write past the reserved frames leaves the books. -/
theorem sameBooks_write_frame (hn : n ≤ c.maxProcs) (m : Memory) {a : Nat} (ha : c.reservedFrames * c.pageWords ≤ a)
    (w : Word) : SameBooks c n m (m.write c a w) :=
  sameBooks_of_read h h3 hn fun _ hb _ _ _ => read_write_of_ne m w (reserved_lt_memWords h hb) (by omega)

theorem sameBooks_write_curPid (hn : n ≤ c.maxProcs) (m : Memory) (w : Word) :
    SameBooks c n m (m.write c c.curPidAddr w) :=
  sameBooks_of_read h h3 hn fun _ hb hne _ _ => read_write_of_ne m w (reserved_lt_memWords h hb) hne

theorem sameBooks_write_procCount (hn : n ≤ c.maxProcs) (m : Memory) (w : Word) :
    SameBooks c n m (m.write c c.procCountAddr w) :=
  sameBooks_of_read h h3 hn fun _ hb _ hne _ => read_write_of_ne m w (reserved_lt_memWords h hb) hne

/-- R91: saving a context leaves the books where the saved table base is the one the slot has. -/
theorem sameBooks_saveContext (hn : n ≤ c.maxProcs) (m : Memory) {p : Nat} (hp : p < c.maxProcs) (pc : Word) {b : Word}
    (hbase : m.read c (pcb c p + 2) = b) :
    SameBooks c n m ((m.write c (pcb c p + 1) pc).write c (pcb c p + 2) b) := by
  refine sameBooks_of_read h h3 hn fun a ha _ _ hne => ?_
  have hlt := reserved_lt_memWords h ha
  rw [read_write _ _ _ hlt, read_write_of_ne m pc hlt (hne p hp)]
  split_ifs with he
  · rw [he, hbase]
  · rfl

/-- R92: marking a pid that has no page left as terminated leaves the books. -/
theorem sameBooks_markTerminated (hn : n ≤ c.maxProcs) (m : Memory) {p : Nat} (hp : p < n)
    (hnone : ∀ v, v < c.ptEntries → pteValid (entry c m p v) = false) :
    SameBooks c n m (m.write c (pcb c p) (terminatedWord c)) := by
  have hpm : p < c.maxProcs := by omega
  have hpcb := pcb_add_lt h hpm (i := 0) (by omega)
  have hoff := pcb_offBitmap h hpm (i := 0) (by omega)
  rw [Nat.add_zero] at hpcb hoff
  refine ⟨fun f hf => ?_, fun q hq u hu => .inl ?_, fun q hq => ?_, fun q hq => ?_⟩
  · have := bmWord_lt h (frame_lt_bits h hf)
    exact isFree_write h m _ (frame_lt_bits h hf) (by omega)
  · have := ptBase_add_lt h hq hu
    exact read_write_of_ne m _ (ptBase_add_lt_memWords h hq hu) (by omega)
  · have hlt := pcb_add_lt_memWords h (p := q) (i := 0) (by omega) (by omega)
    by_cases hqp : q = p
    · subst hqp
      exact .inr ⟨read_write_self m hlt _, hnone⟩
    · exact .inl (read_write_of_ne m _ hlt fun hc =>
        hqp (pcb_add_inj (i := 0) (j := 0) (by omega) (by omega) hc).1)
  · refine read_write_of_ne m _ (pcb_add_lt_memWords h (by omega) (by omega)) fun hc => ?_
    exact absurd (pcb_add_inj (i := 2) (j := 0) (by omega) (by omega) hc).2 (by decide)

end books

/-! ### Mapping and unmapping a page -/

/-- R65: memory after page `v` of pid `p` has been mapped to frame `f`. -/
def withMapping (c : Config) (m : Memory) (p v f : Nat) (r w : Bool) : Memory :=
  (markUsed c m f).write c (ptBase c p + v) (mkPte c f r w)

/-- R66: memory after page `v` of pid `p` has been unmapped. -/
def withoutMapping (c : Config) (m : Memory) (p v : Nat) : Memory :=
  (markFree c m (pteFrame c (entry c m p v))).write c (ptBase c p + v) (entry c m p v &&& 0xFFFE#16)

section page
variable (h : c.wellFormed = true)
include h

/-- R65: a map in the table of a pid leaves memory as it is, or maps the page to a frame that was free. -/
theorem mapPage_mem (m : Memory) (p v : Nat) (r w : Bool) :
    (mapPage c m (ptBase c p) v r w).mem = m ∨
    (pteValid (entry c m p v) = false ∧ ∃ f, c.reservedFrames ≤ f ∧ f < c.numFrames ∧ isFree c m f = true ∧
      (mapPage c m (ptBase c p) v r w).mem = withMapping c m p v f r w) := by
  rcases mapPage_spec h m (ptBase c p) v r w with ⟨-, he⟩ | ⟨-, -, he⟩ | ⟨hinv, f, hf1, hf2, hfree, -, he⟩ <;> rw [he]
  · exact .inl rfl
  · exact .inl rfl
  · exact .inr ⟨hinv, f, hf1, hf2, hfree, rfl⟩

omit h in
/-- R66: an unmap in the table of a pid leaves memory as it is, or unmaps a page whose entry is valid. -/
theorem unmapPage_mem (c : Config) (m : Memory) (p v : Nat) :
    (unmapPage c m (ptBase c p) v).mem = m ∨
    (pteValid (entry c m p v) = true ∧ (unmapPage c m (ptBase c p) v).mem = withoutMapping c m p v) := by
  rcases unmapPage_spec c m (ptBase c p) v with ⟨-, he⟩ | ⟨hval, he⟩ <;> rw [he]
  · exact .inl rfl
  · exact .inr ⟨hval, rfl⟩

theorem entry_withMapping (m : Memory) {p v f q u : Nat} (r w : Bool) (hv : v < c.ptEntries) (hf : f < c.numFrames)
    (hq : q < c.maxProcs) (hu : u < c.ptEntries) :
    entry c (withMapping c m p v f r w) q u = if q = p ∧ u = v then mkPte c f r w else entry c m q u := by
  unfold withMapping
  rw [entry_write_entry h _ hv hq hu, entry_markUsed h m hf hq hu]

theorem isFree_withMapping (m : Memory) (p v f : Nat) (r w : Bool) {g : Nat} (hg : g < c.numFrames) :
    isFree c (withMapping c m p v f r w) g = (isFree c m g && decide (g ≠ f)) := by
  unfold withMapping
  rw [isFree_write_entry h _ p v _ hg, isFree_markUsed h m f (frame_lt_bits h hg)]

theorem lowKept_withMapping (m : Memory) (p v : Nat) {f : Nat} (hf : f < c.numFrames) (r w : Bool) :
    LowKept c m (withMapping c m p v f r w) :=
  (lowKept_markUsed h m hf).trans (lowKept_write h _ (by have := ptBase_ge c p; omega) _)

theorem entry_withoutMapping (m : Memory) {p v q u : Nat} (hv : v < c.ptEntries) (hq : q < c.maxProcs)
    (hu : u < c.ptEntries) : entry c (withoutMapping c m p v) q u =
      if q = p ∧ u = v then entry c m p v &&& 0xFFFE#16 else entry c m q u := by
  unfold withoutMapping
  rw [entry_write_entry h _ hv hq hu, entry_markFree h m _ hq hu]

theorem isFree_withoutMapping (m : Memory) (p v : Nat) {g : Nat} (hg : g < c.numFrames) :
    isFree c (withoutMapping c m p v) g = (isFree c m g || decide (g = pteFrame c (entry c m p v))) := by
  unfold withoutMapping
  rw [isFree_write_entry h _ p v _ hg, isFree_markFree h m _ (frame_lt_bits h hg)]
  simp [hg]

theorem lowKept_withoutMapping (m : Memory) (p v : Nat) : LowKept c m (withoutMapping c m p v) :=
  (lowKept_markFree h m _).trans (lowKept_write h _ (by have := ptBase_ge c p; omega) _)

/-- Clause (f) is about Words below the page tables. -/
theorem Owned.slots_of_lowKept (ho : Owned c m n) (h3 : 3 ≤ c.pcbWords) (hk : LowKept c m m') :
    ∀ p, p < n → ((m'.read c (pcb c p)).toNat = p ∨ m'.read c (pcb c p) = terminatedWord c) ∧
      (m'.read c (pcb c p + 2)).toNat = ptBase c p := fun p hp => by
  have hpm : p < c.maxProcs := Nat.lt_of_lt_of_le hp ho.bounded
  have hid := hk.pcb_eq h hpm (i := 0) (by omega)
  rw [Nat.add_zero] at hid
  rw [hid, hk.pcb_eq h hpm (by omega)]
  exact ho.slots p hp

omit h in
/-- R26 (b): no valid entry names a free frame. -/
theorem Owned.frame_ne_of_free (ho : Owned c m n) {f q u : Nat} (hfree : isFree c m f = true) (hq : q < c.maxProcs)
    (hu : u < c.ptEntries) (hval : pteValid (entry c m q u) = true) : pteFrame c (entry c m q u) ≠ f := fun hc => by
  have := (ho.named q (ho.lt_of_valid hq hu hval) u hu hval).2.2
  rw [hc, hfree] at this
  cases this

/-- R65: mapping a page of a live pid keeps ownership: the frame was free, so no entry named it. -/
theorem Owned.withMapping (ho : Owned c m n) (h3 : 3 ≤ c.pcbWords) {p v f : Nat} (hp : p < n)
    (hlive : notTerminated c m p = true) (hv : v < c.ptEntries) (hinv : pteValid (entry c m p v) = false)
    (hf1 : c.reservedFrames ≤ f) (hf2 : f < c.numFrames) (hfree : isFree c m f = true) (r w : Bool) :
    Owned c (withMapping c m p v f r w) n := by
  have hlow := lowKept_withMapping h m p v hf2 r w
  have hent {q u : Nat} := entry_withMapping h m (p := p) (q := q) (u := u) r w hv hf2
  have hbit {g : Nat} := isFree_withMapping h m p v f r w (g := g)
  have hb := ho.bounded
  refine ⟨fun g hg => ?_, fun q hq u hu => ?_, fun q hq q' hq' u hu u' hu' => ?_, fun g hg hgr hgu => ?_,
    fun q hq hnt u hu => ?_, fun q hq hn u hu => ?_, ho.slots_of_lowKept h h3 hlow, hb⟩
  · rw [hbit (by omega), ho.reserved g hg, Bool.false_and]
  · rw [hent (by omega) hu]
    split_ifs with hqu
    · rw [pteFrame_mkPte h hf2, hbit hf2]
      exact fun _ => ⟨hf1, hf2, by simp⟩
    · intro hval
      obtain ⟨h1, h2, h4⟩ := ho.named q hq u hu hval
      exact ⟨h1, h2, by rw [hbit h2, h4, Bool.false_and]⟩
  · rw [hent hq hu, hent hq' hu']
    split_ifs with hqu hqu' hqu'
    · exact fun _ _ _ => ⟨hqu.1.trans hqu'.1.symm, hqu.2.trans hqu'.2.symm⟩
    · rw [pteFrame_mkPte h hf2]
      exact fun _ hval hfr => absurd hfr.symm (ho.frame_ne_of_free hfree hq' hu' hval)
    · rw [pteFrame_mkPte h hf2]
      exact fun hval _ hfr => absurd hfr (ho.frame_ne_of_free hfree hq hu hval)
    · exact ho.exclusive q hq q' hq' u hu u' hu'
  · by_cases hgf : g = f
    · refine ⟨p, hp, by rw [hlow.notTerminated_eq h h3 (by omega), hlive], v, hv, ?_⟩
      rw [hent (by omega) hv, if_pos ⟨rfl, rfl⟩, pteFrame_mkPte h hf2, pteValid_mkPte h hf2]
      exact ⟨rfl, hgf.symm⟩
    · rw [hbit hg] at hgu
      obtain ⟨q, hq, hnt, u, hu, hval, hfr⟩ := ho.noLeak g hg hgr (by simpa [hgf] using hgu)
      refine ⟨q, hq, by rw [hlow.notTerminated_eq h h3 (by omega), hnt], u, hu, ?_⟩
      rw [hent (by omega) hu, if_neg]
      · exact ⟨hval, hfr⟩
      · rintro ⟨rfl, rfl⟩
        rw [hinv] at hval
        cases hval
  · rw [hlow.notTerminated_eq h h3 (by omega)] at hnt
    rw [hent (by omega) hu, if_neg, ho.terminated q hq hnt u hu]
    rintro ⟨rfl, -⟩
    rw [hlive] at hnt
    cases hnt
  · rw [hent hq hu, if_neg (by omega), ho.uncreated q hq hn u hu]

/-- After an unmap a valid entry is one that was valid before and names another frame than the one freed. -/
theorem Owned.valid_withoutMapping (ho : Owned c m n) {p v q u : Nat} (hp : p < c.maxProcs) (hv : v < c.ptEntries)
    (hval : pteValid (entry c m p v) = true) (hq : q < c.maxProcs) (hu : u < c.ptEntries)
    (hval' : pteValid (entry c (withoutMapping c m p v) q u) = true) :
    entry c (withoutMapping c m p v) q u = entry c m q u ∧ pteValid (entry c m q u) = true ∧
      pteFrame c (entry c m q u) ≠ pteFrame c (entry c m p v) := by
  rw [entry_withoutMapping h m hv hq hu] at hval' ⊢
  split_ifs at hval' with hqu
  · rw [pteValid_clear] at hval'
    cases hval'
  · exact ⟨if_neg hqu, hval', fun hc => hqu (ho.exclusive q hq p hp u hu v hv hval' hval hc)⟩

/-- R66: unmapping a page keeps ownership: the frame freed is named by no other entry. -/
theorem Owned.withoutMapping (ho : Owned c m n) (h3 : 3 ≤ c.pcbWords) {p v : Nat} (hp : p < c.maxProcs)
    (hv : v < c.ptEntries) (hval : pteValid (entry c m p v) = true) : Owned c (withoutMapping c m p v) n := by
  have hlow := lowKept_withoutMapping h m p v
  have hbit {g : Nat} := isFree_withoutMapping h m p v (g := g)
  have hstill {q u : Nat} := ho.valid_withoutMapping h (q := q) (u := u) hp hv hval
  have hinvalid {q u : Nat} (hq : q < c.maxProcs) (hu : u < c.ptEntries) (hinv : pteValid (entry c m q u) = false) :
      pteValid (entry c (Machine.withoutMapping c m p v) q u) = false := by
    by_contra hc
    rw [(hstill hq hu (by simpa using hc)).2.1] at hinv
    cases hinv
  have hfr := (ho.named p (ho.lt_of_valid hp hv hval) v hv hval).1
  have hb := ho.bounded
  refine ⟨fun g hg => ?_, fun q hq u hu hval' => ?_, fun q hq q' hq' u hu u' hu' hv1 hv2 => ?_,
    fun g hg hgr hgu => ?_, fun q hq hnt u hu => ?_, fun q hq hn u hu => hinvalid hq hu (ho.uncreated q hq hn u hu),
    ho.slots_of_lowKept h h3 hlow, hb⟩
  · have := (wf_layout h).1
    rw [hbit (by omega), ho.reserved g hg, Bool.false_or, decide_eq_false (by omega)]
  · obtain ⟨he, hvq, hne⟩ := hstill (by omega) hu hval'
    obtain ⟨h1, h2, h4⟩ := ho.named q hq u hu hvq
    rw [he]
    exact ⟨h1, h2, by rw [hbit h2, h4, Bool.false_or, decide_eq_false hne]⟩
  · obtain ⟨he, hvq, -⟩ := hstill hq hu hv1
    obtain ⟨he', hvq', -⟩ := hstill hq' hu' hv2
    rw [he, he']
    exact ho.exclusive q hq q' hq' u hu u' hu' hvq hvq'
  · rw [hbit hg, Bool.or_eq_false_iff, decide_eq_false_iff_not] at hgu
    obtain ⟨q, hq, hnt, u, hu, hvq, hgq⟩ := ho.noLeak g hg hgr hgu.1
    refine ⟨q, hq, by rw [hlow.notTerminated_eq h h3 (by omega), hnt], u, hu, ?_⟩
    rw [entry_withoutMapping h m hv (by omega) hu, if_neg]
    · exact ⟨hvq, hgq⟩
    · rintro ⟨rfl, rfl⟩
      exact hgu.2 hgq.symm
  · rw [hlow.notTerminated_eq h h3 (by omega)] at hnt
    exact hinvalid (by omega) hu (ho.terminated q hq hnt u hu)

theorem Owned.mapPage (ho : Owned c m n) (h3 : 3 ≤ c.pcbWords) {p v : Nat} (hp : p < n)
    (hlive : notTerminated c m p = true) (hv : v < c.ptEntries) (r w : Bool) :
    Owned c (mapPage c m (ptBase c p) v r w).mem n := by
  rcases mapPage_mem h m p v r w with he | ⟨hinv, f, hf1, hf2, hfree, he⟩ <;> rw [he]
  · exact ho
  · exact ho.withMapping h h3 hp hlive hv hinv hf1 hf2 hfree r w

theorem Owned.unmapPage (ho : Owned c m n) (h3 : 3 ≤ c.pcbWords) {p v : Nat} (hp : p < c.maxProcs)
    (hv : v < c.ptEntries) : Owned c (unmapPage c m (ptBase c p) v).mem n := by
  rcases unmapPage_mem c m p v with he | ⟨hval, he⟩ <;> rw [he]
  · exact ho
  · exact ho.withoutMapping h h3 hp hv hval

theorem Owned.unmapEach (h3 : 3 ≤ c.pcbWords) {p : Nat} (hp : p < c.maxProcs) (vs : List Nat)
    (hvs : ∀ v ∈ vs, v < c.ptEntries) (ho : Owned c m n) : Owned c (unmapEach c (ptBase c p) vs m) n := by
  induction vs generalizing m with
  | nil => exact ho
  | cons v vs ih =>
    rw [unmapEach_cons]
    exact ih (fun u hu => hvs u (by simp [hu])) (ho.unmapPage h h3 hp (hvs v (by simp)))

/-- R92: unmapping a whole table keeps ownership. -/
theorem Owned.unmapAll (ho : Owned c m n) (h3 : 3 ≤ c.pcbWords) {p : Nat} (hp : p < c.maxProcs) :
    Owned c (unmapAll c m (ptBase c p)) n :=
  Owned.unmapEach h h3 hp _ (fun _ => List.mem_range.1) ho

/-- R92: unmapping a whole table leaves none of its entries valid. -/
theorem pteValid_unmapAll (m : Memory) {p v : Nat} (hp : p < c.maxProcs) (hv : v < c.ptEntries) :
    pteValid (entry c (unmapAll c m (ptBase c p)) p v) = false := by
  unfold entry
  rw [read_unmapAll h m _ (ptBase_add_lt_memWords h hp hv) (offBitmap_of_ge h (ptBase_add_lt h hp hv).1)]
  split_ifs with hc
  · exact pteValid_clear _
  · by_contra hval
    exact hc ⟨⟨by omega, by omega⟩, by simpa using hval⟩

end page

/-! ### One created pid more or less -/

/-- The next slot counts as created once it has its id and its table's base. -/
theorem Owned.extend {p : Nat} (ho : Owned c m p) (hp : p < c.maxProcs) (hid : (m.read c (pcb c p)).toNat = p)
    (hbase : (m.read c (pcb c p + 2)).toNat = ptBase c p) : Owned c m (p + 1) := by
  have hnone : ∀ v, v < c.ptEntries → pteValid (entry c m p v) = false := ho.uncreated p hp (by omega)
  refine ⟨ho.reserved, fun q hq v hv hval => ?_, ho.exclusive, fun f hf hr hu => ?_, fun q hq hnt v hv => ?_,
    fun q hq hn => ho.uncreated q hq (by omega), fun q hq => ?_, by omega⟩
  · exact ho.named q (ho.lt_of_valid (by omega) hv hval) v hv hval
  · obtain ⟨q, hq, hnt, v, hv⟩ := ho.noLeak f hf hr hu
    exact ⟨q, by omega, hnt, v, hv⟩
  · rcases Nat.lt_or_eq_of_le (Nat.le_of_lt_succ hq) with hqp | rfl
    · exact ho.terminated q hqp hnt v hv
    · exact hnone v hv
  · rcases Nat.lt_or_eq_of_le (Nat.le_of_lt_succ hq) with hqp | rfl
    · exact ho.slots q hqp
    · exact ⟨.inl hid, hbase⟩

/-- The last pid counts as created no more once its table has no valid entry. -/
theorem Owned.retract {p : Nat} (ho : Owned c m (p + 1))
    (hnone : ∀ v, v < c.ptEntries → pteValid (entry c m p v) = false) : Owned c m p := by
  have hb := ho.bounded
  refine ⟨ho.reserved, fun q hq => ho.named q (by omega), ho.exclusive, fun f hf hr hu => ?_,
    fun q hq => ho.terminated q (by omega), fun q hq hn v hv => ?_, fun q hq => ho.slots q (by omega), by omega⟩
  · obtain ⟨q, hq, hnt, v, hv, hval, hfr⟩ := ho.noLeak f hf hr hu
    have hqp : q ≠ p := by
      rintro rfl
      rw [hnone v hv] at hval
      cases hval
    exact ⟨q, by omega, hnt, v, hv, hval, hfr⟩
  · by_cases hqp : q = p
    · rw [hqp, hnone v hv]
    · exact ho.uncreated q hq (by omega) v hv

end Sys2Proof.Machine
end

section
/-! PROOFS. Creation and the ownership of frames (43_process_lifecycle.md R81 to R83): what filling a slot, mapping a
segment and copying its image keep, and what the whole of CREATE does to the marker, the count and the slots' ids. -/

namespace Sys2Proof.Machine

open Sys2Proof.Safety

variable {c : Config} {m m' : Memory} {n : Nat}

/-! ### Pids as Words (R7 (h), log 24) -/

theorem three_le_pcbWords (h : c.wellFormed = true) (hf : c.fits = true) : 3 ≤ c.pcbWords :=
  ((fits_iff (wordBits_eq h)).1 hf).1

section pids
variable (h : c.wellFormed = true) (hf : c.fits = true)
include h hf

theorem toNat_terminatedWord : (terminatedWord c).toNat = c.terminated := by
  have := (fits_iff (wordBits_eq h)).1 hf
  unfold terminatedWord
  rw [BitVec.toNat_ofNat]
  omega

theorem toNat_noProcessWord : (noProcessWord c).toNat = c.noProcess := by
  have := (fits_iff (wordBits_eq h)).1 hf
  unfold noProcessWord
  rw [BitVec.toNat_ofNat]
  omega

theorem toNat_pid {p : Nat} (hp : p ≤ c.maxProcs) : (BitVec.ofNat 16 p).toNat = p := by
  have := (fits_iff (wordBits_eq h)).1 hf
  have := wf_rest h
  rw [BitVec.toNat_ofNat]
  omega

theorem pid_ne_terminatedWord {p : Nat} (hp : p < c.maxProcs) : BitVec.ofNat 16 p ≠ terminatedWord c := fun hc => by
  have := wf_rest h
  have := congrArg BitVec.toNat hc
  rw [toNat_pid h hf (by omega), toNat_terminatedWord h hf] at this
  omega

end pids

/-! ### Filling a slot -/

/-- R81: preparing a slot writes its three Words and its table, and nothing else. -/
theorem read_prepareSlot_of_ne (m : Memory) {p a : Nat} (ha : a < c.memWords)
    (hslot : ∀ i, i < 3 → a ≠ pcb c p + i) (htable : ¬ (ptBase c p ≤ a ∧ a < ptBase c p + c.ptEntries)) :
    (prepareSlot c m p).read c a = m.read c a := by
  unfold prepareSlot fillSlot
  rw [read_clearTable _ _ ha, if_neg htable, read_write_of_ne _ _ ha (hslot 2 (by decide)),
    read_write_of_ne _ _ ha (hslot 1 (by decide)), read_write_of_ne m _ ha (a := pcb c p) (hslot 0 (by decide))]

section slot
variable (h : c.wellFormed = true)
include h

/-- R81: the id a prepared slot has. -/
theorem prepareSlot_id (h3 : 3 ≤ c.pcbWords) (m : Memory) {p : Nat} (hp : p < c.maxProcs) :
    (prepareSlot c m p).read c (pcb c p) = BitVec.ofNat 16 p := by
  have hlt := pcb_add_lt h hp (i := 0) (by omega)
  have hmem := low_lt_memWords h hlt.2.2
  have := ptBase_ge c p
  rw [Nat.add_zero] at hlt hmem
  unfold prepareSlot fillSlot
  rw [read_clearTable _ _ hmem, if_neg (by omega), read_write_of_ne _ _ hmem (by omega),
    read_write_of_ne _ _ hmem (by omega), read_write_self m hmem]

/-- R81: the table base a prepared slot has. -/
theorem prepareSlot_base (h3 : 3 ≤ c.pcbWords) (m : Memory) {p : Nat} (hp : p < c.maxProcs) :
    (prepareSlot c m p).read c (pcb c p + 2) = BitVec.ofNat 16 (ptBase c p) := by
  have hlt := pcb_add_lt h hp (i := 2) (by omega)
  have hmem := low_lt_memWords h hlt.2.2
  have := ptBase_ge c p
  unfold prepareSlot fillSlot
  rw [read_clearTable _ _ hmem, if_neg (by omega), read_write_self _ hmem]

theorem toNat_ptBase {p : Nat} (hp : p < c.maxProcs) : (BitVec.ofNat 16 (ptBase c p)).toNat = ptBase c p := by
  have := ptBase_add_lt_memWords h hp (ptEntries_pos h)
  have := memWords_le h
  rw [BitVec.toNat_ofNat]
  omega

theorem entry_prepareSlot_self (m : Memory) {p v : Nat} (hp : p < c.maxProcs) (hv : v < c.ptEntries) :
    entry c (prepareSlot c m p) p v = 0#16 := by
  unfold entry prepareSlot
  rw [read_clearTable _ _ (ptBase_add_lt_memWords h hp hv), if_pos ⟨by omega, by omega⟩]

/-- R81: preparing a slot leaves the low Words outside the slot. -/
theorem read_prepareSlot_low (m : Memory) (p : Nat) {a : Nat} (ha : a < c.ptRegionBase)
    (hslot : ∀ i, i < 3 → a ≠ pcb c p + i) : (prepareSlot c m p).read c a = m.read c a :=
  read_prepareSlot_of_ne m (low_lt_memWords h ha) hslot (by have := ptBase_ge c p; omega)

/-- R81: preparing the next slot leaves the books of the created pids. -/
theorem sameBooks_prepareSlot (h3 : 3 ≤ c.pcbWords) {p : Nat} (ho : Owned c m p) (hp : p < c.maxProcs) :
    SameBooks c p m (prepareSlot c m p) := by
  have hl := wf_layout h
  have hother {q i : Nat} (hq : q < p) (hi : i < c.pcbWords) :
      (prepareSlot c m p).read c (pcb c q + i) = m.read c (pcb c q + i) :=
    read_prepareSlot_low h m p (pcb_add_lt h (by omega) hi).2.2 fun j hj hc => by
      have := (pcb_add_inj hi (by omega) hc).1
      omega
  refine ⟨fun f hf => isFree_congr ?_, fun q hq v hv => ?_, fun q hq => .inl (hother hq (i := 0) (by omega)),
    fun q hq => hother hq (by omega)⟩
  · have hlt := bmWord_lt h (frame_lt_bits h hf)
    refine read_prepareSlot_low h m p (by omega) fun i hi => ?_
    have := pcb_offBitmap h hp (i := i) (by omega)
    omega
  · by_cases hqp : q = p
    · subst hqp
      refine .inr ⟨ho.uncreated q hq (Nat.le_refl q) v hv, ?_⟩
      rw [entry_prepareSlot_self h m hq hv, pteValid_zero]
    · refine .inl (read_prepareSlot_of_ne m (ptBase_add_lt_memWords h hq hv) (fun i hi => ?_) fun hc => hqp ?_)
      · have := pcb_add_lt h hp (i := i) (by omega)
        have := ptBase_ge c q
        omega
      · exact (ptBase_add_inj h hv (w := ptBase c q + v - ptBase c p) (by omega) (by omega)).1

/-- R81: with its slot prepared the next pid counts as created. -/
theorem Owned.prepareSlot (hf : c.fits = true) {p : Nat} (ho : Owned c m p) (hp : p < c.maxProcs) :
    Owned c (prepareSlot c m p) (p + 1) := by
  have h3 := three_le_pcbWords h hf
  refine (ho.congr (wf_layout h).1.2 (sameBooks_prepareSlot h h3 ho hp)).extend hp ?_ ?_
  · rw [prepareSlot_id h h3 m hp, toNat_pid h hf hp.le]
  · rw [prepareSlot_base h h3 m hp, toNat_ptBase h hp]

/-! ### Mapping a segment and copying its image -/

/-- R65: a page that MAP maps has an entry that names an assignable frame. -/
theorem frame_of_mapPage_ok {p v : Nat} {r w : Bool} (hp : p < c.maxProcs) (hv : v < c.ptEntries)
    (hok : (mapPage c m (ptBase c p) v r w).status = .ok) :
    c.reservedFrames ≤ pteFrame c (entry c (mapPage c m (ptBase c p) v r w).mem p v) ∧
      pteFrame c (entry c (mapPage c m (ptBase c p) v r w).mem p v) < c.numFrames := by
  rcases mapPage_spec h m (ptBase c p) v r w with ⟨-, he⟩ | ⟨-, -, he⟩ | ⟨-, f, hf1, hf2, -, -, he⟩ <;> rw [he] at hok ⊢
  · cases hok
  · cases hok
  · have hent := entry_withMapping h m (p := p) r w hv hf2 hp hv
    rw [if_pos ⟨rfl, rfl⟩] at hent
    change c.reservedFrames ≤ pteFrame c (entry c (withMapping c m p v f r w) p v) ∧
      pteFrame c (entry c (withMapping c m p v f r w) p v) < c.numFrames
    rw [hent, pteFrame_mkPte h hf2]
    exact ⟨hf1, hf2⟩

omit h in
theorem mapEach_cons (c : Config) (tb : Nat) (r w : Bool) (v : Nat) (vs : List Nat) (m : Memory) :
    mapEach c tb r w (v :: vs) m = if (mapPage c m tb v r w).status = .ok
      then mapEach c tb r w vs (mapPage c m tb v r w).mem else (false, (mapPage c m tb v r w).mem) := rfl

/-- R81: a mapping pass that maps all its pages leaves each with an entry that names an assignable frame. -/
theorem frames_of_mapEach_ok {p : Nat} {r w : Bool} (hp : p < c.maxProcs) (vs : List Nat) (hnd : vs.Nodup)
    (hvs : ∀ v ∈ vs, v < c.ptEntries) (m : Memory) (hok : (mapEach c (ptBase c p) r w vs m).1 = true) :
    ∀ v ∈ vs, c.reservedFrames ≤ pteFrame c (entry c (mapEach c (ptBase c p) r w vs m).2 p v) ∧
      pteFrame c (entry c (mapEach c (ptBase c p) r w vs m).2 p v) < c.numFrames := by
  induction vs generalizing m with
  | nil => simp
  | cons v vs ih =>
    obtain ⟨hv, hnd⟩ := List.nodup_cons.1 hnd
    have hvb := hvs v (by simp)
    rw [mapEach_cons] at hok ⊢
    split_ifs at hok ⊢ with hst
    refine List.forall_mem_cons.2 ⟨?_, ih hnd (fun u hu => hvs u (by simp [hu])) _ hok⟩
    have hkept : entry c (mapEach c (ptBase c p) r w vs (mapPage c m (ptBase c p) v r w).mem).2 p v =
        entry c (mapPage c m (ptBase c p) v r w).mem p v :=
      read_mapEach h r w (ptBase_add_lt_memWords h hp hvb) (offBitmap_of_ge h (ptBase_add_lt h hp hvb).1) vs
        (fun u hu hc => hv (by rwa [Nat.add_left_cancel hc])) _
    rw [hkept]
    exact frame_of_mapPage_ok h hp hvb hst

/-- R81: a mapping pass in the table of a live pid keeps ownership. -/
theorem Owned.mapEach (h3 : 3 ≤ c.pcbWords) {p : Nat} (hp : p < n) (r w : Bool) (vs : List Nat)
    (hvs : ∀ v ∈ vs, v < c.ptEntries) (ho : Owned c m n) (hlive : notTerminated c m p = true) :
    Owned c (mapEach c (ptBase c p) r w vs m).2 n := by
  induction vs generalizing m with
  | nil => exact ho
  | cons v vs ih =>
    have hpm : p < c.maxProcs := Nat.lt_of_lt_of_le hp ho.bounded
    have ho' := ho.mapPage h h3 hp hlive (hvs v (by simp)) r w
    rw [mapEach_cons]
    split_ifs
    · refine ih (fun u hu => hvs u (by simp [hu])) ho' ?_
      rw [(lowKept_mapPage h m (ptBase_ge c p) v r w).notTerminated_eq h h3 hpm, hlive]
    · exact ho'

/-- R82: an image copied into pages whose entries name assignable frames leaves the reserved frames. -/
theorem read_loadImage {p base pages : Nat} (hp : p < c.maxProcs) (hb : base + pages ≤ c.ptEntries)
    (hfr : ∀ v ∈ List.range' base pages, c.reservedFrames ≤ pteFrame c (entry c m p v) ∧
      pteFrame c (entry c m p v) < c.numFrames) (img : List Word) {a : Nat}
    (ha : a < c.reservedFrames * c.pageWords) :
    (loadImage c m (ptBase c p) base pages img).read c a = m.read c a := by
  have hpage : ∀ i, i < (img.take (pages * c.pageWords)).length → i / c.pageWords < pages := fun i hi =>
    (Nat.div_lt_iff_lt_mul (pageWords_pos h)).2 (Nat.lt_of_lt_of_le hi (List.length_take_le _ img))
  have hmapped : SegmentMapped c m (ptBase c p) base (fun j => pteFrame c (entry c m p (base + j))) 0
      (img.take (pages * c.pageWords)).length := fun i hi => by
    have hi := hpage i hi
    simp only [Nat.zero_add, Nat.add_assoc (ptBase c p)]
    exact ⟨(ptBase_add_lt h hp (by omega)).2, rfl, 
      hfr _ (List.mem_range'_1.2 ⟨Nat.le_add_right _ _, Nat.add_lt_add_left hi _⟩)⟩
  refine read_copyImage_of_ne h _ 0 hmapped (reserved_lt_memWords h ha) fun i hi hc => ?_
  have : c.reservedFrames * c.pageWords ≤ imageAddr c (fun j => pteFrame c (entry c m p (base + j))) (0 + i) :=
    physAddr_ge (hmapped i hi).2.2.1 _
  omega

omit h in
/-- R81: everything one segment does to memory: its pages are mapped and, if all were, the image is copied. -/
theorem buildSegment_mem (c : Config) (m : Memory) (tb base pages : Nat) (r w : Bool) (img : List Word) :
    (buildSegment c m tb base pages r w img).2 = (mapEach c tb r w (List.range' base pages) m).2 ∨
    ((mapEach c tb r w (List.range' base pages) m).1 = true ∧ (buildSegment c m tb base pages r w img).2 =
      loadImage c (mapEach c tb r w (List.range' base pages) m).2 tb base pages img) := by
  unfold buildSegment
  simp only
  split_ifs with hok
  · exact .inr ⟨hok, rfl⟩
  · exact .inl rfl

/-- R81, R82: building a segment does to the reserved frames what mapping its pages does. -/
theorem read_buildSegment {p base pages : Nat} (hp : p < c.maxProcs) (hb : base + pages ≤ c.ptEntries) (r w : Bool)
    (img : List Word) (m : Memory) {a : Nat} (ha : a < c.reservedFrames * c.pageWords) :
    (buildSegment c m (ptBase c p) base pages r w img).2.read c a =
      (mapEach c (ptBase c p) r w (List.range' base pages) m).2.read c a := by
  rcases buildSegment_mem c m (ptBase c p) base pages r w img with he | ⟨hok, he⟩ <;> rw [he]
  refine read_loadImage h hp hb (frames_of_mapEach_ok h hp _ List.nodup_range' (fun v hv => ?_) m hok) img ha
  have := List.mem_range'_1.1 hv
  omega

theorem lowKept_buildSegment {p base pages : Nat} (hp : p < c.maxProcs) (hb : base + pages ≤ c.ptEntries) (r w : Bool)
    (img : List Word) (m : Memory) : LowKept c m (buildSegment c m (ptBase c p) base pages r w img).2 :=
  fun a ha hoff => by
    have hl := wf_layout h
    rw [read_buildSegment h hp hb r w img m (by omega),
      lowKept_mapEach h (ptBase_ge c p) r w (List.range' base pages) m a ha hoff]

theorem Owned.buildSegment (h3 : 3 ≤ c.pcbWords) {p base pages : Nat} (ho : Owned c m n) (hp : p < n)
    (hlive : notTerminated c m p = true) (hb : base + pages ≤ c.ptEntries) (r w : Bool) (img : List Word) :
    Owned c (buildSegment c m (ptBase c p) base pages r w img).2 n := by
  have hpm : p < c.maxProcs := Nat.lt_of_lt_of_le hp ho.bounded
  refine (Owned.mapEach h h3 hp r w (List.range' base pages) (fun v hv => ?_) ho hlive).congr (wf_layout h).1.2
    (sameBooks_of_read h h3 ho.bounded fun a ha _ _ _ => read_buildSegment h hpm hb r w img m ha)
  have := List.mem_range'_1.1 hv
  omega

end slot

/-! ### The whole of CREATE -/

/-- What the segments of pid `p` make of the memory with its slot prepared. -/
structure Built (c : Config) (m : Memory) (p : Nat) (m' : Memory) : Prop where
  low : LowKept c (prepareSlot c m p) m'
  owned : Owned c (prepareSlot c m p) (p + 1) → Owned c m' (p + 1)

section create
variable (h : c.wellFormed = true) (hf : c.fits = true)
include h hf

theorem notTerminated_prepareSlot_self (m : Memory) {p : Nat} (hp : p < c.maxProcs) :
    notTerminated c (prepareSlot c m p) p = true := by
  unfold notTerminated
  rw [prepareSlot_id h (three_le_pcbWords h hf) m hp]
  simpa using pid_ne_terminatedWord h hf hp

theorem built_buildSegment {p base pages : Nat} (hp : p < c.maxProcs) (hb : base + pages ≤ c.ptEntries) (r w : Bool)
    (img : List Word) (hm : Built c m p m') : Built c m p (buildSegment c m' (ptBase c p) base pages r w img).2 := by
  have h3 := three_le_pcbWords h hf
  refine ⟨hm.low.trans (lowKept_buildSegment h hp hb r w img m'), fun ho => ?_⟩
  refine (hm.owned ho).buildSegment h h3 (Nat.lt_succ_self p) ?_ hb r w img
  rw [hm.low.notTerminated_eq h h3 hp, notTerminated_prepareSlot_self h hf m hp]

/-- R81, R83: everything CREATE can do when there is a slot: the built process counts, or its table is unmapped. -/
theorem createProcess_spec (m : Memory) (code heap : List Word) (hroom : procCount c m < c.maxProcs) :
    ∃ m', Built c m (procCount c m) m' ∧
      (createProcess c m code heap =
          ⟨.ok, BitVec.ofNat 16 (procCount c m), m'.write c c.procCountAddr (BitVec.ofNat 16 (procCount c m + 1))⟩ ∨
        createProcess c m code heap = ⟨.outOfFrames, 0, unmapAll c m' (ptBase c (procCount c m))⟩) := by
  have hr := wf_rest h
  have hcode := built_buildSegment h hf hroom (base := c.codeBaseVpn) (pages := c.codePages) (by omega) true false code
    (m := m) ⟨.refl c _, id⟩
  have hheap := built_buildSegment h hf hroom (base := c.heapBaseVpn) (pages := c.heapPages) (by omega) true true heap
    hcode
  unfold createProcess
  simp only
  split_ifs
  · exact ⟨_, hheap, .inl rfl⟩
  · exact ⟨_, hheap, .inr rfl⟩
  · exact ⟨_, hcode, .inr rfl⟩

/-- The marker, the count and the ids of the other slots in a process being built. -/
theorem Built.kept {p : Nat} (hm : Built c m p m') (hp : p < c.maxProcs) :
    curPid c m' = curPid c m ∧ procCount c m' = procCount c m ∧ notTerminated c m' p = true ∧
      ∀ q, q < c.maxProcs → q ≠ p → notTerminated c m' q = notTerminated c m q := by
  have hl := wf_layout h
  have h3 := three_le_pcbWords h hf
  refine ⟨?_, ?_, ?_, fun q hq hqp => ?_⟩
  · rw [hm.low.curPid_eq h]
    exact read_prepareSlot_low h m p (by omega) fun i hi => (pcb_ne_curPidAddr h hp (by omega)).symm
  · rw [hm.low.procCount_eq h]
    unfold procCount
    rw [read_prepareSlot_low h m p (by omega) fun i hi => (pcb_ne_procCountAddr h hp (by omega)).symm]
  · rw [hm.low.notTerminated_eq h h3 hp, notTerminated_prepareSlot_self h hf m hp]
  · rw [hm.low.notTerminated_eq h h3 hq]
    exact notTerminated_congr (read_prepareSlot_low h m p (pcb_add_lt h hq (i := 0) (by omega)).2.2 fun i hi hc =>
      hqp (pcb_add_inj (i := 0) (by omega) (by omega) hc).1)

end create

end Sys2Proof.Machine
end

section
/-! PROOFS. Disciplined runs (10_state.md R26, 70_reset_and_hazards.md R126): what every operation a disciplined run may
issue keeps, the invariants and the pids that have ended alike; then steps and runs. -/

namespace Sys2Proof.Machine

open Sys2Proof.Safety

/-! ### What decodes is well-formed (R49) -/

theorem wellFormed_of_decodeCommand {c : Config} (h : c.wellFormed = true) {d : Command} {i : Instr}
    (hd : decodeCommand c d = .ok i) : i.wellFormed c = true := by
  have hvpn (q : Word) : vpnFits c (pageWordVpn c q) = true := (vpnFits_iff c _).2 (pageWordVpn_lt h q)
  unfold decodeCommand at hd
  split at hd <;> cases hd <;> simp only [Instr.wellFormed, hvpn]

theorem wellFormed_of_decodeTrapVector {c : Config} (h : c.wellFormed = true) {v : BitVec 8} {q : Word} {i : Instr}
    (hd : decodeTrapVector c v q = .ok i) : i.wellFormed c = true := by
  unfold decodeTrapVector at hd
  split_ifs at hd <;> cases hd
  · rfl
  · rfl
  · exact (vpnFits_iff c _).2 (pageWordVpn_lt h q)

/-- R49: every instruction that decodes is well-formed. -/
theorem wellFormed_of_decode {c : Config} (h : c.wellFormed = true) {e : Encoded} {i : Instr}
    (hd : decode c e = .ok i) : i.wellFormed c = true := by
  cases e with
  | command d => exact wellFormed_of_decodeCommand h hd
  | trapVector v q => exact wellFormed_of_decodeTrapVector h hd

theorem vpn_lt_of_isGrow {c : Config} {i : Instr} {vpn : Nat} {r w : Bool} (hi : IsGrow i vpn r w)
    (hw : i.wellFormed c = true) : vpn < c.ptEntries := by
  rcases hi with rfl | rfl | rfl <;> exact (vpnFits_iff c vpn).1 hw

theorem vpn_lt_of_isShrink {c : Config} {i : Instr} {vpn : Nat} (hi : IsShrink i vpn) (hw : i.wellFormed c = true) :
    vpn < c.ptEntries := by
  rcases hi with ⟨r, w, rfl⟩ | rfl | ⟨r, w, rfl⟩ <;> exact (vpnFits_iff c vpn).1 hw

/-! ### The pids from one memory to the next -/

/-- R22: no created pid is lost and none that has ended comes back. -/
structure PidsPersist (c : Config) (m m' : Memory) : Prop where
  count : procCount c m ≤ procCount c m'
  ended : ∀ p, p < procCount c m → notTerminated c m p = false → notTerminated c m' p = false

/-- The marker is the same, and the created pids are the same or one more. -/
structure SamePids (c : Config) (m m' : Memory) : Prop where
  cur : curPid c m' = curPid c m
  count : procCount c m ≤ procCount c m'
  ids : ∀ p, p < procCount c m → notTerminated c m' p = notTerminated c m p

section pids
variable {c : Config} {m m' m'' : Memory}

theorem PidsPersist.refl (c : Config) (m : Memory) : PidsPersist c m m := ⟨Nat.le_refl _, fun _ _ => id⟩

theorem PidsPersist.trans (h : PidsPersist c m m') (h' : PidsPersist c m' m'') : PidsPersist c m m'' :=
  ⟨h.count.trans h'.count, fun p hp he => h'.ended p (Nat.lt_of_lt_of_le hp h.count) (h.ended p hp he)⟩

theorem SamePids.refl (c : Config) (m : Memory) : SamePids c m m := ⟨rfl, Nat.le_refl _, fun _ _ => rfl⟩

theorem SamePids.persist (h : SamePids c m m') : PidsPersist c m m' :=
  ⟨h.count, fun p hp he => (h.ids p hp).trans he⟩

theorem LowKept.samePids (h : c.wellFormed = true) (hf : c.fits = true) (hn : procCount c m ≤ c.maxProcs)
    (hk : LowKept c m m') : SamePids c m m' :=
  ⟨hk.curPid_eq h, (hk.procCount_eq h).ge, fun _ hp =>
    hk.notTerminated_eq h (three_le_pcbWords h hf) (Nat.lt_of_lt_of_le hp hn)⟩

section writes
variable (h : c.wellFormed = true)
include h

theorem procCount_write (m : Memory) {a : Nat} (ha : a ≠ c.procCountAddr) (w : Word) :
    procCount c (m.write c a w) = procCount c m := by
  unfold procCount
  rw [read_write_of_ne m w (procCountAddr_lt h) ha.symm]

theorem curPid_write (m : Memory) {a : Nat} (ha : a ≠ c.curPidAddr) (w : Word) :
    curPid c (m.write c a w) = curPid c m :=
  read_write_of_ne m w (curPidAddr_lt h) ha.symm

theorem notTerminated_write (m : Memory) {a p : Nat} (h3 : 3 ≤ c.pcbWords) (hp : p < c.maxProcs) (ha : a ≠ pcb c p)
    (w : Word) : notTerminated c (m.write c a w) p = notTerminated c m p :=
  notTerminated_congr (read_write_of_ne m w (pcb_add_lt_memWords h hp (i := 0) (by omega)) ha.symm)

theorem curPid_write_self (m : Memory) (w : Word) : curPid c (m.write c c.curPidAddr w) = w :=
  read_write_self m (curPidAddr_lt h) w

theorem procCount_write_self (m : Memory) (w : Word) : procCount c (m.write c c.procCountAddr w) = w.toNat := by
  unfold procCount
  rw [read_write_self m (procCountAddr_lt h)]

theorem notTerminated_write_self (m : Memory) {p : Nat} (h3 : 3 ≤ c.pcbWords) (hp : p < c.maxProcs) :
    notTerminated c (m.write c (pcb c p) (terminatedWord c)) p = false := by
  have hid := read_write_self m (pcb_add_lt_memWords h hp (i := 0) (by omega)) (terminatedWord c)
  unfold notTerminated
  rw [Nat.add_zero] at hid
  rw [hid, bne_self_eq_false]

/-- Writing the marker leaves the count and the ids. -/
theorem pids_write_curPid (h3 : 3 ≤ c.pcbWords) (m : Memory) (w : Word) :
    procCount c (m.write c c.curPidAddr w) = procCount c m ∧
      ∀ p, p < c.maxProcs → notTerminated c (m.write c c.curPidAddr w) p = notTerminated c m p :=
  ⟨procCount_write h m (wf_layout h).2.1 w, fun p hp =>
    notTerminated_write h m h3 hp (pcb_ne_curPidAddr h hp (i := 0) (by omega)).symm w⟩

/-- R91: saving a context leaves the marker, the count and the ids. -/
theorem pids_saveContext (h3 : 3 ≤ c.pcbWords) (m : Memory) {p : Nat} (hp : p < c.maxProcs) (pc b : Word) :
    curPid c ((m.write c (pcb c p + 1) pc).write c (pcb c p + 2) b) = curPid c m ∧
    procCount c ((m.write c (pcb c p + 1) pc).write c (pcb c p + 2) b) = procCount c m ∧
    ∀ q, q < c.maxProcs →
      notTerminated c ((m.write c (pcb c p + 1) pc).write c (pcb c p + 2) b) q = notTerminated c m q := by
  have hne {q i : Nat} (hi : i < 3) (hi0 : i ≠ 0) : pcb c p + i ≠ pcb c q := fun hc =>
    hi0 (pcb_add_inj (j := 0) (by omega) (by omega) hc).2
  refine ⟨?_, ?_, fun q hq => ?_⟩
  · rw [curPid_write h _ (pcb_ne_curPidAddr h hp (by omega)), curPid_write h _ (pcb_ne_curPidAddr h hp (by omega))]
  · rw [procCount_write h _ (pcb_ne_procCountAddr h hp (by omega)),
      procCount_write h _ (pcb_ne_procCountAddr h hp (by omega))]
  · rw [notTerminated_write h _ h3 hq (hne (by decide) (by decide)),
      notTerminated_write h _ h3 hq (hne (by decide) (by decide))]

/-- R92: marking a slot terminated leaves the marker, the count and the other ids. -/
theorem pids_markTerminated (h3 : 3 ≤ c.pcbWords) (m : Memory) {p : Nat} (hp : p < c.maxProcs) :
    curPid c (m.write c (pcb c p) (terminatedWord c)) = curPid c m ∧
    procCount c (m.write c (pcb c p) (terminatedWord c)) = procCount c m ∧
    ∀ q, q < c.maxProcs → q ≠ p →
      notTerminated c (m.write c (pcb c p) (terminatedWord c)) q = notTerminated c m q :=
  ⟨curPid_write h m (pcb_ne_curPidAddr h hp (i := 0) (by omega)) _,
    procCount_write h m (pcb_ne_procCountAddr h hp (i := 0) (by omega)) _, fun q hq hqp =>
    notTerminated_write h m h3 hq
      (fun hc => hqp (pcb_add_inj (i := 0) (j := 0) (by omega) (by omega) hc).1.symm) _⟩

/-- R81, R83: the marker, the count and the ids after CREATE, in every memory that has a slot left. -/
theorem pids_createProcess (hf : c.fits = true) (m : Memory) (code heap : List Word)
    (hroom : procCount c m < c.maxProcs) :
    curPid c (createProcess c m code heap).mem = curPid c m ∧
    (∀ q, q < c.maxProcs → q ≠ procCount c m →
      notTerminated c (createProcess c m code heap).mem q = notTerminated c m q) ∧
    ((createProcess c m code heap).status = .ok ∧
        (createProcess c m code heap).value = BitVec.ofNat 16 (procCount c m) ∧
        procCount c (createProcess c m code heap).mem = procCount c m + 1 ∧
        notTerminated c (createProcess c m code heap).mem (procCount c m) = true ∨
      (createProcess c m code heap).status ≠ .ok ∧
        procCount c (createProcess c m code heap).mem = procCount c m) := by
  have h3 := three_le_pcbWords h hf
  obtain ⟨m', hm, he⟩ := createProcess_spec h hf m code heap hroom
  obtain ⟨hcur, hcount, hnew, hids⟩ := hm.kept h hf hroom
  have hslot {q : Nat} (hq : q < c.maxProcs) : c.procCountAddr ≠ pcb c q :=
    (pcb_ne_procCountAddr h hq (i := 0) (by omega)).symm
  rcases he with he | he <;> rw [he]
  · refine ⟨?_, fun q hq hqp => ?_, .inl ⟨rfl, rfl, ?_, ?_⟩⟩
    · rw [curPid_write h _ (wf_layout h).2.1.symm, hcur]
    · rw [notTerminated_write h _ h3 hq (hslot hq), hids q hq hqp]
    · rw [procCount_write_self h, toNat_pid h hf hroom]
    · rw [notTerminated_write h _ h3 hroom (hslot hroom), hnew]
  · have hlow := lowKept_unmapAll h m' (ptBase_ge c (procCount c m))
    refine ⟨?_, fun q hq hqp => ?_, .inr ⟨(by decide : Status.outOfFrames ≠ .ok), ?_⟩⟩
    · rw [hlow.curPid_eq h, hcur]
    · rw [hlow.notTerminated_eq h h3 hq, hids q hq hqp]
    · rw [hlow.procCount_eq h, hcount]

/-- R81, R83: CREATE keeps ownership, with the pid it makes or without. -/
theorem Owned.createProcess (hf : c.fits = true) (ho : Owned c m (procCount c m)) (code heap : List Word)
    (hroom : procCount c m < c.maxProcs) :
    Owned c (createProcess c m code heap).mem (procCount c (createProcess c m code heap).mem) := by
  have h3 := three_le_pcbWords h hf
  obtain ⟨m', hm, he⟩ := createProcess_spec h hf m code heap hroom
  have hbuilt := hm.owned (ho.prepareSlot h hf hroom)
  rcases he with he | he <;> rw [he]
  · rw [procCount_write_self h, toNat_pid h hf hroom]
    exact hbuilt.congr (wf_layout h).1.2 (sameBooks_write_procCount h h3 hbuilt.bounded m' _)
  · rw [(lowKept_unmapAll h m' (ptBase_ge c _)).procCount_eq h, (hm.kept h hf hroom).2.1]
    exact (hbuilt.unmapAll h h3 hroom).retract fun v hv => pteValid_unmapAll h m' hroom hv

end writes
end pids

/-! ### What a disciplined operation keeps -/

/-- From `s` to `t`: the configuration and the pids persist, and `t` has the invariants. -/
structure Advances (s t : State) : Prop where
  params : t.params = s.params
  disciplined : Disciplined t
  persist : PidsPersist s.cfg s.mem t.mem

theorem Advances.trans {s t u : State} (h : Advances s t) (h' : Advances t u) : Advances s u := by
  have hcfg : t.cfg = s.cfg := congrArg Params.config h.params
  exact ⟨h'.params.trans h.params, h'.disciplined, h.persist.trans (hcfg ▸ h'.persist)⟩

/-- An operation that keeps PTBR, the marker and the ids keeps the invariants if it keeps ownership. -/
theorem advances_of_samePids {s t : State} (h : Disciplined s) (hparams : t.params = s.params)
    (hptbr : t.ptbr = s.ptbr) (hrun : t.runEnable = true → s.runEnable = true) (hpids : SamePids s.cfg s.mem t.mem)
    (ho : Owned s.cfg t.mem (procCount s.cfg t.mem)) : Advances s t := by
  have hcfg : t.cfg = s.cfg := congrArg Params.config hparams
  have hcur : t.curPid = s.curPid := by
    unfold State.curPid
    rw [hcfg, hpids.cur]
  have hcount : t.procCount = procCount s.cfg t.mem := by
    unfold State.procCount
    rw [hcfg]
  refine ⟨hparams, (disciplined_iff t).2 ⟨?_, fun hne => ?_, fun hrunt hne => ?_⟩, hpids.persist⟩
  · rw [hcount, hcfg]
    exact ho
  · rw [hcur, hcfg] at hne
    rw [hcur, hcfg, hptbr, hcount]
    obtain ⟨hlt, hbase⟩ := h.current hne
    exact ⟨Nat.lt_of_lt_of_le hlt hpids.count, hbase⟩
  · rw [hcur, hcfg] at hne
    rw [hcur, hcfg, live_iff]
    obtain ⟨hlt, hnt⟩ := live_iff.1 (h.currentLive (hrun hrunt) hne)
    exact ⟨Nat.lt_of_lt_of_le hlt hpids.count, (hpids.ids _ hlt).trans hnt⟩

/-- An operation that leaves memory and PTBR keeps the invariants. -/
theorem advances_of_sameMem {s t : State} (h : Disciplined s) (hparams : t.params = s.params)
    (hptbr : t.ptbr = s.ptbr) (hrun : t.runEnable = true → s.runEnable = true) (hmem : t.mem = s.mem) :
    Advances s t := by
  refine advances_of_samePids h hparams hptbr hrun ?_ ?_ <;> rw [hmem]
  · exact .refl _ _
  · exact ((disciplined_iff s).1 h).1

theorem nextLive_live {c : Config} {m : Memory} {cur p : Nat} (h : nextLive c m cur = some p) :
    live c m p = true := by
  obtain ⟨k, hk1, hk2, rfl, hnt, -⟩ := nextLive_some h
  exact live_iff.2 ⟨Nat.mod_lt _ (by omega), hnt⟩

section disciplined
variable {s : State} (hf : s.cfg.fits = true)
include hf

/-- R86: loading a live pid makes the invariants hold if frames are owned. -/
theorem advances_loadProcess {p : Nat} (ho : Owned s.cfg s.mem s.procCount) (hlive : live s.cfg s.mem p = true) :
    Advances s (loadProcess s p) := by
  have h := s.params.wellFormed
  have h3 := three_le_pcbWords h hf
  obtain ⟨hp, hnt⟩ := live_iff.1 hlive
  have hpm : p < s.cfg.maxProcs := Nat.lt_of_lt_of_le hp ho.bounded
  obtain ⟨hcount, hids⟩ := pids_write_curPid h h3 s.mem (BitVec.ofNat 16 p)
  have hcount : (loadProcess s p).procCount = procCount s.cfg s.mem := hcount
  have hcur : (loadProcess s p).curPid = BitVec.ofNat 16 p := curPid_write_self h s.mem _
  have hnum : (loadProcess s p).curPid.toNat = p := by rw [hcur, toNat_pid h hf hpm.le]
  refine ⟨rfl, (disciplined_iff _).2 ⟨?_, fun _ => ?_, fun _ _ => ?_⟩, ?_⟩
  · rw [hcount]
    exact ho.congr (wf_layout h).1.2 (sameBooks_write_curPid h h3 ho.bounded s.mem _)
  · rw [hnum, hcount]
    refine ⟨hp, ?_⟩
    rw [loadProcess_ptbr, read_write_of_ne s.mem _ (pcb_add_lt_memWords h hpm (by omega))
      (pcb_ne_curPidAddr h hpm (by omega))]
    exact (ho.slots p hp).2
  · rw [hnum, live_iff]
    exact ⟨Nat.lt_of_lt_of_eq hp hcount.symm, (hids p hpm).trans hnt⟩
  · exact ⟨hcount.ge, fun q hq he => (hids q (Nat.lt_of_lt_of_le hq ho.bounded)).trans he⟩

/-- R91: saving the context of the current process keeps the invariants. -/
theorem advances_saveContext (h : Disciplined s) (hne : s.curPid ≠ noProcessWord s.cfg) :
    Advances s (saveContext s s.curPid.toNat) := by
  have hw := s.params.wellFormed
  have h3 := three_le_pcbWords hw hf
  obtain ⟨hlt, hbase⟩ := h.current hne
  have hpm : s.curPid.toNat < s.cfg.maxProcs := Nat.lt_of_lt_of_le hlt h.bounded
  have hsaved : s.mem.read s.cfg (pcb s.cfg s.curPid.toNat + 2) = s.ptbr :=
    BitVec.eq_of_toNat_eq ((h.slots _ hlt).2.trans hbase.symm)
  obtain ⟨hcur, hcount, hids⟩ := pids_saveContext hw h3 s.mem hpm s.pc s.ptbr
  refine advances_of_samePids h rfl rfl id ⟨hcur, hcount.ge, fun p hp => hids p (Nat.lt_of_lt_of_le hp h.bounded)⟩ ?_
  rw [saveContext_mem, hcount]
  exact ((disciplined_iff s).1 h).1.congr (wf_layout hw).1.2
    (sameBooks_saveContext hw h3 h.bounded s.mem hpm s.pc hsaved)

theorem advances_yieldBody (h : Disciplined s) (hserv : Serving s) : Advances s (yieldBody s) := by
  have hsaved := advances_saveContext hf h hserv.2
  rcases yieldBody_spec s with ⟨p, hnext, he⟩ | ⟨-, he⟩ <;> rw [he]
  · have hloaded := advances_loadProcess (s := saveContext s s.curPid.toNat) hf
      ((disciplined_iff _).1 hsaved.disciplined).1 (nextLive_live hnext)
    exact (hsaved.trans hloaded).trans (advances_of_sameMem hloaded.disciplined rfl rfl id rfl)
  · exact hsaved.trans (advances_of_sameMem hsaved.disciplined rfl rfl id rfl)

/-- R92: what retiring the current process does to the marker, the count and the ids, wherever PTBR points in the page
tables. -/
theorem pids_retire {p : Nat} (hp : p < s.cfg.maxProcs) (hptbr : s.cfg.ptRegionBase ≤ s.ptbr.toNat) :
    (retire s p).curPid = s.curPid ∧ (retire s p).procCount = s.procCount ∧
    notTerminated s.cfg (retire s p).mem p = false ∧
    ∀ q, q < s.cfg.maxProcs → q ≠ p → notTerminated s.cfg (retire s p).mem q = notTerminated s.cfg s.mem q := by
  have h := s.params.wellFormed
  have h3 := three_le_pcbWords h hf
  have hlow := lowKept_unmapAll h s.mem hptbr
  obtain ⟨hcur, hcount, hids⟩ := pids_markTerminated h h3 (unmapAll s.cfg s.mem s.ptbr.toNat) hp
  exact ⟨hcur.trans (hlow.curPid_eq h), hcount.trans (hlow.procCount_eq h), notTerminated_write_self h _ h3 hp,
    fun q hq hqp => (hids q hq hqp).trans (hlow.notTerminated_eq h h3 hq)⟩

/-- R92: retiring the current process keeps ownership. -/
theorem owned_retire (h : Disciplined s) (hne : s.curPid ≠ noProcessWord s.cfg) :
    Owned s.cfg (retire s s.curPid.toNat).mem s.procCount := by
  have hw := s.params.wellFormed
  have h3 := three_le_pcbWords hw hf
  obtain ⟨hlt, hbase⟩ := h.current hne
  have hpm : s.curPid.toNat < s.cfg.maxProcs := Nat.lt_of_lt_of_le hlt h.bounded
  rw [retire_mem, hbase]
  exact (((disciplined_iff s).1 h).1.unmapAll hw h3 hpm).congr (wf_layout hw).1.2
    (sameBooks_markTerminated hw h3 h.bounded _ hlt fun v hv => pteValid_unmapAll hw s.mem hpm hv)

theorem advances_haltBody (h : Disciplined s) (hserv : Serving s) : Advances s (haltBody s) := by
  obtain ⟨hlt, hbase⟩ := h.current hserv.2
  have hpm : s.curPid.toNat < s.cfg.maxProcs := Nat.lt_of_lt_of_le hlt h.bounded
  obtain ⟨hcur, hcount, hended, hids⟩ := pids_retire hf hpm (by rw [hbase]; exact ptBase_ge _ _)
  have ho' : Owned s.cfg (retire s s.curPid.toNat).mem (retire s s.curPid.toNat).procCount := by
    rw [hcount]
    exact owned_retire hf h hserv.2
  have hcons : (retire s s.curPid.toNat).curPid.toNat < (retire s s.curPid.toNat).procCount ∧
      s.ptbr.toNat = ptBase s.cfg (retire s s.curPid.toNat).curPid.toNat := by
    rw [hcur, hcount]
    exact ⟨hlt, hbase⟩
  have hpersist : PidsPersist s.cfg s.mem (retire s s.curPid.toNat).mem := ⟨hcount.ge, fun p hp he => by
    by_cases hpc : p = s.curPid.toNat
    · rw [hpc, hended]
    · rw [hids p (Nat.lt_of_lt_of_le hp h.bounded) hpc, he]⟩
  rcases haltBody_spec s with ⟨p, hnext, he⟩ | ⟨-, he⟩ <;> rw [he]
  · have hloaded := advances_loadProcess (s := retire s s.curPid.toNat) hf ho' (nextLive_live hnext)
    have hdone := hloaded.trans (advances_of_sameMem hloaded.disciplined
      (t := (loadProcess (retire s s.curPid.toNat) p).respond .ok (BitVec.ofNat 16 p)) rfl rfl id rfl)
    exact ⟨rfl, hdone.disciplined, hpersist.trans hdone.persist⟩
  · refine ⟨rfl, (disciplined_iff _).2 ⟨?_, fun hne => ?_, fun hrun => ?_⟩, hpersist⟩
    · exact ho'
    · exact hcons
    · cases hrun

/-- R93: BRK on a page of the current process keeps the invariants. -/
theorem advances_brkBody (h : Disciplined s) (hserv : Serving s) {vpn : Nat} (hvpn : vpn < s.cfg.ptEntries)
    (r w g : Bool) : Advances s (brkBody vpn r w g s) := by
  have hw := s.params.wellFormed
  have h3 := three_le_pcbWords hw hf
  have ho := ((disciplined_iff s).1 h).1
  obtain ⟨hlt, hbase⟩ := h.current hserv.2
  have hnt := (live_iff.1 (h.currentLive hserv.1 hserv.2)).2
  have hret : LowKept s.cfg s.mem (brkRet s vpn r w g).mem ∧ Owned s.cfg (brkRet s vpn r w g).mem s.procCount := by
    unfold brkRet
    rw [hbase]
    cases g with
    | true => exact ⟨lowKept_mapPage hw s.mem (ptBase_ge _ _) vpn r w, ho.mapPage hw h3 hlt hnt hvpn r w⟩
    | false =>
      exact ⟨lowKept_unmapPage hw s.mem (ptBase_ge _ _) vpn,
        ho.unmapPage hw h3 (Nat.lt_of_lt_of_le hlt h.bounded) hvpn⟩
  rw [brkBody_spec]
  refine advances_of_samePids h rfl rfl id (hret.1.samePids hw hf h.bounded) ?_
  rw [hret.1.procCount_eq hw]
  exact hret.2

/-- R81: CREATE keeps the invariants. -/
theorem advances_createProcess (h : Disciplined s) (hroom : s.procCount < s.cfg.maxProcs) (code heap : List Word) :
    Advances s (s.finish (createProcess s.cfg s.mem code heap)) := by
  have hw := s.params.wellFormed
  obtain ⟨hcur, hids, hdone⟩ := pids_createProcess hw hf s.mem code heap hroom
  refine advances_of_samePids h rfl rfl id ⟨hcur, ?_, fun p hp => ?_⟩
    (((disciplined_iff s).1 h).1.createProcess hw hf code heap hroom)
  · rcases hdone with ⟨-, -, hcount, -⟩ | ⟨-, hcount⟩
    · exact (Nat.le_succ _).trans hcount.ge
    · exact hcount.ge
  · exact hids p (Nat.lt_trans hp hroom) (Nat.ne_of_lt hp)

omit hf in
/-- R72, R26 (i): a store of the current process lands past the reserved frames. -/
theorem reserved_le_of_translate (h : Disciplined s) (hserv : Serving s) {va : Word} {k : AccessKind} {pa : Nat}
    (hpa : translate s va k = .address pa) : s.cfg.reservedFrames * s.cfg.pageWords ≤ pa := by
  have hw := s.params.wellFormed
  obtain ⟨hlt, hbase⟩ := h.current hserv.2
  rcases translate_spec s va k rfl with ⟨-, he⟩ | ⟨-, -, he⟩ | ⟨-, -, -, he⟩ | ⟨-, hval, -, he⟩ <;>
    rw [he] at hpa <;> cases hpa
  rw [hbase] at hval ⊢
  exact physAddr_ge (h.named _ hlt _ (vpnOf_lt hw va) hval).1 _

theorem advances_store (h : Disciplined s) {pa : Nat} (hpa : s.cfg.reservedFrames * s.cfg.pageWords ≤ pa) (d : Word) :
    Advances s ({ s with mem := s.mem.write s.cfg pa d }.respond .ok 0) := by
  have hw := s.params.wellFormed
  have hlow := lowKept_write hw s.mem ((ptRegionBase_le_reserved hw).trans hpa) d
  refine advances_of_samePids h rfl rfl id (hlow.samePids hw hf h.bounded) ?_
  rw [respond_mem, hlow.procCount_eq hw]
  exact ((disciplined_iff s).1 h).1.congr (wf_layout hw).1.2
    (sameBooks_write_frame hw (three_le_pcbWords hw hf) h.bounded s.mem hpa d)

omit hf in
theorem advances_raiseFault (h : Disciplined s) {cause : FaultCause} (hcause : cause ≠ .none) (va : Word)
    (k : AccessKind) : Advances s (raiseFault s cause va k) :=
  advances_of_sameMem h (by simp) (by simp) (fun hrun => absurd ((runEnable_iff _).1 hrun).2 (by simpa using hcause))
    (by simp)

/-- R26: every operation a disciplined run may issue keeps the invariants. -/
theorem advances_exec {t : State} {i : Instr} (h : Disciplined s) (hw : i.wellFormed s.cfg = true)
    (hd : disciplinedInstr s i = true) (he : exec i s = .next t) : Advances s t := by
  cases exec_effect he with
  | refused => exact advances_of_sameMem h rfl rfl id rfl
  | allocated => cases hd
  | freed => cases hd
  | mapped => cases hd
  | unmapped => cases hd
  | answered => exact advances_of_sameMem h rfl rfl id rfl
  | faulted _ hcause => exact advances_raiseFault h hcause _ _
  | stored d hserv hpa => exact advances_store hf h (reserved_le_of_translate h hserv hpa) d
  | tableFull => exact advances_of_sameMem h rfl rfl id rfl
  | created code heap hroom => exact advances_createProcess hf h hroom code heap
  | loaded pid =>
    have hloaded := advances_loadProcess hf ((disciplined_iff s).1 h).1 (p := pid.toNat) hd
    exact hloaded.trans (advances_of_sameMem hloaded.disciplined rfl rfl id rfl)
  | yielded _ hserv => exact advances_yieldBody hf h hserv
  | halted _ hserv => exact advances_haltBody hf h hserv
  | grown hi hserv => exact advances_brkBody hf h hserv (vpn_lt_of_isGrow hi hw) _ _ _
  | shrunk r w hi hserv => exact advances_brkBody hf h hserv (vpn_lt_of_isShrink hi hw) _ _ _

end disciplined

/-! ### Reset -/

theorem entry_reset {c : Config} (h : c.wellFormed = true) {p v : Nat} (hp : p < c.maxProcs) (hv : v < c.ptEntries) :
    entry c [] p v = 0#16 := by
  have hl := wf_layout h
  have hlt := ptBase_add_lt h hp hv
  unfold entry
  rw [read_eq_lookup _ (ptBase_add_lt_memWords h hp hv), lookup_nil, resetWord_other (by omega) (by omega)]

theorem procCount_reset {c : Config} (h : c.wellFormed = true) : procCount c [] = 0 := by
  have hl := wf_layout h
  unfold procCount
  rw [read_eq_lookup _ (procCountAddr_lt h), lookup_nil, resetWord_other (by omega) (by omega)]
  rfl

theorem curPid_reset {c : Config} (h : c.wellFormed = true) : curPid c [] = noProcessWord c := by
  unfold curPid
  rw [read_eq_lookup _ (curPidAddr_lt h), lookup_nil, resetWord_curPid]

/-- R27: at reset no entry is valid, and exactly the assignable frames are free. -/
theorem owned_reset {c : Config} (h : c.wellFormed = true) : Owned c [] 0 := by
  have hnone {p v : Nat} (hp : p < c.maxProcs) (hv : v < c.ptEntries) : pteValid (entry c [] p v) = false := by
    rw [entry_reset h hp hv, pteValid_zero]
  refine ⟨fun f hf => ?_, fun _ hp => absurd hp (Nat.not_lt_zero _), fun p hp _ _ v hv _ _ hval => ?_,
    fun f hf hr hu => ?_, fun _ hp => absurd hp (Nat.not_lt_zero _), fun _ hp _ _ hv => hnone hp hv,
    fun _ hp => absurd hp (Nat.not_lt_zero _), Nat.zero_le _⟩
  · have := (wf_layout h).1.2
    rw [isFree_reset h (by omega), decide_eq_false (by omega)]
  · rw [hnone hp hv] at hval
    cases hval
  · rw [isFree_reset h hf, decide_eq_true hr] at hu
    cases hu

theorem disciplined_resetAt (p : Params) : Disciplined (State.resetAt p) := by
  have hcur : (State.resetAt p).curPid = noProcessWord p.config := curPid_reset p.wellFormed
  refine (disciplined_iff _).2 ⟨?_, fun hne => absurd hcur hne, fun _ hne => absurd hcur hne⟩
  rw [show (State.resetAt p).procCount = 0 from procCount_reset p.wellFormed]
  exact owned_reset p.wellFormed

/-- What is issued next is no matter of the invariants. -/
theorem disciplined_resetAt_input (p : Params) (inputs : List Input) :
    Disciplined { State.resetAt p with input := inputs } :=
  (advances_of_sameMem (s := State.resetAt p) (t := { State.resetAt p with input := inputs }) (disciplined_resetAt p)
    rfl rfl id rfl).disciplined

/-- Settles O53: no process is current and frames are owned as `owned_reset` says. -/
theorem resetIsDisciplined : Obligations.ResetIsDisciplined := disciplined_resetAt

/-! ### Steps and runs -/

/-- R26, R126: a step on a disciplined input that is no reset keeps the invariants and the pids. -/
theorem advances_step {s t : State} (hf : s.cfg.fits = true) (h : Disciplined s) (hd : nextDisciplined s = true)
    (hreset : ∀ rest, s.input ≠ .reset :: rest) (hstep : step s = .next t) : Advances s t := by
  rcases step_cases s with ⟨-, he⟩ | ⟨i, rest, hi, hcases⟩
  · rw [he] at hstep
    cases hstep
    exact advances_of_sameMem h rfl rfl id rfl
  have hrest : Advances s { s with input := rest } := advances_of_sameMem h rfl rfl id rfl
  unfold nextDisciplined at hd
  rw [hi] at hd
  rcases hcases with ⟨e, j, rfl, hj, he⟩ | ⟨e, err, rfl, hj, he⟩ | ⟨v, rfl, he⟩ | ⟨rfl, he⟩ <;> rw [he] at hstep
  · simp only [disciplinedInput, hj] at hd
    have hd' : disciplinedInstr { s with input := rest } j = true := by cases j <;> exact hd
    exact hrest.trans (advances_exec (s := { s with input := rest }) hf hrest.disciplined
      (wellFormed_of_decode s.params.wellFormed hj) hd' hstep)
  · cases hstep
    cases err with
    | illegalCommandWord cw => simp [disciplinedInput, hj] at hd
    | foreignTrapVector v => exact hrest
  · cases hstep
    exact hrest.trans (advances_of_sameMem hrest.disciplined rfl rfl id rfl)
  · exact absurd hi (hreset rest)

/-- A step on RESET gives the reset state with the rest of the inputs. -/
theorem step_reset {s : State} {rest : List Input} (hi : s.input = .reset :: rest) :
    step s = .next { State.resetAt s.params with input := rest } := by
  unfold step fetch
  rw [hi]
  rfl

theorem disciplined_step {s t : State} (hf : s.cfg.fits = true) (h : Disciplined s) (hd : nextDisciplined s = true)
    (hstep : step s = .next t) : Disciplined t := by
  by_cases hreset : ∃ rest, s.input = .reset :: rest
  · obtain ⟨rest, hi⟩ := hreset
    rw [step_reset hi] at hstep
    cases hstep
    exact disciplined_resetAt_input s.params rest
  · exact (advances_step hf h hd (not_exists.1 hreset) hstep).disciplined

/-- Settles O52: a reset gives the invariants anew, and every other disciplined input keeps them (`advances_step`). -/
theorem disciplinedStepKeepsTheInvariants : Obligations.DisciplinedStepKeepsTheInvariants := fun _ _ =>
  disciplined_step

/-- R26: the induction over a disciplined run; `fits` is a property of the configuration, which no step changes. -/
theorem disciplined_of_run {s : State} (hrun : DisciplinedRun s) (hf : s.cfg.fits = true) : Disciplined s := by
  induction hrun with
  | start params inputs => exact disciplined_resetAt_input params inputs
  | next s t _ hd hstep ih =>
    have hcfg : t.cfg = s.cfg := congrArg Params.config (step_params hstep)
    rw [hcfg] at hf
    exact disciplined_step hf (ih hf) hd hstep

/-- R26 (i): in a state with the invariants VWRITE changes no Word of a reserved frame. -/
theorem word_vwrite_reserved {s t : State} (h : Disciplined s) {va d : Word} (he : exec (.vwrite va d) s = .next t)
    {a : Nat} (ha : a < s.cfg.reservedFrames * s.cfg.pageWords) : t.word a = s.word a := by
  refine of_unlessRefused (P := fun u => u.word a = s.word a) (exec_vwrite s va d ▸ he) rfl fun hrun _ hproc => ?_
  rcases access_spec s va .write fun pa => { s with mem := s.mem.write s.cfg pa d }.respond .ok 0 with
    ⟨pa, hpa, he⟩ | ⟨cause, -, -, he⟩ <;> rw [he]
  · have := reserved_le_of_translate h ⟨hrun, hproc rfl⟩ hpa
    exact read_write_of_ne s.mem d (reserved_lt_memWords s.params.wellFormed ha) (by omega)
  · unfold State.word State.cfg
    rw [raiseFault_mem, raiseFault_params]

/-- Settles O54: the induction over the run (`disciplined_of_run`), and for (i) that a store of the current process
lands in an assignable frame (`word_vwrite_reserved`). -/
theorem disciplinedRunsKeepTheInvariants : Obligations.DisciplinedRunsKeepTheInvariants := fun _ hf hrun =>
  ⟨disciplined_of_run hrun hf, fun _ _ _ he _ ha => word_vwrite_reserved (disciplined_of_run hrun hf) he ha⟩

/-- Settles O56: of what a disciplined step keeps, the part on the pids (`PidsPersist`). -/
theorem terminatedIsForEver : Obligations.TerminatedIsForEver := by
  intro s t hf h hd hreset hstep
  have hadv := advances_step hf h hd hreset hstep
  have hcfg : t.cfg = s.cfg := congrArg Params.config hadv.params
  refine ⟨?_, hadv.persist.ended⟩
  unfold State.procCount
  rw [hcfg]
  exact hadv.persist.count

end Sys2Proof.Machine
end

section
/-! PROOFS. The states of processes (10_state.md R22): what decides the state of a pid, what loading, saving and
retiring do to it, and the transitions of CREATE, LOAD, YIELD and HALT (43_process_lifecycle.md R81, R86; 44_traps.md
R91, R92). -/

namespace Sys2Proof.Machine

open Sys2Proof.Safety

/-! ### What decides the state of a pid -/

section procState
variable {s t : State} {p : Nat}

theorem procState_nonexistent (h : s.procCount ≤ p) : procState s p = .nonexistent := by
  unfold procState
  rw [if_pos h]

theorem procState_terminated (hp : p < s.procCount) (hnt : notTerminated s.cfg s.mem p = false) :
    procState s p = .terminated := by
  unfold procState
  rw [if_neg (by omega), hnt]
  rfl

/-- R22: the three states of a live pid. -/
theorem procState_of_live (h : live s.cfg s.mem p = true) : procState s p =
    if s.curPid.toNat = p then .running else if p ∈ s.everLoaded then .ready else .created := by
  obtain ⟨hp, hnt⟩ := live_iff.1 h
  have hp : p < s.procCount := hp
  unfold procState
  rw [if_neg (by omega), hnt]
  simp

theorem procState_ne_running_of_not_live (h : live s.cfg s.mem p = false) : procState s p ≠ .running := by
  by_cases hp : p < s.procCount
  · have hnt : notTerminated s.cfg s.mem p = false := by
      by_contra hc
      rw [live_iff.2 ⟨hp, by simpa using hc⟩] at h
      cases h
    rw [procState_terminated hp hnt]
    decide
  · rw [procState_nonexistent (by omega)]
    decide

/-- R22: a running pid is live and current. -/
theorem procState_running_iff : procState s p = .running ↔ live s.cfg s.mem p = true ∧ s.curPid.toNat = p := by
  constructor
  · intro h
    cases hlive : live s.cfg s.mem p with
    | false => exact absurd h (procState_ne_running_of_not_live hlive)
    | true =>
      refine ⟨rfl, ?_⟩
      rw [procState_of_live hlive] at h
      by_contra hne
      rw [if_neg hne] at h
      split at h <;> cases h
  · rintro ⟨hlive, hcur⟩
    rw [procState_of_live hlive, if_pos hcur]

/-- R22: a pid's state is decided by the count, its id and, for a live pid, the marker and the history bit. -/
theorem procState_congr (hcount : p < t.procCount ↔ p < s.procCount)
    (hid : p < s.procCount → notTerminated t.cfg t.mem p = notTerminated s.cfg s.mem p)
    (hcur : live s.cfg s.mem p = true → (t.curPid.toNat = p ↔ s.curPid.toNat = p))
    (hloaded : p ∈ t.everLoaded ↔ p ∈ s.everLoaded) : procState t p = procState s p := by
  by_cases hp : p < s.procCount
  · cases hnt : notTerminated s.cfg s.mem p with
    | false => rw [procState_terminated hp hnt, procState_terminated (hcount.2 hp) ((hid hp).trans hnt)]
    | true =>
      have hlive : live s.cfg s.mem p = true := live_iff.2 ⟨hp, hnt⟩
      have hlive' : live t.cfg t.mem p = true := live_iff.2 ⟨hcount.2 hp, (hid hp).trans hnt⟩
      rw [procState_of_live hlive, procState_of_live hlive']
      simp only [hcur hlive, hloaded]
  · rw [procState_nonexistent (s := s) (by omega), procState_nonexistent (by omega)]

/-- What a state holds beside memory, marker and history bit does not matter. -/
theorem procState_respond (s : State) (st : Status) (v : Word) (p : Nat) :
    procState (s.respond st v) p = procState s p := rfl

end procState

/-! ### Loading, saving and retiring -/

section moves
variable {s : State} (hf : s.cfg.fits = true)
include hf

/-- R86: what loading a pid with a slot makes of the marker, the count and the ids. -/
theorem pids_loadProcess {p : Nat} (hp : p < s.cfg.maxProcs) :
    (loadProcess s p).curPid.toNat = p ∧ (loadProcess s p).procCount = s.procCount ∧
    ∀ q, q < s.cfg.maxProcs → notTerminated s.cfg (loadProcess s p).mem q = notTerminated s.cfg s.mem q := by
  have h := s.params.wellFormed
  obtain ⟨hcount, hids⟩ := pids_write_curPid h (three_le_pcbWords h hf) s.mem (BitVec.ofNat 16 p)
  exact ⟨(congrArg BitVec.toNat (curPid_write_self h s.mem _)).trans (toNat_pid h hf hp.le), hcount, hids⟩

/-- R22, R86: loading a live pid makes it Running. -/
theorem procState_loadProcess_self {p : Nat} (hn : s.procCount ≤ s.cfg.maxProcs)
    (hlive : live s.cfg s.mem p = true) : procState (loadProcess s p) p = .running := by
  obtain ⟨hp, hnt⟩ := live_iff.1 hlive
  have hpm := Nat.lt_of_lt_of_le hp hn
  obtain ⟨hcur, hcount, hids⟩ := pids_loadProcess hf hpm
  exact procState_running_iff.2 ⟨live_iff.2 ⟨Nat.lt_of_lt_of_eq hp hcount.symm, (hids p hpm).trans hnt⟩, hcur⟩

/-- R22, R86: loading leaves every other pid that was not Running. -/
theorem procState_loadProcess_other {p q : Nat} (hn : s.procCount ≤ s.cfg.maxProcs) (hp : p < s.cfg.maxProcs)
    (hqp : q ≠ p) (hq : procState s q ≠ .running) : procState (loadProcess s p) q = procState s q := by
  obtain ⟨hcur, hcount, hids⟩ := pids_loadProcess hf hp
  refine procState_congr (by rw [hcount]) (fun hqn => hids q (Nat.lt_of_lt_of_le hqn hn)) (fun hlive => ?_) ?_
  · exact iff_of_false (by omega) fun hc => hq (procState_running_iff.2 ⟨hlive, hc⟩)
  · rw [loadProcess_everLoaded, mem_insertPid, or_iff_right hqp]

/-- R22, R86: the pid that was Running is Ready once another is loaded, if its history bit was set. -/
theorem procState_loadProcess_running {p q : Nat} (hn : s.procCount ≤ s.cfg.maxProcs) (hp : p < s.cfg.maxProcs)
    (hqp : q ≠ p) (hq : procState s q = .running) (hbit : q ∈ s.everLoaded) :
    procState (loadProcess s p) q = .ready := by
  obtain ⟨hcur, hcount, hids⟩ := pids_loadProcess hf hp
  obtain ⟨hqn, hnt⟩ := live_iff.1 (procState_running_iff.1 hq).1
  have hkept : q ∈ (loadProcess s p).everLoaded := mem_insertPid.2 (.inr hbit)
  rw [procState_of_live (live_iff.2 ⟨Nat.lt_of_lt_of_eq hqn hcount.symm,
    (hids q (Nat.lt_of_lt_of_le hqn hn)).trans hnt⟩), if_neg (by omega), if_pos hkept]

/-- R91: saving a context changes no pid's state. -/
theorem procState_saveContext {p : Nat} (hn : s.procCount ≤ s.cfg.maxProcs) (hp : p < s.cfg.maxProcs) (q : Nat) :
    procState (saveContext s p) q = procState s q := by
  have h := s.params.wellFormed
  obtain ⟨hcur, hcount, hids⟩ := pids_saveContext h (three_le_pcbWords h hf) s.mem hp s.pc s.ptbr
  have hcur : (saveContext s p).curPid = s.curPid := hcur
  have hcount : (saveContext s p).procCount = s.procCount := hcount
  exact procState_congr (by rw [hcount]) (fun hq => hids q (Nat.lt_of_lt_of_le hq hn)) (fun _ => by rw [hcur]) .rfl

/-- R22, R92: retiring a created pid makes it Terminated and leaves every other pid. -/
theorem procState_retire {p : Nat} (hn : s.procCount ≤ s.cfg.maxProcs) (hp : p < s.procCount)
    (hptbr : s.cfg.ptRegionBase ≤ s.ptbr.toNat) : procState (retire s p) p = .terminated ∧
      ∀ q, q ≠ p → procState (retire s p) q = procState s q := by
  obtain ⟨hcur, hcount, hended, hids⟩ := pids_retire hf (Nat.lt_of_lt_of_le hp hn) hptbr
  exact ⟨procState_terminated (hcount.symm ▸ hp) hended, fun q hqp => procState_congr (by rw [hcount])
    (fun hq => hids q (Nat.lt_of_lt_of_le hq hn) hqp) (fun _ => by rw [hcur]) .rfl⟩

end moves

/-! ### The transitions -/

/-- R53: a command that answers OK was accepted. -/
theorem accepted_of_ok {s t : State} {inRange needsProcess : Bool} {body : State → State} {v : Word}
    (h : unlessRefused s inRange needsProcess body = .next t) (hok : t.response = some ⟨.ok, v⟩) : t = body s := by
  rcases unlessRefused_spec s inRange needsProcess body with he | ⟨-, -, -, he⟩ <;> rw [he] at h <;> cases h
  · cases hok
  · rfl

/-- R90: while the current process is live the scan finds a pid. -/
theorem nextLive_of_live {c : Config} {m : Memory} {cur : Nat} (h : live c m cur = true) :
    ∃ p, nextLive c m cur = some p := by
  obtain ⟨hlt, hnt⟩ := live_iff.1 h
  rcases scan_spec c m (procCount c m) cur (List.range' 1 (procCount c m)) with ⟨_, k, _, -, -, -, he⟩ | ⟨hnone, -⟩
  · exact ⟨_, he⟩
  · have hself := hnone (procCount c m) (List.mem_range'_1.2 ⟨by omega, by omega⟩)
    rw [Nat.add_mod_right, Nat.mod_eq_of_lt hlt, hnt] at hself
    cases hself

/-- R22, R81: a successful CREATE makes the next pid Created. -/
theorem procState_create {s t : State} {code heap : List Word} {v : Word} (hf : s.cfg.fits = true)
    (he : exec (.create code heap) s = .next t) (hok : t.response = some ⟨.ok, v⟩) (hcur : s.curPid.toNat ≠ v.toNat)
    (hbit : v.toNat ∉ s.everLoaded) : procState s v.toNat = .nonexistent ∧ procState t v.toNat = .created ∧
      ∀ p, p ≠ v.toNat → procState t p = procState s p := by
  have hw := s.params.wellFormed
  obtain rfl := accepted_of_ok (exec_create s code heap ▸ he) hok
  split at hok
  · cases hok
  next hroom =>
  rw [if_neg hroom]
  have hroom : s.procCount < s.cfg.maxProcs := by omega
  obtain ⟨hcur', hids, hdone⟩ := pids_createProcess hw hf s.mem code heap hroom
  simp only [finish_response, Option.some.injEq, Response.mk.injEq] at hok
  rcases hdone with ⟨-, hv, hcount, hnew⟩ | ⟨hfail, -⟩
  · have hvn : v.toNat = s.procCount := by rw [← hok.2, hv]; exact toNat_pid hw hf hroom.le
    have hcount : (s.finish (createProcess s.cfg s.mem code heap)).procCount = s.procCount + 1 := hcount
    have hcur' : (s.finish (createProcess s.cfg s.mem code heap)).curPid = s.curPid := hcur'
    rw [hvn] at hcur hbit ⊢
    refine ⟨procState_nonexistent (Nat.le_refl _), ?_, fun p hp => procState_congr (by omega) (fun hps => ?_)
      (fun _ => by rw [hcur']) .rfl⟩
    · rw [procState_of_live (live_iff.2 ⟨Nat.lt_of_lt_of_eq (Nat.lt_succ_self _) hcount.symm, hnew⟩), hcur',
        if_neg hcur, finish_everLoaded, if_neg hbit]
    · exact hids p (hps.trans hroom) hp
  · exact absurd hok.1 hfail

/-- R22, R86: LOAD of a live pid makes it Running and the one that was Running Ready. -/
theorem procState_load {s t : State} {pid : Word} (hf : s.cfg.fits = true) (he : exec (.load pid) s = .next t)
    (hok : t.response = some ⟨.ok, 0⟩) (hlive : live s.cfg s.mem pid.toNat = true)
    (hn : s.procCount ≤ s.cfg.maxProcs) (hbit : s.curPid = noProcessWord s.cfg ∨ s.curPid.toNat ∈ s.everLoaded) :
    procState t pid.toNat = .running ∧ ∀ p, p ≠ pid.toNat →
      procState t p = if procState s p = .running then .ready else procState s p := by
  obtain rfl := accepted_of_ok (exec_load s pid ▸ he) hok
  have hpm : pid.toNat < s.cfg.maxProcs := Nat.lt_of_lt_of_le (live_iff.1 hlive).1 hn
  refine ⟨procState_loadProcess_self hf hn hlive, fun p hp => ?_⟩
  rw [procState_respond]
  split_ifs with hrun
  · obtain ⟨hplive, hpcur⟩ := procState_running_iff.1 hrun
    refine procState_loadProcess_running hf hn hpm hp hrun (hpcur ▸ hbit.resolve_left fun hnone => ?_)
    -- no pid equals the marker's value before any LOAD (R7 (h))
    have hlt : p < s.cfg.maxProcs := Nat.lt_of_lt_of_le (live_iff.1 hplive).1 hn
    rw [hnone, toNat_noProcessWord (c := s.cfg) s.params.wellFormed hf] at hpcur
    have := wf_rest (c := s.cfg) s.params.wellFormed
    omega
  · exact procState_loadProcess_other hf hn hpm hp hrun

/-- R22, R91: YIELD makes the pid it loads Running and the current one Ready, if it is another. -/
theorem procState_yield {s t : State} {c : Word} (hf : s.cfg.fits = true) (h : Disciplined s) (hserv : Serving s)
    (hbit : s.curPid.toNat ∈ s.everLoaded) (he : exec .yield s = .next t) (hok : t.response = some ⟨.ok, c⟩) :
    procState t c.toNat = .running ∧ (s.curPid ≠ c → procState t s.curPid.toNat = .ready) ∧
      ∀ p, p ≠ c.toNat → p ≠ s.curPid.toNat → procState t p = procState s p := by
  have hsaved := advances_saveContext hf h hserv.2
  have hn : (saveContext s s.curPid.toNat).procCount ≤ s.cfg.maxProcs := hsaved.disciplined.bounded
  have hpm : s.curPid.toNat < s.cfg.maxProcs := Nat.lt_of_lt_of_le (h.current hserv.2).1 h.bounded
  have hsame := procState_saveContext hf h.bounded hpm
  have hrunning : procState (saveContext s s.curPid.toNat) s.curPid.toNat = .running :=
    (hsame _).trans (procState_running_iff.2 ⟨h.currentLive hserv.1 hserv.2, rfl⟩)
  obtain rfl := accepted_of_ok (exec_yield s ▸ he) hok
  rcases yieldBody_spec s with ⟨q, hnext, hy⟩ | ⟨hnone, -⟩
  · have hq := nextLive_live hnext
    have hqm : q < s.cfg.maxProcs := Nat.lt_of_lt_of_le (live_iff.1 hq).1 hn
    rw [hy] at hok ⊢
    obtain rfl : BitVec.ofNat 16 q = c := by cases hok; rfl
    have hqn := toNat_pid s.params.wellFormed hf hqm.le
    rw [hqn]
    refine ⟨procState_loadProcess_self (s := saveContext s _) hf hn hq, fun hne => ?_, fun p hp hpc => ?_⟩
    · exact procState_loadProcess_running (s := saveContext s _) hf hn hqm
        (fun hc => hne (BitVec.eq_of_toNat_eq (hc.trans hqn.symm))) hrunning hbit
    · rw [procState_respond, procState_loadProcess_other (s := saveContext s _) hf hn hqm hp, hsame]
      rw [hsame]
      exact fun hc => hpc (procState_running_iff.1 hc).2.symm
  · obtain ⟨q, hq⟩ := nextLive_of_live (procState_running_iff.1 hrunning).1
    cases hnone.symm.trans hq

/-- R22, R92: HALT makes the current pid Terminated and the one it loads, if it loads one, Running. -/
theorem procState_halt {s t : State} {c : Word} (hf : s.cfg.fits = true) (h : Disciplined s) (hserv : Serving s)
    (he : exec .halt s = .next t) (hok : t.response = some ⟨.ok, c⟩) :
    procState t s.curPid.toNat = .terminated ∧ (c ≠ noProcessWord s.cfg → procState t c.toNat = .running) ∧
      ∀ p, p ≠ c.toNat → p ≠ s.curPid.toNat → procState t p = procState s p := by
  obtain ⟨hlt, hbase⟩ := h.current hserv.2
  have hptbr : s.cfg.ptRegionBase ≤ s.ptbr.toNat := hbase ▸ ptBase_ge _ _
  obtain ⟨hended, hsame⟩ := procState_retire hf h.bounded hlt hptbr
  obtain ⟨-, hcount, hcurEnded, -⟩ := pids_retire hf (Nat.lt_of_lt_of_le hlt h.bounded) hptbr
  have hn : (retire s s.curPid.toNat).procCount ≤ s.cfg.maxProcs := hcount ▸ h.bounded
  obtain rfl := accepted_of_ok (exec_halt s ▸ he) hok
  rcases haltBody_spec s with ⟨q, hnext, hy⟩ | ⟨-, hy⟩ <;> rw [hy] at hok ⊢
  · have hq := nextLive_live hnext
    have hqm : q < s.cfg.maxProcs := Nat.lt_of_lt_of_le (live_iff.1 hq).1 hn
    obtain rfl : BitVec.ofNat 16 q = c := by cases hok; rfl
    have hloaded := procState_loadProcess_self (s := retire s _) hf hn hq
    have hother {p : Nat} := procState_loadProcess_other (s := retire s s.curPid.toNat) (p := q) (q := p) hf hn hqm
    rw [toNat_pid s.params.wellFormed hf hqm.le]
    refine ⟨?_, fun _ => hloaded, fun p hp hpc => ?_⟩
    · have hne : s.curPid.toNat ≠ q := by
        rintro rfl
        cases hcurEnded.symm.trans (live_iff.1 hq).2
      rw [procState_respond, hother hne (by rw [hended]; decide), hended]
    · rw [procState_respond, hother hp, hsame p hpc]
      rw [hsame p hpc]
      exact fun hc => hpc (procState_running_iff.1 hc).2.symm
  · obtain rfl : noProcessWord s.cfg = c := by cases hok; rfl
    exact ⟨hended, fun hne => absurd rfl hne, fun p _ hpc => hsame p hpc⟩

/-- Settles O57: one lemma per operation, YIELD and HALT for their trap vectors too. -/
theorem processStatesFollowTheMachine : Obligations.ProcessStatesFollowTheMachine :=
  ⟨fun _ _ _ _ _ hf he hok => procState_create hf he hok, fun _ _ _ hf he hok => procState_load hf he hok,
    fun s _ _ _ hf hi h hserv hbit he => procState_yield hf h hserv hbit (exec_of_isYield hi s ▸ he),
    fun s _ _ _ hf hi h hserv he => procState_halt hf h hserv (exec_of_isHalt hi s ▸ he)⟩

end Sys2Proof.Machine
end

section
/-! PROOFS. The state after reset (10_state.md R18, R27), the external actions (R12, R52, R120, R121), and what a rule
does at an address past the last Word (logs 7, 26). -/

namespace Sys2Proof.Machine

open Sys2Proof.Safety

/-! ### Reset -/

/-- R27: at reset a Word of memory reads as its reset value. -/
theorem word_resetAt (p : Params) {a : Nat} (ha : a < p.config.memWords) :
    (State.resetAt p).word a = resetWord p.config a :=
  read_eq_lookup [] ha

/-- R18, R27: a bit of a bitmap Word at reset, most significant first. -/
theorem getLsbD_resetWord_bitmap {c : Config} (h : c.wellFormed = true) {i j : Nat} (hi : i < c.bitmapWords)
    (hj : j < 16) : (resetWord c (c.bitmapAddr + i)).getLsbD (15 - j) =
      decide (c.reservedFrames ≤ 16 * i + j ∧ 16 * i + j < c.numFrames) := by
  have hfold := getLsbD_bitmapFold h i hj 16 (Nat.le_refl 16)
  rw [decide_eq_true hj, Bool.true_and] at hfold
  rw [resetWord_bitmap h hi]
  unfold bitmapResetWord
  rw [← hfold, wordBits_eq h]

/-- Settles O1: the registers by definition, the Words by what an unlisted address reads as, the defaults' numbers by
evaluation. -/
theorem resetLeavesTheStatedValues : Obligations.ResetLeavesTheStatedValues := by
  refine ⟨?_, rfl, by decide, by decide, by decide, by decide⟩
  rintro p s rfl
  have h := p.wellFormed
  have hl := wf_layout h
  have hres := reservedWords_lt h
  refine ⟨rfl, rfl, rfl, rfl, rfl, rfl, curPid_reset h, ?_, fun i j hi hj => ?_, fun a ha hne hoff => ?_⟩
  · exact (word_resetAt p (procCountAddr_lt h)).trans (resetWord_other hl.2.1.symm (procCountAddr_offBitmap h))
  · have hi : i < p.config.bitmapWords := hi
    have hbit := getLsbD_resetWord_bitmap h hi hj
    rw [← word_resetAt p (by omega)] at hbit
    exact hbit
  · exact (word_resetAt p ha).trans (resetWord_other hne hoff)

/-- Settles O51: with no fault latched and nothing logged both clauses hold by definition. -/
theorem resetLatchMatchesLog : Obligations.ResetLatchMatchesLog := fun _ => ⟨rfl, rfl⟩

/-! ### External actions -/

section external
variable {s : State}

theorem step_idle (hi : s.input = []) : step s = .next s := by
  unfold step fetch
  rw [hi]

theorem step_setPc {v : Word} {rest : List Input} (hi : s.input = .setPc v :: rest) :
    step s = .next { s with input := rest, pc := if s.runEnable then v else s.pc } := by
  unfold step fetch
  rw [hi]
  rfl

/-- R52: a vector that is none of the block's three does not decode. -/
theorem decode_foreignTrapVector {c : Config} {v : BitVec 8} (q : Word) (hhalt : v.toNat ≠ c.trapHalt)
    (hyield : v.toNat ≠ c.trapYield) (hbrk : v.toNat ≠ c.trapBrk) :
    decode c (.trapVector v q) = .error (.foreignTrapVector v) := by
  change decodeTrapVector c v q = _
  unfold decodeTrapVector
  rw [if_neg hhalt, if_neg hyield, if_neg hbrk]

theorem step_foreignTrapVector {v : BitVec 8} {q : Word} {rest : List Input}
    (hi : s.input = .issue (.trapVector v q) :: rest)
    (hd : decode s.cfg (.trapVector v q) = .error (.foreignTrapVector v)) :
    step s = .next { s with input := rest } := by
  unfold step fetch
  simp only [hi, takeInput, hd, settleUndecoded]

end external

/-- Settles O4: one lemma per kind of input. -/
theorem stepTakesExternalActions : Obligations.StepTakesExternalActions := by
  refine fun s => ⟨step_idle, fun v rest hi hrun => ?_, fun v rest hi hrun => ?_, fun rest => step_reset,
    fun v q rest hi hhalt hyield hbrk => step_foreignTrapVector hi (decode_foreignTrapVector q hhalt hyield hbrk)⟩
  · rw [step_setPc hi, if_pos hrun]
  · rw [step_setPc hi, hrun]
    rfl

/-! ### Past the last Word -/

section results
variable {c : Config} {m : Memory} {tb vpn : Nat}

theorem mapPage_of_valid (hv : pteValid (m.read c (tb + vpn)) = true) (r w : Bool) :
    mapPage c m tb vpn r w = ⟨.alreadyMapped, 0, m⟩ := by
  unfold mapPage
  rw [if_pos hv]

theorem mapPage_of_noneFree (hv : pteValid (m.read c (tb + vpn)) = false) (hn : NoneFree c m) (r w : Bool) :
    mapPage c m tb vpn r w = ⟨.outOfFrames, 0, m⟩ := by
  unfold mapPage
  simp [hv, alloc_eq_of_none hn]

theorem unmapPage_of_invalid (hv : pteValid (m.read c (tb + vpn)) = false) :
    unmapPage c m tb vpn = ⟨.notMapped, 0, m⟩ := by
  rcases unmapPage_spec c m tb vpn with ⟨-, he⟩ | ⟨hval, -⟩
  · exact he
  · cases hv.symm.trans hval

theorem unmapPage_of_valid (hv : pteValid (m.read c (tb + vpn)) = true) : unmapPage c m tb vpn =
    ⟨.ok, 0, (markFree c m (pteFrame c (m.read c (tb + vpn)))).write c (tb + vpn)
      (m.read c (tb + vpn) &&& 0xFFFE#16)⟩ := by
  rcases unmapPage_spec c m tb vpn with ⟨hinv, -⟩ | ⟨-, he⟩
  · cases hv.symm.trans hinv
  · exact he

end results

/-- R93: the memory, the log and the response of BRK once its `map` or `unmap` has returned. -/
def brkDone (s : State) (vpn : Nat) (g : Bool) (ret : Ret) : State :=
  { s with
    mem := ret.mem
    log := s.log ++ ((brkDiag g ret.status).map (fun d => (⟨d, BitVec.ofNat 16 vpn, s.curPid⟩ : DiagEvent))).toList
    response := some ⟨.ok, 0⟩ }

theorem brkBody_grow {s : State} {vpn : Nat} {r w : Bool} {ret : Ret}
    (hret : mapPage s.cfg s.mem s.ptbr.toNat vpn r w = ret) : brkBody vpn r w true s = brkDone s vpn true ret := by
  rw [brkBody_spec, show brkRet s vpn r w true = ret from hret]
  rfl

theorem brkBody_shrink {s : State} {vpn : Nat} (r w : Bool) {ret : Ret}
    (hret : unmapPage s.cfg s.mem s.ptbr.toNat vpn = ret) : brkBody vpn r w false s = brkDone s vpn false ret := by
  rw [brkBody_spec, show brkRet s vpn r w false = ret from hret]
  rfl

section past
variable {s : State} {vpn : Nat} {e : Word} (hpast : s.cfg.memWords ≤ s.ptbr.toNat + vpn)
  (he : e = Config.absentWord s.cfg s.mem (s.ptbr.toNat + vpn))
include hpast he

/-- Log 7: the entry read past the last Word is the free value. -/
theorem read_entry_past : s.mem.read s.cfg (s.ptbr.toNat + vpn) = e := (read_past s.mem hpast).trans he.symm

/-- R93, log 7: a grow whose entry lies past the last Word, with no frame free, logs why it fails. -/
theorem brkBody_grow_past_none (hn : NoneFree s.cfg s.mem) (r w : Bool) : brkBody vpn r w true s = { s with
    log := s.log ++ [⟨if e.getLsbD 0 then .growAlreadyMapped else .growNoFrame, BitVec.ofNat 16 vpn, s.curPid⟩]
    response := some ⟨.ok, 0⟩ } := by
  have hread := read_entry_past hpast he
  cases hv : e.getLsbD 0 with
  | true => rw [brkBody_grow (mapPage_of_valid (hread ▸ hv) r w)]; rfl
  | false => rw [brkBody_grow (mapPage_of_noneFree (hread ▸ hv) hn r w)]; rfl

/-- R93, log 7: a grow whose entry lies past the last Word takes the lowest free frame, unless the free value is a valid
entry; the entry it would write is no Word of memory. -/
theorem brkBody_grow_past_lowest {f : Nat} (hlow : LowestFree s.cfg s.mem f) (r w : Bool) : brkBody vpn r w true s =
    if e.getLsbD 0 then { s with
      log := s.log ++ [⟨.growAlreadyMapped, BitVec.ofNat 16 vpn, s.curPid⟩]
      response := some ⟨.ok, 0⟩ }
    else { s with mem := markUsed s.cfg s.mem f, response := some ⟨.ok, 0⟩ } := by
  have hread := read_entry_past hpast he
  obtain ⟨h1, h2, hfree, hleast⟩ := hlow
  cases hv : e.getLsbD 0 with
  | true => rw [brkBody_grow (mapPage_of_valid (hread ▸ hv) r w)]; rfl
  | false =>
    rw [brkBody_grow (mapPage_eq_of_lowest s.params.wellFormed r w (hread ▸ hv) h1 h2 hfree hleast),
      write_past _ hpast]
    simp [brkDone, brkDiag]

/-- R93, logs 7 and 26: a shrink whose entry lies past the last Word frees the frame the free value names, if that is a
valid entry, and else logs that nothing is mapped. -/
theorem brkBody_shrink_past (r w : Bool) : brkBody vpn r w false s =
    if e.getLsbD 0 then { s with mem := markFree s.cfg s.mem (pteFrame s.cfg e), response := some ⟨.ok, 0⟩ }
    else { s with
      log := s.log ++ [⟨.shrinkNotMapped, BitVec.ofNat 16 vpn, s.curPid⟩]
      response := some ⟨.ok, 0⟩ } := by
  have hread := read_entry_past hpast he
  cases hv : e.getLsbD 0 with
  | true =>
    rw [brkBody_shrink r w (unmapPage_of_valid (hread ▸ hv)), write_past _ hpast, hread]
    simp [brkDone, brkDiag]
  | false => rw [brkBody_shrink r w (unmapPage_of_invalid (hread ▸ hv))]; rfl

end past

/-- R45: the three operations that translate always complete. -/
theorem exec_access_next {i : Instr} {va : Word} {k : AccessKind} (hi : Accesses i va k) (s : State) :
    ∃ t, exec i s = .next t := by
  rcases hi with rfl | ⟨rfl, -⟩ | ⟨d, rfl, -⟩
  · exact exec_xlate s va k ▸ unlessRefused_next ..
  · exact exec_vread s va ▸ unlessRefused_next ..
  · exact exec_vwrite s va d ▸ unlessRefused_next ..

/-- R93: while a process is current BRK runs its body. -/
theorem exec_brk_of_serving {s : State} (h : Serving s) (vpn : Nat) (r w g : Bool) :
    exec (.brk vpn r w g) s = .next (brkBody vpn r w g s) :=
  (exec_brk s vpn r w g).trans (unlessRefused_of_serving h _)

/-- Settles O60: reads and writes past the last Word by `read_past` and `write_past`, and BRK by what its body does with
the free value. -/
theorem addressPastMemoryCompletes : Obligations.AddressPastMemoryCompletes := by
  refine ⟨fun c m a ha => ⟨read_past m ha, write_past m ha⟩, fun s hserv => ⟨fun i va k hi hpast => ?_,
    fun i vpn r w e hi hpast he => ⟨fun hn => ?_, fun f hlow => ?_⟩, fun i vpn e hi hpast he => ?_⟩⟩
  · exact ⟨read_past s.mem hpast, exec_access_next hi s⟩
  · rw [exec_of_isGrow hi, exec_brk_of_serving hserv, brkBody_grow_past_none hpast he hn]
  · rw [exec_of_isGrow hi, exec_brk_of_serving hserv, brkBody_grow_past_lowest hpast he hlow]
  · obtain ⟨r, w, hbrk⟩ := exec_of_isShrink hi s
    rw [hbrk, exec_brk_of_serving hserv, brkBody_shrink_past hpast he]

end Sys2Proof.Machine
end

section
/-! PROOFS. Stores and other processes (20_memory.md R38; 42_translate.md R77; 10_state.md R26): what VREAD answers is
decided by its entry and the Word it reaches, and a store of the current process writes neither for another process. -/

namespace Sys2Proof.Machine

open Sys2Proof.Safety

/-! ### Translation through the table of a pid -/

/-- R70, R35: an access through the table of pid `p` that passes the checks goes to the frame its entry names. -/
theorem address_of_table {s : State} {p : Nat} (hbase : s.ptbr.toNat = ptBase s.cfg p) {va : Word} {k : AccessKind}
    {pa : Nat} (hpa : translate s va k = .address pa) :
    pteValid (entry s.cfg s.mem p (vpnOf s.cfg va)) = true ∧
      pa = physAddr s.cfg (pteFrame s.cfg (entry s.cfg s.mem p (vpnOf s.cfg va))) (offsetOf s.cfg va) := by
  rcases translate_spec s va k (e := entry s.cfg s.mem p (vpnOf s.cfg va)) (by rw [hbase]; rfl) with
    ⟨-, he⟩ | ⟨-, -, he⟩ | ⟨-, -, -, he⟩ | ⟨-, hval, -, he⟩ <;> rw [he] at hpa <;> cases hpa
  exact ⟨hval, rfl⟩

/-- R77: translation depends on the configuration, PTBR and the one entry alone. -/
theorem translate_congr {s t : State} {va : Word} (hparams : t.params = s.params) (hptbr : t.ptbr = s.ptbr)
    (hentry : t.word (s.ptbr.toNat + vpnOf s.cfg va) = s.word (s.ptbr.toNat + vpnOf s.cfg va)) (k : AccessKind) :
    translate t va k = translate s va k := by
  have hcfg : t.cfg = s.cfg := congrArg Params.config hparams
  unfold translate
  rw [hptbr, hcfg, hentry]

/-! ### What VREAD answers -/

/-- R73, R77: VREAD answers the same in two states that translate the address alike and agree on the Word it reaches. -/
theorem vread_congr {s t t₁ : State} {va : Word} (hs : Serving s) (ht : Serving t)
    (htrans : translate t va .read = translate s va .read)
    (hword : ∀ pa, translate s va .read = .address pa → t.word pa = s.word pa)
    (he : exec (.vread va) s = .next t₁) : ∃ t₂, exec (.vread va) t = .next t₂ ∧ t₂.response = t₁.response := by
  rw [exec_vread, unlessRefused_of_serving hs] at he
  cases he
  refine ⟨_, (exec_vread t va).trans (unlessRefused_of_serving ht _), ?_⟩
  unfold access
  rw [htrans]
  cases hcase : translate s va .read with
  | address pa => simp [hword pa hcase]
  | violation cause => simp

/-! ### What VWRITE leaves -/

/-- R74: a VWRITE that answers OK stored at the translated address. -/
theorem stored_of_vwrite_ok {s t : State} {va d v : Word} (he : exec (.vwrite va d) s = .next t)
    (hok : t.response = some ⟨.ok, v⟩) : ∃ pa, translate s va .write = .address pa ∧
      t = { s with mem := s.mem.write s.cfg pa d }.respond .ok 0 := by
  have ht := accepted_of_ok (exec_vwrite s va d ▸ he) hok
  rcases access_spec s va .write fun pa => { s with mem := s.mem.write s.cfg pa d }.respond .ok 0 with
    ⟨pa, hpa, hacc⟩ | ⟨cause, -, -, hacc⟩
  · exact ⟨pa, hpa, ht.trans hacc⟩
  · rw [ht.trans hacc, raiseFault_response] at hok
    cases hok

/-- R77, R26 (i): no VWRITE changes what an address translates to through the table of any slot. -/
theorem translate_vwrite {s t : State} (h : Disciplined s) {va d : Word} (he : exec (.vwrite va d) s = .next t) {q : Nat}
    (hq : q < s.cfg.maxProcs) (va' : Word) (k : AccessKind) :
    translate { t with ptbr := BitVec.ofNat 16 (ptBase s.cfg q) } va' k =
      translate { s with ptbr := BitVec.ofNat 16 (ptBase s.cfg q) } va' k := by
  have hw := s.params.wellFormed
  have hparams := exec_params he
  have hentry := word_vwrite_reserved h he (ptBase_add_lt hw hq (vpnOf_lt hw va')).2
  rw [← toNat_ptBase hw hq] at hentry
  exact translate_congr (s := { s with ptbr := BitVec.ofNat 16 (ptBase s.cfg q) })
    (t := { t with ptbr := BitVec.ofNat 16 (ptBase s.cfg q) }) hparams rfl hentry k

/-- R38, R26 (c): no address of another process translates to the Word the current process stores to; it stays as it
was. -/
theorem word_store_of_other {s : State} (h : Disciplined s) (hserv : Serving s) {va va' d : Word} {q pa pa' : Nat}
    {k k' : AccessKind} (hq : q < s.procCount) (hne : q ≠ s.curPid.toNat) (hpa : translate s va k = .address pa)
    (hpa' : translate { s with ptbr := BitVec.ofNat 16 (ptBase s.cfg q) } va' k' = .address pa') :
    (s.mem.write s.cfg pa d).read s.cfg pa' = s.mem.read s.cfg pa' := by
  have hw := s.params.wellFormed
  obtain ⟨hcur, hbase⟩ := h.current hserv.2
  have hqmax := hq.trans_le h.bounded
  obtain ⟨hval, rfl⟩ := address_of_table hbase hpa
  obtain ⟨hval', rfl⟩ := address_of_table (s := { s with ptbr := _ }) (toNat_ptBase hw hqmax) hpa'
  have hframe := (h.named q hq _ (vpnOf_lt hw va') hval').2.1
  refine read_write_of_ne _ _ (physAddr_lt hw hframe (offsetOf_lt hw va')) fun hmeet => hne ?_
  obtain ⟨hsame, -⟩ := physAddr_inj hw (offsetOf_lt hw va') (offsetOf_lt hw va) hmeet
  exact (h.exclusive q hqmax _ (hcur.trans_le h.bounded) _ (vpnOf_lt hw va') _ (vpnOf_lt hw va) hval' hval hsame).1

/-- Settles O27: the reserved frames stay as they are (`word_vwrite_reserved`), and with them the marker and what every
other process translates to (`translate_vwrite`); the Words it reaches lie in frames of its own
(`word_store_of_other`), so VREAD answers as before (`vread_congr`). -/
theorem writesAreInvisibleToOtherProcesses : Obligations.WritesAreInvisibleToOtherProcesses := by
  intro s t va d h hserv he hok
  have hreserved : ∀ a, a < s.cfg.reservedFrames * s.cfg.pageWords → t.word a = s.word a :=
    fun _ ha => word_vwrite_reserved h he ha
  refine ⟨hreserved, fun q va' hq hne t₁ hread => ?_⟩
  have hw := s.params.wellFormed
  have htrans := translate_vwrite h he (hq.trans_le h.bounded) va' .read
  have hmarker := hreserved s.cfg.curPidAddr ((curPidAddr_lt_ptRegion hw).trans_le (ptRegionBase_le_reserved hw))
  obtain ⟨pa, hpa, rfl⟩ := stored_of_vwrite_ok he hok
  exact vread_congr (s := { s with ptbr := BitVec.ofNat 16 (ptBase s.cfg q) }) hserv
    ⟨hserv.1, fun hno => hserv.2 (hmarker.symm.trans hno)⟩ htrans
    (fun _ hpa' => word_store_of_other h hserv hq hne hpa hpa') hread

end Sys2Proof.Machine
end

section
/-! PROOFS. Decoding and encoding (30_encoding.md R46 to R52, R58): what each command word and each trap vector decodes
to, that decoding undoes encoding, which operand bits the formats ignore, and the step on decoded words (R45). -/

namespace Sys2Proof.Machine

open Sys2Proof.Safety

/-! ### Command words (R46, R51) -/

section opcodes
variable {c : Config}

/-- R51: a command word past the rows of the table is illegal. -/
theorem decode_illegal {d : Command} (h : 16 ≤ d.cw.toNat) :
    decode c (.command d) = .error (.illegalCommandWord d.cw) := by
  change decodeCommand c d = _
  unfold decodeCommand
  split
  case h_17 => rfl
  all_goals omega

/-- R51: every command word below 16 decodes. -/
theorem decode_of_lt {d : Command} (h : d.cw.toNat < 16) : ∃ i, decode c (.command d) = .ok i := by
  change ∃ i, decodeCommand c d = .ok i
  unfold decodeCommand
  split
  case h_17 =>
    simp only [imp_false] at *
    omega
  all_goals exact ⟨_, rfl⟩

/-- R51: words of a command that do not decode have an illegal command word. -/
theorem decode_command_error {d : Command} {err : DecodeError} (h : decode c (.command d) = .error err) :
    err = .illegalCommandWord d.cw := by
  by_cases hlt : d.cw.toNat < 16
  · obtain ⟨i, hi⟩ := decode_of_lt (c := c) hlt
    cases hi.symm.trans h
  · cases (decode_illegal (by omega)).symm.trans h
    rfl

/-- R46, R51: what a command decodes to is encoded with the same command word. -/
theorem encode_cw_of_decode {d : Command} {i : Instr} (h : decode c (.command d) = .ok i) :
    ∃ e, encode c i = .command e ∧ e.cw = d.cw := by
  change decodeCommand c d = .ok i at h
  unfold decodeCommand at h
  split at h <;> cases h
  all_goals exact ⟨_, rfl, BitVec.eq_of_toNat_eq (Eq.symm ‹_›)⟩

/-- R51: no pseudo-instruction comes out of the decoder. -/
theorem core_of_decode {e : Encoded} {i : Instr} (h : decode c e = .ok i) : i.core = i := by
  cases e with
  | command d =>
    change decodeCommand c d = .ok i at h
    unfold decodeCommand at h
    split at h <;> cases h <;> rfl
  | trapVector v q =>
    change decodeTrapVector c v q = .ok i at h
    unfold decodeTrapVector at h
    split_ifs at h <;> cases h <;> rfl

/-- Settles O8: words of 16 or more by `decode_illegal`, the others by `decode_of_lt` and `encode_cw_of_decode`. -/
theorem commandWordsMatchExactly : Obligations.CommandWordsMatchExactly := by
  refine fun c d => ⟨decode_illegal, fun h => ?_⟩
  obtain ⟨i, hi⟩ := decode_of_lt (c := c) h
  obtain ⟨e, he, hcw⟩ := encode_cw_of_decode hi
  exact ⟨i, e, hi, he, hcw⟩

/-- Settles O5: each word is evaluated. -/
theorem writtenWordsDecode : Obligations.WrittenWordsDecode := ⟨rfl, rfl, rfl, rfl, rfl, rfl, rfl, rfl⟩

/-! ### Trap vectors (R52) -/

section vectors
variable {v : BitVec 8} (q : Word)

theorem decode_trapHalt (h : v.toNat = c.trapHalt) : decode c (.trapVector v q) = .ok .trapvecHalt :=
  if_pos h

theorem decode_trapYield (hhalt : v.toNat ≠ c.trapHalt) (h : v.toNat = c.trapYield) :
    decode c (.trapVector v q) = .ok .trapvecYield := by
  change decodeTrapVector c v q = _
  unfold decodeTrapVector
  rw [if_neg hhalt, if_pos h]

theorem decode_trapBrk (hhalt : v.toNat ≠ c.trapHalt) (hyield : v.toNat ≠ c.trapYield) (h : v.toNat = c.trapBrk) :
    decode c (.trapVector v q) = .ok (.trapvecBrk (pageWordVpn c q) (pageWordRead q) (pageWordWrite q)
      (pageWordGrow q)) := by
  change decodeTrapVector c v q = _
  unfold decodeTrapVector
  rw [if_neg hhalt, if_neg hyield, if_pos h]

/-- R52: the block's three vectors are the only ones that decode. -/
theorem decode_trapVector_iff : (∃ i, decode c (.trapVector v q) = .ok i) ↔
    v.toNat = c.trapHalt ∨ v.toNat = c.trapYield ∨ v.toNat = c.trapBrk := by
  by_cases hhalt : v.toNat = c.trapHalt
  · exact iff_of_true ⟨_, decode_trapHalt q hhalt⟩ (.inl hhalt)
  by_cases hyield : v.toNat = c.trapYield
  · exact iff_of_true ⟨_, decode_trapYield q hhalt hyield⟩ (.inr (.inl hyield))
  by_cases hbrk : v.toNat = c.trapBrk
  · exact iff_of_true ⟨_, decode_trapBrk q hhalt hyield hbrk⟩ (.inr (.inr hbrk))
  · refine iff_of_false (fun ⟨i, hi⟩ => ?_) (not_or.2 ⟨hhalt, not_or.2 ⟨hyield, hbrk⟩⟩)
    cases (decode_foreignTrapVector q hhalt hyield hbrk).symm.trans hi

end vectors

/-- R58: a shrink does not read the permissions of its request. -/
theorem exec_brk_shrink (s : State) (vpn : Nat) (r w : Bool) : exec (.brk vpn r w false) s = exec (.shrink vpn) s := by
  have hbody : brkBody vpn r w false = brkBody vpn false false false := funext fun s =>
    (brkBody_shrink r w rfl).trans (brkBody_shrink false false rfl).symm
  rw [exec_shrink, exec_brk, exec_brk, hbody]

/-- Settles O9: the aliases by the arms of `exec`, the vectors by `decode_trapVector_iff`. -/
theorem aliasesRunTheirOperation : Obligations.AliasesRunTheirOperation :=
  ⟨fun s vpn r w g => ⟨exec_grow s vpn r w, (exec_brk_shrink s vpn r w).symm, exec_trapvecBrk s vpn r w g,
    exec_trapvecHalt s, exec_trapvecYield s⟩, fun _ _ q => decode_trapVector_iff q⟩

/-! ### Decoding undoes encoding (R48, R49, R58) -/

theorem kindOfWord_toWord (k : AccessKind) : kindOfWord k.toWord = k := by
  cases k <;> rfl

section formats
variable (a b : Word) (code heap : List Word)

theorem decode_map : decode c (.command ⟨2, a, b, code, heap⟩) =
    .ok (.map a (pageWordVpn c b) (pageWordRead b) (pageWordWrite b)) := rfl

theorem decode_unmap : decode c (.command ⟨3, a, b, code, heap⟩) = .ok (.unmap a (pageWordVpn c b)) := rfl

theorem decode_xlate : decode c (.command ⟨4, a, b, code, heap⟩) = .ok (.xlate a (kindOfWord b)) := rfl

theorem decode_brk : decode c (.command ⟨0xB, a, b, code, heap⟩) =
    .ok (.brk (pageWordVpn c a) (pageWordRead a) (pageWordWrite a) (pageWordGrow a)) := rfl

end formats

/-- R47 to R52, R58: decoding undoes encoding, up to the spelling of BRK. The request words are read back field by field
(`req_fields`), and the three vectors are told apart because they are distinct 8-bit values. -/
theorem decode_encode {i : Instr} (h : c.wellFormed = true) (hf : c.fits = true) (hi : i.wellFormed c = true) :
    decode c (encode c i) = .ok i.core := by
  obtain ⟨-, ho, -, -, hhalt, hyield, hbrk, hhy, hhb, hyb⟩ := (fits_iff (wordBits_eq h)).1 hf
  have hreq {vpn : Nat} (hv : vpnFits c vpn = true) := req_fields h ho ((vpnFits_iff c vpn).1 hv)
  have hbrkWord {vpn : Nat} (hv : vpnFits c vpn = true) (r w g : Bool) :
      decode c (plainCommand 0x000B (req c vpn r w g) 0) = .ok (.brk vpn r w g) := by
    obtain ⟨hvpn, hw, hr, hg⟩ := hreq hv r w g
    exact (decode_brk _ _ _ _).trans (by rw [hvpn, hr, hw, hg])
  have hvector {n : Nat} (hn : n < 256) : (BitVec.ofNat 8 n).toNat = n := by
    rw [BitVec.toNat_ofNat]
    exact Nat.mod_eq_of_lt hn
  cases i with
  | map tb vpn r w =>
    obtain ⟨hvpn, hw, hr, -⟩ := hreq hi r w false
    exact (decode_map tb _ _ _).trans (by rw [hvpn, hr, hw]; rfl)
  | unmap tb vpn =>
    obtain ⟨hvpn, -⟩ := hreq hi false false false
    exact (decode_unmap tb _ _ _).trans (by rw [hvpn]; rfl)
  | xlate va k => exact (decode_xlate va _ _ _).trans (by rw [kindOfWord_toWord]; rfl)
  | brk vpn r w g => exact hbrkWord hi r w g
  | grow vpn r w => exact hbrkWord hi r w true
  | shrink vpn => exact hbrkWord hi false false false
  | trapvecHalt => exact decode_trapHalt 0 (hvector hhalt)
  | trapvecYield => exact decode_trapYield 0 (by rw [hvector hyield]; exact hhy.symm) (hvector hyield)
  | trapvecBrk vpn r w g =>
    obtain ⟨hvpn, hw, hr, hg⟩ := hreq hi r w g
    refine (decode_trapBrk _ ?_ ?_ (hvector hbrk)).trans (by rw [hvpn, hr, hw, hg]; rfl)
    · rw [hvector hbrk]
      exact hhb.symm
    · rw [hvector hbrk]
      exact hyb.symm
  | alloc | free | vread | vwrite | create | load | yield | halt | reservedC | reservedD | reservedE | reservedF => rfl

/-- Settles O6: `decode_encode`, for every constructor. -/
theorem encodedInstructionsDecodeBack : Obligations.EncodedInstructionsDecodeBack := fun _ _ => decode_encode

/-! ### What the formats ignore (R47, R48, R49) -/

/-- R49: the vpn field depends on the page of a Word alone. -/
theorem pageWordVpn_congr (h : c.wellFormed = true) {q q' : Word}
    (hq : q.toNat / c.pageWords = q'.toNat / c.pageWords) : pageWordVpn c q = pageWordVpn c q' := by
  rw [pageWordVpn_eq h, pageWordVpn_eq h, hq]

/-- R47, R51: the reserved opcodes and the illegal words have no operands. -/
theorem decode_ignores_operands {cw : Word} (hcw : 0xC ≤ cw.toNat) (a b : Word) (code heap : List Word) :
    decode c (.command ⟨cw, a, b, code, heap⟩) = decode c (.command ⟨cw, 0, 0, [], []⟩) := by
  by_cases hlt : cw.toNat < 16
  · have hcases : cw = 0xC ∨ cw = 0xD ∨ cw = 0xE ∨ cw = 0xF := by bv_omega
    rcases hcases with rfl | rfl | rfl | rfl <;> rfl
  · have hge : 16 ≤ cw.toNat := by omega
    rw [decode_illegal (d := ⟨cw, a, b, code, heap⟩) hge, decode_illegal (d := ⟨cw, 0, 0, [], []⟩) hge]

end opcodes

/-- Settles O7: what decodes is well-formed (`wellFormed_of_decode`), is its own core (`core_of_decode`) and so comes
back from its encoding (`decode_encode`); and each format is read by its own fields alone. -/
theorem decodedInstructionsAreWellFormed : Obligations.DecodedInstructionsAreWellFormed := by
  refine ⟨fun c e i h hd => ⟨wellFormed_of_decode h hd, core_of_decode hd, fun hf => ?_⟩,
    fun c cw a a' b b' code code' heap heap' h => ⟨?_, ?_, fun h1 h2 hv => ?_, fun hv => ?_, fun h0 => ?_, rfl, rfl,
      fun h0 h1 h2 hv => ?_⟩⟩
  · rw [decode_encode h hf (wellFormed_of_decode h hd), core_of_decode hd]
  · rintro (rfl | rfl | rfl | hcw)
    · rfl
    · rfl
    · rfl
    · exact (decode_ignores_operands hcw a b code heap).trans (decode_ignores_operands hcw a' b' code' heap').symm
  · rintro (rfl | rfl | rfl) <;> rfl
  · have hread : pageWordRead b = pageWordRead b' := h1
    have hwrite : pageWordWrite b = pageWordWrite b' := h2
    rw [decode_map, decode_map, pageWordVpn_congr h hv, hread, hwrite]
  · rw [decode_unmap, decode_unmap, pageWordVpn_congr h hv]
  · have hkind : kindOfWord b = kindOfWord b' := by
      unfold kindOfWord
      rw [h0]
    rw [decode_xlate, decode_xlate, hkind]
  · have hgrow : pageWordGrow a = pageWordGrow a' := h0
    have hread : pageWordRead a = pageWordRead a' := h1
    have hwrite : pageWordWrite a = pageWordWrite a' := h2
    rw [decode_brk, decode_brk, pageWordVpn_congr h hv, hread, hwrite, hgrow]

/-! ### The step on issued words (R45, R124) -/

section issued
variable {s : State} {e : Encoded} {rest : List Input} (hi : s.input = .issue e :: rest)
include hi

theorem step_of_decode_ok {i : Instr} (hd : decode s.cfg e = .ok i) : step s = exec i { s with input := rest } := by
  unfold step fetch
  simp only [hi, takeInput, hd]

theorem step_of_decode_error {err : DecodeError} (hd : decode s.cfg e = .error err) :
    step s = .next (settleUndecoded { s with input := rest } err) := by
  unfold step fetch
  simp only [hi, takeInput, hd]

end issued

/-- Settles O3: what decodes is well-formed (`wellFormed_of_decode`) and is what the step runs (`step_of_decode_ok`). -/
theorem stepRunsTheDecodedInstruction : Obligations.StepRunsTheDecodedInstruction := fun s _ _ _ hi hd =>
  ⟨wellFormed_of_decode s.params.wellFormed hd, step_of_decode_ok hi hd⟩

end Sys2Proof.Machine
end

section
/-! PROOFS. Refusal (30_encoding.md R53): every operation is a reserved opcode or a body behind the checks of the rule,
and no body answers REFUSED. -/

namespace Sys2Proof.Machine

open Sys2Proof.Safety

/-! ### What bodies answer -/

/-- The command has been answered with a status other than REFUSED. -/
def Answered (t : State) : Prop := ∃ r, t.response = some r ∧ r.status ≠ .refused

section answers
variable {s : State}

theorem answered_respond (s : State) {st : Status} (h : st ≠ .refused) (v : Word) : Answered (s.respond st v) :=
  ⟨_, rfl, h⟩

theorem answered_finish (s : State) {r : Ret} (h : r.status ≠ .refused) : Answered (s.finish r) :=
  ⟨_, rfl, h⟩

theorem alloc_status (c : Config) (m : Memory) : (alloc c m).status ≠ .refused := by
  rcases alloc_spec c m with ⟨f, -, -, -, -, he⟩ | ⟨-, he⟩ <;> simp [he]

theorem mapPage_status {c : Config} (h : c.wellFormed = true) (m : Memory) (tb vpn : Nat) (r w : Bool) :
    (mapPage c m tb vpn r w).status ≠ .refused := by
  rcases mapPage_spec h m tb vpn r w with ⟨-, he⟩ | ⟨-, -, he⟩ | ⟨-, f, -, -, -, -, he⟩ <;> simp [he]

theorem unmapPage_status (c : Config) (m : Memory) (tb vpn : Nat) : (unmapPage c m tb vpn).status ≠ .refused := by
  rcases unmapPage_spec c m tb vpn with ⟨-, he⟩ | ⟨-, he⟩ <;> simp [he]

theorem createProcess_status (c : Config) (m : Memory) (code heap : List Word) :
    (createProcess c m code heap).status ≠ .refused := by
  unfold createProcess
  simp only
  split_ifs <;> simp

/-- R70, R104: an access answers if what it goes on to does; a fault is an answer. -/
theorem answered_access (va : Word) (k : AccessKind) {onAddress : Nat → State} (h : ∀ pa, Answered (onAddress pa)) :
    Answered (access s va k onAddress) := by
  rcases access_spec s va k onAddress with ⟨pa, -, he⟩ | ⟨cause, -, -, he⟩ <;> rw [he]
  · exact h pa
  · exact ⟨_, raiseFault_response .., by simp⟩

theorem answered_yieldBody (s : State) : Answered (yieldBody s) := by
  rcases yieldBody_spec s with ⟨p, -, he⟩ | ⟨-, he⟩ <;> rw [he] <;> exact answered_respond _ (by decide) _

theorem answered_haltBody (s : State) : Answered (haltBody s) := by
  rcases haltBody_spec s with ⟨p, -, he⟩ | ⟨-, he⟩ <;> rw [he] <;> exact answered_respond _ (by decide) _

theorem answered_brkBody (s : State) (vpn : Nat) (r w g : Bool) : Answered (brkBody vpn r w g s) := by
  rw [brkBody_spec]
  exact ⟨_, rfl, by decide⟩

end answers

/-! ### Operations behind the checks -/

/-- The operation runs a body that answers, unless the checks of R53 (a), (b), (d), (e) refuse it, and they are what the
rule says. -/
structure Guarded (s : State) (i : Instr) (inRange needsProcess : Bool) (body : State → State) : Prop where
  exec_eq : exec i s = unlessRefused s inRange needsProcess body
  refused_iff : mustRefuse s i ↔ s.fault.cause ≠ .none ∨ s.running = false ∨
    inRange = false ∨ needsProcess = true ∧ s.curPid = noProcessWord s.cfg
  answers : Answered (body s)

section guarded
variable {s : State} {i : Instr} {inRange needsProcess : Bool} {body : State → State}

theorem runEnable_eq_false_iff (s : State) : s.runEnable = false ↔ s.fault.cause ≠ .none ∨ s.running = false := by
  rw [← Bool.not_eq_true, runEnable_iff, not_and_or, Bool.not_eq_true, or_comm]

theorem Guarded.exec_refused (g : Guarded s i inRange needsProcess body) (h : mustRefuse s i) :
    exec i s = .next (refuse s) := by
  rw [g.exec_eq]
  rcases g.refused_iff.1 h with hf | hr | rfl | ⟨rfl, hc⟩
  · exact unlessRefused_of_ended ((runEnable_eq_false_iff s).2 (.inl hf)) ..
  · exact unlessRefused_of_ended ((runEnable_eq_false_iff s).2 (.inr hr)) ..
  · exact unlessRefused_of_outOfRange ..
  · exact unlessRefused_of_noProcess hc ..

theorem Guarded.exec_accepted (g : Guarded s i inRange needsProcess body) (h : ¬ mustRefuse s i) :
    exec i s = .next (body s) := by
  obtain ⟨hf, hr, hd, he⟩ : s.fault.cause = .none ∧ s.running = true ∧ inRange = true ∧
      (needsProcess = true → s.curPid ≠ noProcessWord s.cfg) := by
    simpa [g.refused_iff] using h
  rw [g.exec_eq, hd]
  exact unlessRefused_of_accepted ((runEnable_iff s).2 ⟨hr, hf⟩) he body

/-- R53 (e): an operation that needs a current process, and has no operand to check. -/
theorem Guarded.of_process (he : exec i s = unlessRefused s true true body)
    (hr : mustRefuse s i ↔ s.fault.cause ≠ .none ∨ s.running = false ∨ s.curPid = noProcessWord s.cfg)
    (ha : Answered (body s)) : Guarded s i true true body :=
  ⟨he, by simpa using hr, ha⟩

/-- R53 (d): an operation with an operand to check, `P` the rule's condition, that needs no current process. -/
theorem Guarded.of_operand {P : Prop} (he : exec i s = unlessRefused s inRange false body)
    (hr : mustRefuse s i ↔ s.fault.cause ≠ .none ∨ s.running = false ∨ P) (hP : inRange = true ↔ ¬ P)
    (ha : Answered (body s)) : Guarded s i inRange false body := by
  have hP' : P ↔ inRange = false := by rw [← Bool.not_eq_true, hP, not_not]
  exact ⟨he, by simpa [← hP'] using hr, ha⟩

theorem guarded_brk (s : State) (vpn : Nat) (r w g : Bool) :
    Guarded s (.brk vpn r w g) true true (brkBody vpn r w g) :=
  .of_process (exec_brk s vpn r w g) Iff.rfl (answered_brkBody s vpn r w g)

theorem guarded_yield (s : State) : Guarded s .yield true true yieldBody :=
  .of_process (exec_yield s) Iff.rfl (answered_yieldBody s)

theorem guarded_halt (s : State) : Guarded s .halt true true haltBody :=
  .of_process (exec_halt s) Iff.rfl (answered_haltBody s)

/-- An operation that runs another (R52, R58) stands behind the checks of that one. -/
theorem Guarded.of_exec_eq {j : Instr} (g : Guarded s j inRange needsProcess body) (he : exec i s = exec j s)
    (hr : mustRefuse s i ↔ mustRefuse s j) : Guarded s i inRange needsProcess body :=
  ⟨he.trans g.exec_eq, hr.trans g.refused_iff, g.answers⟩

theorem isTableBase_iff_not (c : Config) (tb : Word) :
    isTableBase c tb = true ↔ ¬ ∀ p, p < c.maxProcs → tb.toNat ≠ ptBase c p := by
  simp [isTableBase_iff]

/-- R53: every operation is refused in every state, which the rule says of the reserved opcodes, or stands behind the
checks. -/
theorem refused_or_guarded (i : Instr) (s : State) : (mustRefuse s i ∧ exec i s = .next (refuse s)) ∨
    ∃ inRange needsProcess body, Guarded s i inRange needsProcess body := by
  have hw := s.params.wellFormed
  cases i with
  | alloc =>
    exact .inr ⟨_, _, _, .of_operand (P := False) (exec_alloc s) Iff.rfl (by simp)
      (answered_finish s (alloc_status _ _))⟩
  | free f =>
    exact .inr ⟨_, _, _, .of_operand (exec_free s f) Iff.rfl ((isFrame_iff _ f).trans Nat.not_le.symm)
      (answered_finish s (by simp [freeFrame]))⟩
  | map tb vpn r w =>
    exact .inr ⟨_, _, _, .of_operand (exec_map s tb vpn r w) Iff.rfl (isTableBase_iff_not _ tb)
      (answered_finish s (mapPage_status hw _ _ _ _ _))⟩
  | unmap tb vpn =>
    exact .inr ⟨_, _, _, .of_operand (exec_unmap s tb vpn) Iff.rfl (isTableBase_iff_not _ tb)
      (answered_finish s (unmapPage_status _ _ _ _))⟩
  | xlate va k =>
    exact .inr ⟨_, _, _, .of_process (exec_xlate s va k) Iff.rfl
      (answered_access va k fun pa => answered_respond s (by decide) _)⟩
  | vread va =>
    exact .inr ⟨_, _, _, .of_process (exec_vread s va) Iff.rfl
      (answered_access va .read fun pa => answered_respond s (by decide) _)⟩
  | vwrite va d =>
    exact .inr ⟨_, _, _, .of_process (exec_vwrite s va d) Iff.rfl
      (answered_access va .write fun pa => answered_respond _ (by decide) _)⟩
  | create code heap =>
    refine .inr ⟨_, _, _, .of_operand (P := False) (exec_create s code heap) Iff.rfl (by simp) ?_⟩
    split
    · exact answered_respond _ (by decide) _
    · exact answered_finish s (createProcess_status _ _ _ _)
  | load pid =>
    exact .inr ⟨_, _, _, .of_operand (exec_load s pid) Iff.rfl ((isSlot_iff _ pid).trans Nat.not_le.symm)
      (answered_respond _ (by decide) _)⟩
  | yield => exact .inr ⟨_, _, _, guarded_yield s⟩
  | halt => exact .inr ⟨_, _, _, guarded_halt s⟩
  | brk vpn r w g => exact .inr ⟨_, _, _, guarded_brk s vpn r w g⟩
  | grow vpn r w => exact .inr ⟨_, _, _, (guarded_brk s vpn r w true).of_exec_eq (exec_grow s vpn r w) Iff.rfl⟩
  | shrink vpn => exact .inr ⟨_, _, _, (guarded_brk s vpn false false false).of_exec_eq (exec_shrink s vpn) Iff.rfl⟩
  | reservedC => exact .inl ⟨.inr (.inr trivial), exec_reservedC s⟩
  | reservedD => exact .inl ⟨.inr (.inr trivial), exec_reservedD s⟩
  | reservedE => exact .inl ⟨.inr (.inr trivial), exec_reservedE s⟩
  | reservedF => exact .inl ⟨.inr (.inr trivial), exec_reservedF s⟩
  | trapvecHalt => exact .inr ⟨_, _, _, (guarded_halt s).of_exec_eq (exec_trapvecHalt s) Iff.rfl⟩
  | trapvecYield => exact .inr ⟨_, _, _, (guarded_yield s).of_exec_eq (exec_trapvecYield s) Iff.rfl⟩
  | trapvecBrk vpn r w g =>
    exact .inr ⟨_, _, _, (guarded_brk s vpn r w g).of_exec_eq (exec_trapvecBrk s vpn r w g) Iff.rfl⟩

end guarded

/-- R53: under (a) to (e) a command is refused. -/
theorem exec_of_mustRefuse {i : Instr} {s : State} (h : mustRefuse s i) : exec i s = .next (refuse s) := by
  rcases refused_or_guarded i s with ⟨-, he⟩ | ⟨_, _, _, g⟩
  · exact he
  · exact g.exec_refused h

/-- R53: under none of them it is answered otherwise. -/
theorem exec_of_not_mustRefuse {i : Instr} {s : State} (h : ¬ mustRefuse s i) :
    ∃ t, exec i s = .next t ∧ Answered t := by
  rcases refused_or_guarded i s with ⟨hr, -⟩ | ⟨_, _, body, g⟩
  · exact absurd hr h
  · exact ⟨body s, g.exec_accepted h, g.answers⟩

/-- R45: every operation completes in every state. -/
theorem exec_next (i : Instr) (s : State) : ∃ t, exec i s = .next t := by
  by_cases h : mustRefuse s i
  · exact ⟨_, exec_of_mustRefuse h⟩
  · obtain ⟨t, he, -⟩ := exec_of_not_mustRefuse h
    exact ⟨t, he⟩

/-- Settles O10: by `exec_of_mustRefuse` and `exec_of_not_mustRefuse`; an illegal word does not decode
(`decode_illegal`), and what does not decode is refused. -/
theorem refusedExactlyWhenTheRuleSays : Obligations.RefusedExactlyWhenTheRuleSays := by
  refine ⟨fun i s => exec_of_mustRefuse, fun i s h => ?_, fun c s rest hcw hi => ?_⟩
  · obtain ⟨t, he, r, hr, hne⟩ := exec_of_not_mustRefuse h
    exact ⟨t, r, he, hr, hne⟩
  · exact step_of_decode_error hi (decode_illegal hcw)

/-- Settles O11: one arm of `exec` per reserved opcode. -/
theorem reservedOpcodesAreRefused : Obligations.ReservedOpcodesAreRefused := by
  rintro i s (rfl | rfl | rfl | rfl)
  · exact exec_reservedC s
  · exact exec_reservedD s
  · exact exec_reservedE s
  · exact exec_reservedF s

end Sys2Proof.Machine
end

section
/-! PROOFS. The registers (10_state.md R12 to R15, 60_exceptions.md R110): which operations may change each, read off
the effects an operation can have; and the completion of every operation and step (30_encoding.md R45). -/

namespace Sys2Proof.Machine

open Sys2Proof.Safety

/-! ### The registers after the trap bodies -/

section bodies
variable (s : State)

@[simp] theorem yieldBody_running : (yieldBody s).running = s.running := by
  rcases yieldBody_spec s with ⟨p, -, he⟩ | ⟨-, he⟩ <;> simp [he]

@[simp] theorem yieldBody_fault : (yieldBody s).fault = s.fault := by
  rcases yieldBody_spec s with ⟨p, -, he⟩ | ⟨-, he⟩ <;> simp [he]

@[simp] theorem yieldBody_log : (yieldBody s).log = s.log := by
  rcases yieldBody_spec s with ⟨p, -, he⟩ | ⟨-, he⟩ <;> simp [he]

@[simp] theorem yieldBody_input : (yieldBody s).input = s.input := by
  rcases yieldBody_spec s with ⟨p, -, he⟩ | ⟨-, he⟩ <;> simp [he]

/-- R92: HALT stops the run, or leaves the flag. -/
theorem haltBody_running : (haltBody s).running = s.running ∨ (haltBody s).running = false := by
  rcases haltBody_spec s with ⟨p, -, he⟩ | ⟨-, he⟩ <;> simp [he]

@[simp] theorem haltBody_fault : (haltBody s).fault = s.fault := by
  rcases haltBody_spec s with ⟨p, -, he⟩ | ⟨-, he⟩ <;> simp [he]

@[simp] theorem haltBody_log : (haltBody s).log = s.log := by
  rcases haltBody_spec s with ⟨p, -, he⟩ | ⟨-, he⟩ <;> simp [he]

@[simp] theorem haltBody_input : (haltBody s).input = s.input := by
  rcases haltBody_spec s with ⟨p, -, he⟩ | ⟨-, he⟩ <;> simp [he]

variable (vpn : Nat) (r w g : Bool)

@[simp] theorem brkBody_pc : (brkBody vpn r w g s).pc = s.pc := by rw [brkBody_spec]

@[simp] theorem brkBody_ptbr : (brkBody vpn r w g s).ptbr = s.ptbr := by rw [brkBody_spec]

@[simp] theorem brkBody_everLoaded : (brkBody vpn r w g s).everLoaded = s.everLoaded := by rw [brkBody_spec]

@[simp] theorem brkBody_running : (brkBody vpn r w g s).running = s.running := by rw [brkBody_spec]

@[simp] theorem brkBody_fault : (brkBody vpn r w g s).fault = s.fault := by rw [brkBody_spec]

@[simp] theorem brkBody_input : (brkBody vpn r w g s).input = s.input := by rw [brkBody_spec]

end bodies

/-! ### The log (R110) -/

/-- The log of `t` is that of `s` with at most one event more. -/
def LogGrows (s t : State) : Prop := ∃ l, t.log = s.log ++ l ∧ l.length ≤ 1

theorem LogGrows.of_eq {s t : State} (h : t.log = s.log) : LogGrows s t := ⟨[], by simp [h], by decide⟩

/-- R104: a fault logs its event. -/
theorem logGrows_raiseFault (s : State) (cause : FaultCause) (va : Word) (k : AccessKind) :
    LogGrows s (raiseFault s cause va k) := by
  cases cause with
  | none => exact .of_eq rfl
  | reservedRegion | unmappedAccess | permissionViolation => exact ⟨_, rfl, Nat.le_refl 1⟩

/-- R93: BRK logs a failure. -/
theorem logGrows_brkBody (s : State) (vpn : Nat) (r w g : Bool) : LogGrows s (brkBody vpn r w g s) := by
  rw [brkBody_spec]
  refine ⟨_, rfl, ?_⟩
  cases brkDiag g (brkRet s vpn r w g).status <;> simp

/-! ### Which effects touch which register -/

section effect
variable {s t : State} {i : Instr} (h : Effect s i t)
include h

/-- R12, R13: PC, PTBR and the history bit are a load's, and YIELD and HALT load. -/
theorem Effect.context_eq (hyield : ¬ IsYield i) (hhalt : ¬ IsHalt i) (hload : ∀ p, i ≠ .load p) :
    t.pc = s.pc ∧ t.ptbr = s.ptbr ∧ t.everLoaded = s.everLoaded := by
  cases h with
  | loaded pid => exact absurd rfl (hload pid)
  | yielded hi => exact absurd hi hyield
  | halted hi => exact absurd hi hhalt
  | faulted | grown | shrunk => simp
  | refused | allocated | freed | mapped | unmapped | answered | stored | tableFull | created => exact ⟨rfl, rfl, rfl⟩

/-- R14: the running flag is HALT's, which only clears it. -/
theorem Effect.running_eq : t.running = s.running ∨ IsHalt i ∧ t.running = false := by
  cases h with
  | halted hi => exact (haltBody_running s).imp_right fun hstop => ⟨hi, hstop⟩
  | faulted | yielded | grown | shrunk => simp
  | refused | allocated | freed | mapped | unmapped | answered | stored | tableFull | created | loaded => exact .inl rfl

/-- R15: the latch is set by the operations that translate alone. -/
theorem Effect.fault_eq (haccess : ∀ va k, ¬ Accesses i va k) : t.fault = s.fault := by
  cases h with
  | faulted hi => exact absurd hi (haccess _ _)
  | yielded | halted | grown | shrunk => simp
  | refused | allocated | freed | mapped | unmapped | answered | stored | tableFull | created | loaded => rfl

theorem Effect.logGrows : LogGrows s t := by
  cases h with
  | faulted => exact logGrows_raiseFault ..
  | tableFull => exact ⟨_, rfl, Nat.le_refl 1⟩
  | grown | shrunk => exact logGrows_brkBody ..
  | yielded => exact .of_eq (yieldBody_log s)
  | halted => exact .of_eq (haltBody_log s)
  | refused | allocated | freed | mapped | unmapped | answered | stored | created | loaded => exact .of_eq rfl

theorem Effect.input_eq : t.input = s.input := by
  cases h with
  | faulted | yielded | halted | grown | shrunk => simp
  | refused | allocated | freed | mapped | unmapped | answered | stored | tableFull | created | loaded => rfl

/-- R45: every effect leaves a response. -/
theorem Effect.responds : ∃ r, t.response = some r := by
  cases h with
  | faulted => exact ⟨_, raiseFault_response ..⟩
  | yielded => exact (answered_yieldBody s).imp fun _ hr => hr.1
  | halted => exact (answered_haltBody s).imp fun _ hr => hr.1
  | grown | shrunk => exact (answered_brkBody s _ _ _ _).imp fun _ hr => hr.1
  | refused | allocated | freed | mapped | unmapped | answered | stored | tableFull | created | loaded => exact ⟨_, rfl⟩

end effect

/-- Settles O45: one lemma per register about the effects an operation can have. -/
theorem onlyStatedOperationsChangeRegisters : Obligations.OnlyStatedOperationsChangeRegisters := fun _ _ _ he =>
  have h := exec_effect he
  ⟨h.context_eq, h.running_eq, h.fault_eq, h.logGrows, h.input_eq, exec_params he, h.responds⟩

/-! ### Every step completes (R45, R125) -/

/-- R45: every operation completes with a response and leaves the inputs. -/
theorem exec_answers (i : Instr) (s : State) : ∃ t r, exec i s = .next t ∧ t.response = some r ∧ t.input = s.input := by
  obtain ⟨t, he⟩ := exec_next i s
  obtain ⟨r, hr⟩ := (exec_effect he).responds
  exact ⟨t, r, he, hr, (exec_effect he).input_eq⟩

/-- R45: every step completes. -/
theorem step_next (s : State) : ∃ t, step s = .next t := by
  rcases step_cases s with ⟨-, he⟩ | ⟨_, rest, -, ⟨_, i, -, -, he⟩ | ⟨_, _, -, -, he⟩ | ⟨_, -, he⟩ | ⟨-, he⟩⟩
  · exact ⟨_, he⟩
  · exact he ▸ exec_next i _
  · exact ⟨_, he⟩
  · exact ⟨_, he⟩
  · exact ⟨_, he⟩

/-- R45, R53: a step on a command answers it: the operation does, or the illegal word is refused. -/
theorem step_answers {s : State} {d : Command} {rest : List Input} (hi : s.input = .issue (.command d) :: rest) :
    ∃ t r, step s = .next t ∧ t.response = some r ∧ t.input = rest := by
  cases hd : decode s.cfg (.command d) with
  | ok i => exact step_of_decode_ok hi hd ▸ exec_answers i _
  | error err =>
    cases decode_command_error hd
    exact ⟨_, _, step_of_decode_error hi hd, rfl, rfl⟩

/-- Settles O55: operations by `exec_answers`, steps by `step_next`, commands by `step_answers`. -/
theorem everyStepAnswers : Obligations.EveryStepAnswers := ⟨exec_answers, step_next, fun _ _ _ => step_answers⟩

end Sys2Proof.Machine
end

section
/-! PROOFS. The Words of the assignable frames (43_process_lifecycle.md R84, 30_encoding.md R57): what each operation on
memory, and then each operation of the block but CREATE and VWRITE, leaves of them. -/

namespace Sys2Proof.Machine

open Sys2Proof.Safety

/-- The Words past the reserved frames hold the same in both memories. -/
def FramesKept (c : Config) (m m' : Memory) : Prop :=
  ∀ a, a < c.memWords → c.reservedFrames * c.pageWords ≤ a → m'.read c a = m.read c a

/-! ### Operations on memory -/

section memory
variable {c : Config} {m m' m'' : Memory}

theorem FramesKept.refl (c : Config) (m : Memory) : FramesKept c m m := fun _ _ _ => rfl

theorem FramesKept.trans (h : FramesKept c m m') (h' : FramesKept c m' m'') : FramesKept c m m'' := fun a ha hr =>
  (h' a ha hr).trans (h a ha hr)

/-- A write to a reserved frame leaves the Words of the others. -/
theorem framesKept_write (m : Memory) {a : Nat} (ha : a < c.reservedFrames * c.pageWords) (w : Word) :
    FramesKept c m (m.write c a w) :=
  fun _ hb hr => read_write_of_ne m w hb (by omega)

variable (h : c.wellFormed = true)
include h

theorem offBitmap_of_assignable {a : Nat} (ha : c.reservedFrames * c.pageWords ≤ a) : OffBitmap c a :=
  offBitmap_of_ge h ((ptRegionBase_le_reserved h).trans ha)

theorem framesKept_markUsed (m : Memory) {f : Nat} (hf : f < c.numFrames) : FramesKept c m (markUsed c m f) :=
  fun _ ha hr => read_markUsed m ha (ne_bmWord h (offBitmap_of_assignable h hr) hf)

theorem framesKept_markFree (m : Memory) (f : Nat) : FramesKept c m (markFree c m f) :=
  fun _ ha hr => read_markFree m ha (ne_bmWord h (offBitmap_of_assignable h hr))

theorem framesKept_alloc (m : Memory) : FramesKept c m (alloc c m).mem := by
  rcases alloc_spec c m with ⟨f, -, hf, -, -, he⟩ | ⟨-, he⟩ <;> rw [he]
  · exact framesKept_markUsed h m hf
  · exact .refl c m

/-- R65: a map whose entry stands in a reserved frame. -/
theorem framesKept_mapPage (m : Memory) {tb vpn : Nat} (hentry : tb + vpn < c.reservedFrames * c.pageWords)
    (r w : Bool) : FramesKept c m (mapPage c m tb vpn r w).mem := by
  rcases mapPage_spec h m tb vpn r w with ⟨-, he⟩ | ⟨-, -, he⟩ | ⟨-, f, -, hf, -, -, he⟩ <;> rw [he]
  · exact .refl c m
  · exact .refl c m
  · exact (framesKept_markUsed h m hf).trans (framesKept_write _ hentry _)

/-- R66: an unmap whose entry stands in a reserved frame. -/
theorem framesKept_unmapPage (m : Memory) {tb vpn : Nat} (hentry : tb + vpn < c.reservedFrames * c.pageWords) :
    FramesKept c m (unmapPage c m tb vpn).mem := by
  rcases unmapPage_spec c m tb vpn with ⟨-, he⟩ | ⟨-, he⟩ <;> rw [he]
  · exact .refl c m
  · exact (framesKept_markFree h m _).trans (framesKept_write _ hentry _)

/-- R92: the unmapping of the table of a slot. -/
theorem framesKept_unmapAll (m : Memory) {p : Nat} (hp : p < c.maxProcs) :
    FramesKept c m (unmapAll c m (ptBase c p)) := fun a ha hr => by
  rw [read_unmapAll h m _ ha (offBitmap_of_assignable h hr), if_neg]
  rintro ⟨⟨hlo, hhi⟩, -⟩
  have := ptBase_add_lt h hp (v := a - ptBase c p) (by omega)
  omega

theorem pcb_add_lt_reserved {p i : Nat} (hp : p < c.maxProcs) (hi : i < c.pcbWords) :
    pcb c p + i < c.reservedFrames * c.pageWords :=
  (pcb_add_lt h hp hi).2.2.trans_le (ptRegionBase_le_reserved h)

end memory

/-! ### Operations of the block -/

section operations
variable {s t : State}

/-- R86: a load writes the marker. -/
theorem framesKept_loadProcess (s : State) (p : Nat) : FramesKept s.cfg s.mem (loadProcess s p).mem :=
  have h := s.params.wellFormed
  framesKept_write s.mem ((curPidAddr_lt_ptRegion h).trans_le (ptRegionBase_le_reserved h)) _

theorem framesKept_map {tb : Word} {vpn : Nat} {r w : Bool} (hvpn : vpn < s.cfg.ptEntries)
    (he : exec (.map tb vpn r w) s = .next t) : FramesKept s.cfg s.mem t.mem := by
  refine of_unlessRefused (P := fun u => FramesKept s.cfg s.mem u.mem) (exec_map s tb vpn r w ▸ he)
    (.refl _ _) fun _ htb _ => ?_
  obtain ⟨p, hp, hbase⟩ := (isTableBase_iff _ tb).1 htb
  have h := s.params.wellFormed
  exact framesKept_mapPage h s.mem (hbase ▸ (ptBase_add_lt h hp hvpn).2) r w

theorem framesKept_unmap {tb : Word} {vpn : Nat} (hvpn : vpn < s.cfg.ptEntries)
    (he : exec (.unmap tb vpn) s = .next t) : FramesKept s.cfg s.mem t.mem := by
  refine of_unlessRefused (P := fun u => FramesKept s.cfg s.mem u.mem) (exec_unmap s tb vpn ▸ he)
    (.refl _ _) fun _ htb _ => ?_
  obtain ⟨p, hp, hbase⟩ := (isTableBase_iff _ tb).1 htb
  have h := s.params.wellFormed
  exact framesKept_unmapPage h s.mem (hbase ▸ (ptBase_add_lt h hp hvpn).2)

/-- R91: YIELD writes the slot of the current process and the marker. -/
theorem framesKept_yieldBody (hf : s.cfg.fits = true) (hcur : s.curPid.toNat < s.cfg.maxProcs) :
    FramesKept s.cfg s.mem (yieldBody s).mem := by
  have h := s.params.wellFormed
  have h3 := three_le_pcbWords h hf
  have hsaved : FramesKept s.cfg s.mem (saveContext s s.curPid.toNat).mem :=
    (framesKept_write s.mem (pcb_add_lt_reserved h hcur (by omega)) s.pc).trans
      (framesKept_write _ (pcb_add_lt_reserved h hcur (by omega)) s.ptbr)
  rcases yieldBody_spec s with ⟨p, -, he⟩ | ⟨-, he⟩ <;> rw [he]
  · exact hsaved.trans (framesKept_loadProcess (saveContext s s.curPid.toNat) p)
  · exact hsaved

/-- R92: HALT writes the bitmap, the table at PTBR, the slot of the current process and the marker. -/
theorem framesKept_haltBody (hf : s.cfg.fits = true) (hcur : s.curPid.toNat < s.cfg.maxProcs) (hptbr : PtbrIsTable s) :
    FramesKept s.cfg s.mem (haltBody s).mem := by
  have h := s.params.wellFormed
  have h3 := three_le_pcbWords h hf
  obtain ⟨p, hp, hbase⟩ := hptbr
  have hretired : FramesKept s.cfg s.mem (retire s s.curPid.toNat).mem := by
    rw [retire_mem, hbase]
    exact (framesKept_unmapAll h s.mem hp).trans (framesKept_write _ (pcb_add_lt_reserved h hcur (i := 0) (by omega)) _)
  rcases haltBody_spec s with ⟨q, -, he⟩ | ⟨-, he⟩ <;> rw [he]
  · exact hretired.trans (framesKept_loadProcess (retire s s.curPid.toNat) q)
  · exact hretired

/-- R93: BRK writes the bitmap and an entry of the table at PTBR. -/
theorem framesKept_brkBody (hptbr : PtbrIsTable s) {vpn : Nat} (hvpn : vpn < s.cfg.ptEntries) (r w g : Bool) :
    FramesKept s.cfg s.mem (brkBody vpn r w g s).mem := by
  have h := s.params.wellFormed
  obtain ⟨p, hp, hbase⟩ := hptbr
  have hentry : s.ptbr.toNat + vpn < s.cfg.reservedFrames * s.cfg.pageWords := hbase ▸ (ptBase_add_lt h hp hvpn).2
  rw [brkBody_spec]
  cases g with
  | true => exact framesKept_mapPage h s.mem hentry r w
  | false => exact framesKept_unmapPage h s.mem hentry

/-- R84: with the current process and PTBR in range, or no current process, every operation but CREATE and VWRITE leaves
the Words past the reserved frames. -/
theorem framesKept_exec {i : Instr} (hf : s.cfg.fits = true) (hw : i.wellFormed s.cfg = true)
    (he : exec i s = .next t) (hcreate : ∀ code heap, i ≠ .create code heap) (hvwrite : ∀ va d, i ≠ .vwrite va d)
    (hcur : (PtbrIsTable s ∧ s.curPid.toNat < s.cfg.maxProcs) ∨ s.curPid = noProcessWord s.cfg) :
    FramesKept s.cfg s.mem t.mem := by
  have h := s.params.wellFormed
  have hrange (hserv : Serving s) : PtbrIsTable s ∧ s.curPid.toNat < s.cfg.maxProcs := hcur.resolve_right hserv.2
  cases exec_effect he with
  | refused | answered => exact .refl _ _
  | faulted => exact raiseFault_mem .. ▸ .refl _ _
  | allocated => exact framesKept_alloc h s.mem
  | freed f => exact framesKept_markFree h s.mem f.toNat
  | mapped tb vpn => exact framesKept_map ((vpnFits_iff _ vpn).1 hw) he
  | unmapped tb vpn => exact framesKept_unmap ((vpnFits_iff _ vpn).1 hw) he
  | stored => exact absurd rfl (hvwrite _ _)
  | tableFull code heap => exact absurd rfl (hcreate code heap)
  | created code heap => exact absurd rfl (hcreate code heap)
  | loaded pid => exact framesKept_loadProcess s pid.toNat
  | yielded _ hserv => exact framesKept_yieldBody hf (hrange hserv).2
  | halted _ hserv => exact framesKept_haltBody hf (hrange hserv).2 (hrange hserv).1
  | grown hi hserv => exact framesKept_brkBody (hrange hserv).1 (vpn_lt_of_isGrow hi hw) _ _ _
  | shrunk _ _ hi hserv => exact framesKept_brkBody (hrange hserv).1 (vpn_lt_of_isShrink hi hw) _ _ _

end operations

/-- Settles O46: what memory keeps by `framesKept_exec`, read at the configuration, which stays (`exec_params`). -/
theorem onlyCreateAndVwriteWriteFrames : Obligations.OnlyCreateAndVwriteWriteFrames := by
  intro i s t hf hw he hcreate hvwrite hcur a ha hr
  have hcfg : t.cfg = s.cfg := congrArg Params.config (exec_params he)
  unfold State.word
  rw [hcfg]
  exact framesKept_exec hf hw he hcreate hvwrite hcur a ha hr

end Sys2Proof.Machine
end

section
/-! PROOFS. The frame allocator (40_frame_allocator.md R60 to R63): what ALLOC and FREE lead to, when two memories agree
on the lowest free frame, and how the number of free frames follows the bitmap. -/

namespace Sys2Proof.Machine

open Sys2Proof.Safety

/-! ### What the two commands lead to -/

section memory
variable {c : Config} {m : Memory} {f : Nat}

/-- R60: there is a lowest free assignable frame, or none is free. -/
theorem lowestFree_or_noneFree (c : Config) (m : Memory) : (∃ f, LowestFree c m f) ∨ NoneFree c m :=
  (alloc_spec c m).imp (fun ⟨f, hres, hnum, hfree, hlow, _⟩ => ⟨f, hres, hnum, hfree, hlow⟩) And.left

theorem alloc_of_lowestFree (hlow : LowestFree c m f) : alloc c m = ⟨.ok, BitVec.ofNat 16 f, markUsed c m f⟩ := by
  obtain ⟨hres, hnum, hfree, hbelow⟩ := hlow
  exact alloc_eq_of_lowest hres hnum hfree hbelow

end memory

section commands
variable {s : State}

/-- R53, R60: while the run goes on ALLOC is never refused. -/
theorem exec_alloc_of_running (hrun : s.runEnable = true) : exec .alloc s = .next (s.finish (alloc s.cfg s.mem)) := by
  rw [exec_alloc, unlessRefused_of_accepted hrun (p := false) nofun]

theorem exec_alloc_of_lowestFree (hrun : s.runEnable = true) {f : Nat} (hlow : LowestFree s.cfg s.mem f) :
    exec .alloc s =
      .next { s with mem := markUsed s.cfg s.mem f, response := some ⟨.ok, BitVec.ofNat 16 f⟩ } := by
  rw [exec_alloc_of_running hrun, alloc_of_lowestFree hlow]
  rfl

theorem exec_alloc_of_noneFree (hrun : s.runEnable = true) (hnone : NoneFree s.cfg s.mem) :
    exec .alloc s = .next { s with response := some ⟨.noFreeFrame, 0⟩ } := by
  rw [exec_alloc_of_running hrun, alloc_eq_of_none hnone]
  rfl

/-- R60: an ALLOC that answers OK was given while the run went on, and its answer is the lowest free frame. -/
theorem lowestFree_of_alloc_ok {t : State} {v : Word} (he : exec .alloc s = .next t)
    (hok : t.response = some ⟨.ok, v⟩) : s.runEnable = true ∧ ∃ f, LowestFree s.cfg s.mem f ∧ v = BitVec.ofNat 16 f ∧
      t = { s with mem := markUsed s.cfg s.mem f, response := some ⟨.ok, v⟩ } := by
  cases hrun : s.runEnable with
  | false =>
    rw [exec_alloc, unlessRefused_of_ended hrun] at he
    cases he
    cases hok
  | true =>
    rcases lowestFree_or_noneFree s.cfg s.mem with ⟨f, hlow⟩ | hnone
    · rw [exec_alloc_of_lowestFree hrun hlow] at he
      cases he
      cases hok
      exact ⟨rfl, f, hlow, rfl, rfl⟩
    · rw [exec_alloc_of_noneFree hrun hnone] at he
      cases he
      cases hok

theorem exec_free_of_lt (hrun : s.runEnable = true) {f : Word} (hf : f.toNat < s.cfg.numFrames) :
    exec (.free f) s = .next { s with mem := markFree s.cfg s.mem f.toNat, response := some ⟨.ok, 0⟩ } := by
  rw [exec_free, (isFrame_iff s.cfg f).2 hf, unlessRefused_of_accepted hrun (p := false) nofun]
  rfl

/-- R53 (d): FREE of a number no frame has is refused, whether or not the run goes on. -/
theorem exec_free_of_ge {f : Word} (hf : s.cfg.numFrames ≤ f.toNat) :
    exec (.free f) s = .next { s with response := some ⟨.refused, 0⟩ } := by
  have hrange : isFrame s.cfg f = false := by
    rw [Bool.eq_false_iff, ne_eq, isFrame_iff]
    omega
  rw [exec_free, hrange, unlessRefused_of_outOfRange]
  rfl

end commands

/-- Settles O12: the two outcomes of ALLOC, the bits by `isFree_markUsed`, the other Words by `read_markUsed`. -/
theorem allocTakesLowestFreeFrame : Obligations.AllocTakesLowestFreeFrame := fun s hrun =>
  ⟨fun f hlow => ⟨_, exec_alloc_of_lowestFree hrun hlow, rfl,
      fun _ hg => isFree_markUsed s.params.wellFormed s.mem f hg, fun _ ha hne => read_markUsed s.mem ha hne⟩,
    exec_alloc_of_noneFree hrun⟩

/-- Settles O13: the two outcomes of FREE, the bits by `isFree_markFree`, the other Words by `read_markFree`. -/
theorem freeMarksTheFrameFree : Obligations.FreeMarksTheFrameFree := by
  refine ⟨fun s f hrun hf => ⟨_, exec_free_of_lt hrun hf, rfl, fun g hg => ?_,
    fun _ ha hne => read_markFree s.mem ha fun _ => hne⟩, fun _ _ => exec_free_of_ge⟩
  have hframe : (g = f.toNat ∧ g < s.cfg.numFrames) ↔ g = f.toNat := and_iff_left_of_imp fun he => he ▸ hf
  simpa only [hframe] using isFree_markFree s.params.wellFormed s.mem f.toNat hg

/-! ### The lowest free frame again (R62) -/

section memory
variable {c : Config} {m m' : Memory} {f : Nat}

/-- The lowest free frame depends on the bits of the frames alone. -/
theorem lowestFree_congr (hlow : LowestFree c m f) (hbits : ∀ g, g < c.numFrames → isFree c m' g = isFree c m g) :
    LowestFree c m' f := by
  obtain ⟨hres, hnum, hfree, hbelow⟩ := hlow
  exact ⟨hres, hnum, (hbits f hnum).trans hfree, fun g hg hgf => (hbits g (hgf.trans hnum)).trans (hbelow g hg hgf)⟩

/-- R60, R61: marking a free frame used and then free restores every frame's bit. -/
theorem isFree_markFree_markUsed (h : c.wellFormed = true) (hfree : isFree c m f = true) {g : Nat}
    (hg : g < c.numFrames) : isFree c (markFree c (markUsed c m f) f) g = isFree c m g := by
  have hbit := frame_lt_bits h hg
  rw [isFree_markFree h _ f hbit, isFree_markUsed h m f hbit]
  by_cases hgf : g = f
  · simp [hgf, hfree, hgf ▸ hg]
  · simp [hgf]

end memory

/-- Settles O14: FREE restores the bits ALLOC found, so the frame is again the lowest free one (`lowestFree_congr`). -/
theorem firstFitReturnsTheFreedFrame : Obligations.FirstFitReturnsTheFreedFrame := by
  intro s t₁ v he hok
  have h := s.params.wellFormed
  obtain ⟨hrun, f, hlow, rfl, ht⟩ := lowestFree_of_alloc_ok he hok
  have ⟨_, hnum, hfree, _⟩ := hlow
  have hv : (BitVec.ofNat 16 f).toNat = f := toNat_frame h hnum
  have hrun₁ : t₁.runEnable = true := ht ▸ hrun
  have hnum₁ : (BitVec.ofNat 16 f).toNat < t₁.cfg.numFrames := by rwa [hv, ht]
  have hlow₂ : LowestFree t₁.cfg (markFree t₁.cfg t₁.mem (BitVec.ofNat 16 f).toNat) f := by
    rw [hv, ht]
    exact lowestFree_congr hlow fun _ => isFree_markFree_markUsed h hfree
  refine ⟨_, _, exec_free_of_lt hrun₁ hnum₁, exec_alloc_of_lowestFree ?_ hlow₂, rfl⟩
  exact hrun₁

/-! ### The number of free frames (R63) -/

section count
variable {c : Config} {m m' : Memory}

theorem nodup_assignableFrames (c : Config) : (assignableFrames c).Nodup := by
  unfold assignableFrames
  exact List.nodup_range'

theorem freeCount_congr (hbits : ∀ g, c.reservedFrames ≤ g → g < c.numFrames → isFree c m' g = isFree c m g) :
    freeCount c m' = freeCount c m :=
  List.countP_congr fun g hg => by
    obtain ⟨hres, hnum⟩ := (mem_assignableFrames c g).1 hg
    rw [hbits g hres hnum]

/-- Two memories that differ in the bit of one assignable frame count one free frame more and less. -/
theorem freeCount_eq_succ {f : Nat} (hres : c.reservedFrames ≤ f) (hnum : f < c.numFrames)
    (hused : isFree c m f = false) (hfree : isFree c m' f = true)
    (hothers : ∀ g, g < c.numFrames → g ≠ f → isFree c m' g = isFree c m g) :
    freeCount c m' = freeCount c m + 1 := by
  have hsplit : (assignableFrames c).Perm (f :: (assignableFrames c).erase f) :=
    List.perm_cons_erase ((mem_assignableFrames c f).2 ⟨hres, hnum⟩)
  have hrest : ((assignableFrames c).erase f).countP (isFree c m') =
      ((assignableFrames c).erase f).countP (isFree c m) :=
    List.countP_congr fun g hg => by
      obtain ⟨hne, hmem⟩ := (nodup_assignableFrames c).mem_erase_iff.1 hg
      rw [hothers g ((mem_assignableFrames c g).1 hmem).2 hne]
  unfold freeCount
  rw [hsplit.countP_eq, hsplit.countP_eq, List.countP_cons_of_pos hfree,
    List.countP_cons_of_neg (Bool.eq_false_iff.1 hused), hrest]

theorem freeCount_of_noneFree (hnone : NoneFree c m) : freeCount c m = 0 :=
  List.countP_eq_zero.2 fun g hg => by
    obtain ⟨hres, hnum⟩ := (mem_assignableFrames c g).1 hg
    simp [hnone g hres hnum]

variable (h : c.wellFormed = true)
include h

/-- R63: marking a free assignable frame used takes one from the count. -/
theorem freeCount_markUsed {f : Nat} (hres : c.reservedFrames ≤ f) (hnum : f < c.numFrames)
    (hfree : isFree c m f = true) : freeCount c (markUsed c m f) + 1 = freeCount c m := by
  have hbits {g : Nat} (hg : g < c.numFrames) := isFree_markUsed h m f (frame_lt_bits h hg)
  refine (freeCount_eq_succ hres hnum ?_ hfree fun g hg hne => ?_).symm
  · simp [hbits hnum]
  · simp [hbits hg, hne]

/-- R63: marking a frame free adds one to the count exactly when the frame is assignable and was not free. -/
theorem freeCount_markFree {f : Nat} (hnum : f < c.numFrames) : freeCount c (markFree c m f) =
    if c.reservedFrames ≤ f ∧ isFree c m f = false then freeCount c m + 1 else freeCount c m := by
  have hbits {g : Nat} (hg : g < c.numFrames) := isFree_markFree h m f (frame_lt_bits h hg)
  split_ifs with hcase
  · obtain ⟨hres, hused⟩ := hcase
    refine freeCount_eq_succ hres hnum hused ?_ fun g hg hne => ?_
    · simp [hbits hnum, hnum]
    · simp [hbits hg, hne]
  · refine freeCount_congr fun g hres hg => ?_
    by_cases hgf : g = f
    · subst hgf
      have hfree : isFree c m g = true := by simpa [hres] using hcase
      simp [hbits hg, hfree]
    · simp [hbits hg, hgf]

/-- R27, R63: at reset every assignable frame is free. -/
theorem freeCount_reset : freeCount c [] = c.numFrames - c.reservedFrames := by
  have hall : ∀ f ∈ assignableFrames c, isFree c [] f = true := fun f hf => by
    obtain ⟨hres, hnum⟩ := (mem_assignableFrames c f).1 hf
    rw [isFree_reset h hnum, decide_eq_true hres]
  rw [freeCount, List.countP_eq_length.2 hall, assignableFrames, List.length_range']

end count

/-- R63: ALLOC and the count, for either answer. -/
theorem alloc_freeCount {s : State} (hrun : s.runEnable = true) : ∃ t, exec .alloc s = .next t ∧
    ((∃ f, t.response = some ⟨.ok, f⟩ ∧ freeCount s.cfg t.mem + 1 = freeCount s.cfg s.mem) ∨
      (t.response = some ⟨.noFreeFrame, 0⟩ ∧ freeCount s.cfg t.mem = freeCount s.cfg s.mem ∧
        freeCount s.cfg s.mem = 0)) := by
  rcases lowestFree_or_noneFree s.cfg s.mem with ⟨f, hlow⟩ | hnone
  · have ⟨hres, hnum, hfree, _⟩ := hlow
    exact ⟨_, exec_alloc_of_lowestFree hrun hlow,
      .inl ⟨_, rfl, freeCount_markUsed s.params.wellFormed hres hnum hfree⟩⟩
  · exact ⟨_, exec_alloc_of_noneFree hrun hnone, .inr ⟨rfl, rfl, freeCount_of_noneFree hnone⟩⟩

/-- Settles O15: ALLOC by `alloc_freeCount`, FREE by `freeCount_markFree`, reset by `freeCount_reset`. -/
theorem freeCountFollowsAllocAndFree : Obligations.FreeCountFollowsAllocAndFree :=
  ⟨fun _ => alloc_freeCount,
    fun s _ hrun hf => ⟨_, exec_free_of_lt hrun hf, freeCount_markFree s.params.wellFormed hf⟩,
    fun p => freeCount_reset p.wellFormed, freeCount_reset defaultParams.wellFormed⟩

end Sys2Proof.Machine
end

section
/-! PROOFS. MAP and UNMAP (41_page_table.md R65 to R67): what a page mapped or unmapped leaves of the bitmap and of the
other Words, what the two commands lead to on the table of a slot, and the commands one after another. -/

namespace Sys2Proof.Machine

open Sys2Proof.Safety

/-! ### The bitmap and the other Words -/

section memory
variable {c : Config} {m : Memory} {p v f a : Nat}

theorem mapPage_of_lowestFree (h : c.wellFormed = true) (hinv : pteValid (entry c m p v) = false)
    (hlow : LowestFree c m f) (r w : Bool) :
    mapPage c m (ptBase c p) v r w = ⟨.ok, BitVec.ofNat 16 f, withMapping c m p v f r w⟩ := by
  obtain ⟨hres, hnum, hfree, hbelow⟩ := hlow
  exact mapPage_eq_of_lowest h r w hinv hres hnum hfree hbelow

/-- R65: a Word that is neither the entry nor the bitmap Word of the frame. -/
theorem read_withMapping_of_ne (m : Memory) (r w : Bool) (ha : a < c.memWords) (hentry : a ≠ ptBase c p + v)
    (hbit : a ≠ bmWord c f) : (withMapping c m p v f r w).read c a = m.read c a :=
  (read_write_of_ne _ _ ha hentry).trans (read_markUsed m ha hbit)

/-- R66: a Word that is neither the entry nor the bitmap Word of the frame, where the frame has one. -/
theorem read_withoutMapping_of_ne (m : Memory) (ha : a < c.memWords) (hentry : a ≠ ptBase c p + v)
    (hbit : pteFrame c (entry c m p v) < c.numFrames → a ≠ bmWord c (pteFrame c (entry c m p v))) :
    (withoutMapping c m p v).read c a = m.read c a :=
  (read_write_of_ne _ _ ha hentry).trans (read_markFree m ha hbit)

variable (h : c.wellFormed = true)
include h

/-- A write of an entry leaves every bit of the bitmap, also those that no frame has. -/
theorem bitmap_write_entry (m : Memory) (p v : Nat) (e : Word) {g : Nat} (hg : g < 16 * c.bitmapWords) :
    isFree c (m.write c (ptBase c p + v) e) g = isFree c m g := by
  have := bmWord_lt_ptRegion h hg
  have := ptBase_ge c p
  exact isFree_write h m e hg (by omega)

/-- R65: mapping a page to `f` clears the bit of `f` and no other bit of the bitmap. -/
theorem bitmap_withMapping (m : Memory) (p v f : Nat) (r w : Bool) {g : Nat} (hg : g < 16 * c.bitmapWords) :
    isFree c (withMapping c m p v f r w) g = (isFree c m g && decide (g ≠ f)) :=
  (bitmap_write_entry h _ p v _ hg).trans (isFree_markUsed h m f hg)

/-- R66: unmapping a page sets the bit of the frame its entry names, if there is such a frame, and no other bit of the
bitmap. -/
theorem bitmap_withoutMapping (m : Memory) (p v : Nat) {g : Nat} (hg : g < 16 * c.bitmapWords) :
    isFree c (withoutMapping c m p v) g =
      (isFree c m g || decide (g = pteFrame c (entry c m p v) ∧ g < c.numFrames)) :=
  (bitmap_write_entry h _ p v _ hg).trans (isFree_markFree h m _ hg)

theorem entry_withMapping_self (m : Memory) (hp : p < c.maxProcs) (hv : v < c.ptEntries) (hf : f < c.numFrames)
    (r w : Bool) : entry c (withMapping c m p v f r w) p v = mkPte c f r w := by
  rw [entry_withMapping h m r w hv hf hp hv, if_pos ⟨rfl, rfl⟩]

/-- R65: a page just mapped has the entry of R19 for its frame, a valid one. -/
theorem entryIs_withMapping (m : Memory) (hp : p < c.maxProcs) (hv : v < c.ptEntries) (hf : f < c.numFrames)
    (r w : Bool) : EntryIs c (entry c (withMapping c m p v f r w) p v) f r w := by
  rw [entry_withMapping_self h m hp hv hf]
  exact mkPte_toNat h hf r w

theorem pteValid_withMapping (m : Memory) (hp : p < c.maxProcs) (hv : v < c.ptEntries) (hf : f < c.numFrames)
    (r w : Bool) : pteValid (entry c (withMapping c m p v f r w) p v) = true := by
  rw [entry_withMapping_self h m hp hv hf, pteValid_mkPte h hf]

theorem entry_withoutMapping_self (m : Memory) (hp : p < c.maxProcs) (hv : v < c.ptEntries) :
    entry c (withoutMapping c m p v) p v = entry c m p v &&& 0xFFFE#16 := by
  rw [entry_withoutMapping h m hv hp hv, if_pos ⟨rfl, rfl⟩]

theorem pteValid_withoutMapping (m : Memory) (hp : p < c.maxProcs) (hv : v < c.ptEntries) :
    pteValid (entry c (withoutMapping c m p v) p v) = false := by
  rw [entry_withoutMapping_self h m hp hv, pteValid_clear]

/-- R67: mapping a page to the lowest free frame and unmapping it makes that frame the lowest free one again. -/
theorem lowestFree_withoutMapping_withMapping (hlow : LowestFree c m f) (hp : p < c.maxProcs) (hv : v < c.ptEntries)
    (r w : Bool) : LowestFree c (withoutMapping c (withMapping c m p v f r w) p v) f := by
  have ⟨_, hnum, hfree, _⟩ := hlow
  refine lowestFree_congr hlow fun g hg => ?_
  rw [isFree_withoutMapping h _ p v hg, entry_withMapping_self h m hp hv hnum, pteFrame_mkPte h hnum,
    isFree_withMapping h m p v f r w hg]
  by_cases hgf : g = f
  · simp [hgf, hfree]
  · simp [hgf]

end memory

/-! ### What the two commands lead to -/

/-- R53, R68: in `s` the commands MAP and UNMAP with the base `tb` are not refused; `tb` is the base of the table of
slot `p`, which has an entry for page `vpn`. -/
structure EditsTable (s : State) (tb : Word) (p vpn : Nat) : Prop where
  /-- R53 (a), (b): the run goes on -/
  run : s.runEnable = true
  /-- R17: the slot -/
  slot : p < s.cfg.maxProcs
  /-- R68: the base of its table -/
  base : tb.toNat = ptBase s.cfg p
  /-- R20: the page -/
  page : vpn < s.cfg.ptEntries

section commands
variable {s : State} {tb : Word} {p vpn : Nat}

/-- Memory and the response do not matter to whether a table can be edited. -/
theorem EditsTable.after (he : EditsTable s tb p vpn) (m : Memory) (resp : Option Response) :
    EditsTable { s with mem := m, response := resp } tb p vpn :=
  ⟨he.run, he.slot, he.base, he.page⟩

theorem EditsTable.isTableBase (he : EditsTable s tb p vpn) : isTableBase s.cfg tb = true :=
  (isTableBase_iff s.cfg tb).2 ⟨p, he.slot, he.base⟩

theorem exec_map_of_editsTable (he : EditsTable s tb p vpn) (r w : Bool) :
    exec (.map tb vpn r w) s = .next (s.finish (mapPage s.cfg s.mem (ptBase s.cfg p) vpn r w)) := by
  rw [exec_map, he.isTableBase, unlessRefused_of_accepted he.run (p := false) nofun, he.base]

theorem exec_unmap_of_editsTable (he : EditsTable s tb p vpn) :
    exec (.unmap tb vpn) s = .next (s.finish (unmapPage s.cfg s.mem (ptBase s.cfg p) vpn)) := by
  rw [exec_unmap, he.isTableBase, unlessRefused_of_accepted he.run (p := false) nofun, he.base]

theorem exec_map_of_valid (he : EditsTable s tb p vpn) (hval : pteValid (entry s.cfg s.mem p vpn) = true) (r w : Bool) :
    exec (.map tb vpn r w) s = .next { s with response := some ⟨.alreadyMapped, 0⟩ } := by
  rw [exec_map_of_editsTable he, mapPage_of_valid hval]
  rfl

theorem exec_map_of_noneFree (he : EditsTable s tb p vpn) (hinv : pteValid (entry s.cfg s.mem p vpn) = false)
    (hnone : NoneFree s.cfg s.mem) (r w : Bool) :
    exec (.map tb vpn r w) s = .next { s with response := some ⟨.outOfFrames, 0⟩ } := by
  rw [exec_map_of_editsTable he, mapPage_of_noneFree hinv hnone]
  rfl

theorem exec_map_of_lowestFree (he : EditsTable s tb p vpn) (hinv : pteValid (entry s.cfg s.mem p vpn) = false)
    {f : Nat} (hlow : LowestFree s.cfg s.mem f) (r w : Bool) : exec (.map tb vpn r w) s =
      .next { s with
        mem := withMapping s.cfg s.mem p vpn f r w
        response := some ⟨.ok, BitVec.ofNat 16 f⟩ } := by
  rw [exec_map_of_editsTable he, mapPage_of_lowestFree s.params.wellFormed hinv hlow]
  rfl

theorem exec_unmap_of_invalid (he : EditsTable s tb p vpn) (hinv : pteValid (entry s.cfg s.mem p vpn) = false) :
    exec (.unmap tb vpn) s = .next { s with response := some ⟨.notMapped, 0⟩ } := by
  rw [exec_unmap_of_editsTable he, unmapPage_of_invalid hinv]
  rfl

theorem exec_unmap_of_valid (he : EditsTable s tb p vpn) (hval : pteValid (entry s.cfg s.mem p vpn) = true) :
    exec (.unmap tb vpn) s =
      .next { s with mem := withoutMapping s.cfg s.mem p vpn, response := some ⟨.ok, 0⟩ } := by
  rw [exec_unmap_of_editsTable he, unmapPage_of_valid hval]
  rfl

/-- R65: a MAP that answers OK was accepted, its page was not mapped, and its answer is the lowest free frame. -/
theorem lowestFree_of_map_ok {t : State} {r w : Bool} {a : Word} (hvpn : vpn < s.cfg.ptEntries)
    (hmap : exec (.map tb vpn r w) s = .next t) (hok : t.response = some ⟨.ok, a⟩) :
    ∃ p f, EditsTable s tb p vpn ∧ LowestFree s.cfg s.mem f ∧ a = BitVec.ofNat 16 f ∧
      t = { s with mem := withMapping s.cfg s.mem p vpn f r w, response := some ⟨.ok, a⟩ } := by
  rcases unlessRefused_spec s (isTableBase s.cfg tb) false _ with hrefused | ⟨hrun, htable, -, -⟩
  · rw [exec_map, hrefused] at hmap
    cases hmap
    cases hok
  · obtain ⟨p, hp, hbase⟩ := (isTableBase_iff s.cfg tb).1 htable
    have he : EditsTable s tb p vpn := ⟨hrun, hp, hbase, hvpn⟩
    cases hv : pteValid (entry s.cfg s.mem p vpn) with
    | true =>
      rw [exec_map_of_valid he hv] at hmap
      cases hmap
      cases hok
    | false =>
      rcases lowestFree_or_noneFree s.cfg s.mem with ⟨f, hlow⟩ | hnone
      · rw [exec_map_of_lowestFree he hv hlow] at hmap
        cases hmap
        cases hok
        exact ⟨p, f, he, hlow, rfl, rfl⟩
      · rw [exec_map_of_noneFree he hv hnone] at hmap
        cases hmap
        cases hok

end commands

/-- Settles O16: the three outcomes of MAP; the entry by `entryIs_withMapping`, the bits by `bitmap_withMapping`, the
other Words by `read_withMapping_of_ne`. -/
theorem mapWritesTheEntry : Obligations.MapWritesTheEntry := by
  intro s tb p vpn r w hrun hp hbase hvpn
  have h := s.params.wellFormed
  have he : EditsTable s tb p vpn := ⟨hrun, hp, hbase, hvpn⟩
  rw [hbase]
  refine ⟨fun hval => exec_map_of_valid he hval r w, fun hinv hnone => exec_map_of_noneFree he hinv hnone r w,
    fun hinv f hlow => ?_⟩
  have ⟨_, hnum, _, _⟩ := hlow
  exact ⟨_, exec_map_of_lowestFree he hinv hlow r w, rfl, entryIs_withMapping h s.mem hp hvpn hnum r w,
    fun _ => bitmap_withMapping h s.mem p vpn f r w, fun _ => read_withMapping_of_ne s.mem r w⟩

/-- Settles O17: the two outcomes of UNMAP; the entry by `entry_withoutMapping_self`, the bits by `bitmap_withoutMapping`,
the other Words by `read_withoutMapping_of_ne`. -/
theorem unmapFreesTheFrame : Obligations.UnmapFreesTheFrame := by
  intro s tb p vpn hrun hp hbase hvpn
  have h := s.params.wellFormed
  have he : EditsTable s tb p vpn := ⟨hrun, hp, hbase, hvpn⟩
  rw [hbase]
  exact ⟨exec_unmap_of_invalid he, fun hval => ⟨_, exec_unmap_of_valid he hval, rfl,
    entry_withoutMapping_self h s.mem hp hvpn, fun _ => bitmap_withoutMapping h s.mem p vpn,
    fun _ => read_withoutMapping_of_ne s.mem⟩⟩

/-- Settles O18: the first MAP leaves the page's entry valid, so a second is turned away and UNMAP accepts it; UNMAP
leaves the entry invalid and the frame again the lowest free one (`lowestFree_withoutMapping_withMapping`). -/
theorem mapTwiceKeepsTheFirstMapping : Obligations.MapTwiceKeepsTheFirstMapping := by
  intro s t₁ tb vpn r w a hvpn hmap hok
  have h := s.params.wellFormed
  obtain ⟨p, f, he, hlow, rfl, rfl⟩ := lowestFree_of_map_ok hvpn hmap hok
  have ⟨_, hnum, _, _⟩ := hlow
  have he₁ := he.after (withMapping s.cfg s.mem p vpn f r w) (some ⟨.ok, BitVec.ofNat 16 f⟩)
  have hval := pteValid_withMapping h s.mem he.slot hvpn hnum r w
  have he₂ := he.after (withoutMapping s.cfg (withMapping s.cfg s.mem p vpn f r w) p vpn) (some ⟨.ok, 0⟩)
  have hinv := pteValid_withoutMapping h (withMapping s.cfg s.mem p vpn f r w) he.slot hvpn
  have hlow₂ := lowestFree_withoutMapping_withMapping h hlow he.slot hvpn r w
  refine ⟨?_, exec_map_of_valid he₁ hval, _, exec_unmap_of_valid he₁ hval, rfl, exec_unmap_of_invalid he₂ hinv,
    fun r' w' => ⟨_, exec_map_of_lowestFree he₂ hinv hlow₂ r' w', rfl⟩⟩
  rw [he.base, toNat_frame h hnum]
  exact entryIs_withMapping h s.mem he.slot hvpn hnum r w

end Sys2Proof.Machine
end

section
/-! PROOFS. Translation and access (42_translate.md R70 to R78): what the checks give in terms of the one entry, the
outcome of the three operations that translate, and where translated addresses lie (10_state.md R26 (b), (c)). -/

namespace Sys2Proof.Machine

open Sys2Proof.Safety

/-! ### The checks, in terms of the entry the access reads (R70) -/

section checks
variable {s : State} {va : Word} {k : AccessKind}

/-- R71: the permission bits are read alike by the model and by the rule. -/
theorem permits_eq_pteAllows (e : Word) (k : AccessKind) : permits e k = pteAllows e k := by
  cases k <;> rfl

/-- R70: the first check. -/
theorem translate_of_reserved (hpage : va.toNat / s.cfg.pageWords < s.cfg.reservedVpnBoundary) (k : AccessKind) :
    translate s va k = .violation .reservedRegion :=
  if_pos hpage

/-- R70: the two checks on the entry, and the address it gives. -/
theorem translate_of_not_reserved (hpage : s.cfg.reservedVpnBoundary ≤ va.toNat / s.cfg.pageWords) (k : AccessKind) :
    translate s va k =
      if (entryFor s va).getLsbD 0 then
        if permits (entryFor s va) k then .address (landing s va) else .violation .permissionViolation
      else .violation .unmappedAccess := by
  rw [permits_eq_pteAllows]
  change _ = if pteValid (entryFor s va) then if pteAllows (entryFor s va) k then _ else _ else _
  rcases translate_spec s va k (e := entryFor s va) rfl with
    ⟨hlt, -⟩ | ⟨-, hval, he⟩ | ⟨-, hval, hallow, he⟩ | ⟨-, hval, hallow, he⟩
  · exact absurd hpage (Nat.not_le.2 hlt)
  · rw [he, if_neg (Bool.eq_false_iff.1 hval)]
  · rw [he, if_pos hval, hallow]
    rfl
  · rw [he, if_pos hval, if_pos hallow]
    rfl

/-- R70, R35: an access that passes the checks goes to the frame its entry names. -/
theorem translate_of_reaches (h : Reaches s va k) : translate s va k = .address (landing s va) := by
  obtain ⟨hpage, hval, hpermit⟩ := h
  rw [translate_of_not_reserved hpage, if_pos hval, if_pos hpermit]

/-- R35, R56: an entry that names a frame leads to a Word of M. -/
theorem landing_lt (hframe : pteFrame s.cfg (entryFor s va) < s.cfg.numFrames) : landing s va < s.cfg.memWords :=
  physAddr_lt s.params.wellFormed hframe (offsetOf_lt s.params.wellFormed va)

end checks

/-! ### The operations that translate (R46, R70, R104) -/

section access
variable {s : State} {va : Word} {k : AccessKind} {i : Instr} {cause : FaultCause}

theorem access_of_address {pa : Nat} (h : translate s va k = .address pa) (onAddress : Nat → State) :
    access s va k onAddress = onAddress pa := by
  unfold access
  rw [h]

theorem access_of_violation (h : translate s va k = .violation cause) (onAddress : Nat → State) :
    access s va k onAddress = raiseFault s cause va k := by
  unfold access
  rw [h]

/-- R70: XLATE, VREAD and VWRITE are one access each, behind the checks of R53, that answers OK where it translates. -/
theorem exec_eq_access (hi : Accesses i va k) : ∃ onAddress : State → Nat → State,
    (∀ u pa, ∃ v, (onAddress u pa).response = some ⟨.ok, v⟩) ∧
      ∀ u, exec i u = unlessRefused u true true fun u => access u va k (onAddress u) := by
  rcases hi with rfl | ⟨rfl, rfl⟩ | ⟨d, rfl, rfl⟩
  · exact ⟨_, fun _ _ => ⟨_, rfl⟩, fun u => exec_xlate u va k⟩
  · exact ⟨_, fun _ _ => ⟨_, rfl⟩, fun u => exec_vread u va⟩
  · exact ⟨_, fun _ _ => ⟨_, rfl⟩, fun u => exec_vwrite u va d⟩

/-- R104: an access of the current process that fails a check enters the fault. -/
theorem exec_of_violation (hi : Accesses i va k) (hserv : Serving s) (h : translate s va k = .violation cause) :
    exec i s = .next (raiseFault s cause va k) := by
  obtain ⟨onAddress, -, he⟩ := exec_eq_access hi
  rw [he, unlessRefused_of_serving hserv, access_of_violation h]

/-- R104, R111: fault entry, spelled out. -/
theorem raiseFault_eq_faulted {event : DiagCode} (h : cause.diag = some event) (s : State) (va : Word)
    (k : AccessKind) : raiseFault s cause va k = faulted s cause event cause.code va k := by
  unfold raiseFault
  rw [h]
  rfl

/-- R104: fault entry writes the latch, the log and the response. -/
theorem raiseFault_frame (s : State) (cause : FaultCause) (va : Word) (k : AccessKind) :
    raiseFault s cause va k = { s with
      fault := (raiseFault s cause va k).fault
      log := (raiseFault s cause va k).log
      response := (raiseFault s cause va k).response } := by
  cases cause <;> rfl

/-- R75: an access answers FAULT by fault entry alone. -/
theorem raised_of_fault_response {t : State} {v : Word} (hi : Accesses i va k) (he : exec i s = .next t)
    (hr : t.response = some ⟨.fault, v⟩) : ∃ cause, cause ≠ .none ∧ v = cause.code ∧ t = raiseFault s cause va k := by
  obtain ⟨onAddress, hok, hexec⟩ := exec_eq_access hi
  rw [hexec] at he
  rcases unlessRefused_spec s true true fun u => access u va k (onAddress u) with
    hrefused | ⟨-, -, -, haccepted⟩
  · cases hrefused.symm.trans he
    cases hr
  · cases haccepted.symm.trans he
    rcases access_spec s va k (onAddress s) with ⟨pa, -, hacc⟩ | ⟨cause, hcause, -, hacc⟩ <;> rw [hacc] at hr
    · obtain ⟨w, hw⟩ := hok s pa
      cases hw.symm.trans hr
    · cases (raiseFault_response ..).symm.trans hr
      exact ⟨cause, hcause, rfl, hacc⟩

/-- R53 (a): once a fault is latched every command is refused, whatever its words. -/
theorem step_command_of_fault (h : s.fault.cause ≠ .none) {d : Command} {rest : List Input}
    (hinput : s.input = .issue (.command d) :: rest) : step s = .next (refuse { s with input := rest }) := by
  cases hd : decode s.cfg (.command d) with
  | ok j => exact (step_of_decode_ok hinput hd).trans (exec_of_mustRefuse (.inl h))
  | error err =>
    rw [step_of_decode_error hinput hd, decode_command_error hd]
    rfl

end access

/-- Settles O19: each check that fails is a violation (`translate_of_reserved`, `translate_of_not_reserved`), which the
three operations alike enter (`exec_of_violation`) and `faulted` spells out. -/
theorem accessFaultsInTheOrderOfTheChecks : Obligations.AccessFaultsInTheOrderOfTheChecks := by
  intro s i va k hi hserv
  have hfault {cause event} (hdiag : cause.diag = some event) (h : translate s va k = .violation cause) :
      exec i s = .next (faulted s cause event cause.code va k) :=
    raiseFault_eq_faulted hdiag s va k ▸ exec_of_violation hi hserv h
  refine ⟨fun hpage => hfault rfl (translate_of_reserved hpage k), fun hpage hinv => hfault rfl ?_,
    fun hpage hval hforbid => hfault rfl ?_⟩
  · rw [translate_of_not_reserved hpage, hinv]
    rfl
  · rw [translate_of_not_reserved hpage, hval, hforbid]
    rfl

/-- Settles O23: below the boundary the first check fails, whatever the tables hold. -/
theorem reservedRegionAlwaysFaults : Obligations.ReservedRegionAlwaysFaults := fun _ _ _ k hi hserv hpage =>
  ⟨_, exec_of_violation hi hserv (translate_of_reserved hpage k), raiseFault_response ..⟩

/-- Settles O24: the access raised a fault (`raised_of_fault_response`), which writes the latch, the log and the response
(`raiseFault_frame`); the latched cause refuses every later command (R53 (a)). -/
theorem faultingAccessHasNoOtherEffect : Obligations.FaultingAccessHasNoOtherEffect := by
  intro s t i va k v hi he hr
  obtain ⟨cause, hcause, rfl, rfl⟩ := raised_of_fault_response hi he hr
  have hlatch : (raiseFault s cause va k).fault = ⟨cause, va, k⟩ := raiseFault_fault ..
  have haborted : (raiseFault s cause va k).fault.cause ≠ .none := by rwa [hlatch]
  refine ⟨raiseFault_frame .., ?_, ?_, ?_, haborted, fun _ => exec_of_mustRefuse (.inl haborted), fun c rest => ?_⟩
  · rw [hlatch]
  · rw [hlatch]
  · rw [hlatch]
  · exact step_command_of_fault (s := { raiseFault s cause va k with input := .issue (.command c) :: rest }) haborted rfl

/-! ### Accesses that pass the checks -/

/-- R70: while a process is current XLATE accesses. -/
theorem exec_xlate_of_serving {s : State} (h : Serving s) (va : Word) (k : AccessKind) :
    exec (.xlate va k) s = .next (access s va k fun pa => s.respond .ok (addressWord s.cfg pa)) :=
  (exec_xlate s va k).trans (unlessRefused_of_serving h _)

/-- R70, R50: an address that a Word can hold answers as it is. -/
theorem addressWord_of_lt {c : Config} (h : c.wellFormed = true) {pa : Nat} (hpa : pa < 65536) :
    addressWord c pa = BitVec.ofNat 16 pa := by
  unfold addressWord
  rw [wordBits_eq h]
  exact if_pos hpa

/-- Settles O20: XLATE goes on at the address of `translate_of_reaches`; `landing_lt` bounds it. -/
theorem xlateGivesThePhysicalAddress : Obligations.XlateGivesThePhysicalAddress := by
  refine fun s va k hserv hreach => ⟨?_, landing_lt, addressWord_of_lt s.params.wellFormed⟩
  rw [exec_xlate_of_serving hserv, access_of_address (translate_of_reaches hreach)]
  rfl

/-- Settles O21: VREAD goes on at the address of `translate_of_reaches`. -/
theorem vreadReadsTheTranslatedWord : Obligations.VreadReadsTheTranslatedWord := by
  intro s va hserv hreach
  rw [exec_vread, unlessRefused_of_serving hserv, access_of_address (translate_of_reaches hreach)]
  rfl

/-- Settles O22: VWRITE writes memory at the address of `translate_of_reaches`, so the Words after it are those of
`read_write`. -/
theorem vwriteWritesTheTranslatedWord : Obligations.VwriteWritesTheTranslatedWord := by
  intro s va d hserv hreach
  refine ⟨{ s with mem := s.mem.write s.cfg (landing s va) d, response := some ⟨.ok, 0⟩ }, ?_, rfl,
    fun hframe => read_write_self s.mem (landing_lt hframe) d, fun a ha hne => read_write_of_ne s.mem d ha hne⟩
  rw [exec_vwrite, unlessRefused_of_serving hserv, access_of_address (translate_of_reaches hreach)]
  rfl

/-! ### What translation depends on (R77, R78) -/

/-- R77: XLATE answers alike in two states of one configuration that translate the address alike. -/
theorem xlate_congr {s t : State} {va : Word} {k : AccessKind} (hs : Serving s) (ht : Serving t)
    (hcfg : t.cfg = s.cfg) (htrans : translate t va k = translate s va k) :
    ∃ s' t', exec (.xlate va k) s = .next s' ∧ exec (.xlate va k) t = .next t' ∧ t'.response = s'.response := by
  refine ⟨_, _, exec_xlate_of_serving hs va k, exec_xlate_of_serving ht va k, ?_⟩
  cases hcase : translate s va k with
  | address pa =>
    rw [access_of_address hcase, access_of_address (htrans.trans hcase), hcfg]
    rfl
  | violation cause =>
    rw [access_of_violation hcase, access_of_violation (htrans.trans hcase), raiseFault_response, raiseFault_response]

/-- R70: an XLATE that answers OK was accepted, translated, and changed the response alone. -/
theorem translated_of_xlate_ok {s t : State} {va v : Word} {k : AccessKind} (he : exec (.xlate va k) s = .next t)
    (hok : t.response = some ⟨.ok, v⟩) : Serving s ∧ ∃ pa, translate s va k = .address pa ∧
      v = addressWord s.cfg pa ∧ t = s.respond .ok (addressWord s.cfg pa) := by
  rw [exec_xlate] at he
  rcases unlessRefused_spec s true true fun u => access u va k fun pa => u.respond .ok (addressWord u.cfg pa) with
    hrefused | ⟨hrun, -, hproc, haccepted⟩
  · cases hrefused.symm.trans he
    cases hok
  · cases haccepted.symm.trans he
    rcases access_spec s va k fun pa => s.respond .ok (addressWord s.cfg pa) with
      ⟨pa, hpa, hacc⟩ | ⟨cause, -, -, hacc⟩ <;> rw [hacc] at hok
    · cases hok
      exact ⟨⟨hrun, hproc rfl⟩, pa, hpa, rfl, hacc⟩
    · cases (raiseFault_response ..).symm.trans hok

/-- Settles O25: what XLATE answers is decided by the translation (`xlate_congr`), and that by PTBR and the entry
(`translate_congr`); the response, all that an XLATE answering OK changes, is not read. -/
theorem translationDependsOnlyOnItsEntry : Obligations.TranslationDependsOnlyOnItsEntry := by
  refine ⟨fun s₁ s₂ t₁ va k hs₁ hs₂ hparams hptbr hentry he => ?_, fun s t va k v he hok => ?_⟩
  · have hcfg : s₂.cfg = s₁.cfg := congrArg Params.config hparams.symm
    unfold entryFor entryAddr at hentry
    rw [← hptbr, hcfg] at hentry
    have htrans := translate_congr hparams.symm hptbr.symm hentry.symm k
    obtain ⟨s', t', hs', ht', hresp⟩ := xlate_congr hs₁ hs₂ hcfg htrans
    cases hs'.symm.trans he
    exact ⟨t', ht', hresp⟩
  · obtain ⟨hserv, pa, hpa, -, rfl⟩ := translated_of_xlate_ok he hok
    have hagain : translate (s.respond .ok (addressWord s.cfg pa)) va k = .address pa :=
      (translate_congr rfl rfl rfl k).trans hpa
    rw [exec_xlate_of_serving (s := s.respond .ok (addressWord s.cfg pa)) hserv, access_of_address hagain]
    rfl

/-! ### Where translated addresses lie (R72, R26) -/

/-- R34: page number and offset make the virtual address. -/
theorem va_eq_of_split {c : Config} {va va' : Word} (hvpn : vpnOf c va = vpnOf c va')
    (hoff : offsetOf c va = offsetOf c va') : va = va' := by
  apply BitVec.eq_of_toNat_eq
  rw [← Nat.div_add_mod va.toNat c.pageWords, ← Nat.div_add_mod va'.toNat c.pageWords]
  exact congrArg₂ (c.pageWords * · + ·) hvpn hoff

/-- R11, R50: the address of a Word of M, read back from the response. -/
theorem toNat_addressWord {c : Config} (h : c.wellFormed = true) {pa : Nat} (hpa : pa < c.memWords) :
    (addressWord c pa).toNat = pa := by
  rw [addressWord_eq h hpa, BitVec.toNat_ofNat, Nat.mod_eq_of_lt (hpa.trans_le (memWords_le h))]

/-- R72, R26 (b): with the table of a created pid selected, XLATE answers an address in the assignable frame that a valid
entry of that table names. -/
theorem xlate_ok_of_table {s t : State} {p : Nat} {va v : Word} {k : AccessKind} (h : Disciplined s)
    (hp : p < s.procCount) (he : exec (.xlate va k) { s with ptbr := BitVec.ofNat 16 (ptBase s.cfg p) } = .next t)
    (hok : t.response = some ⟨.ok, v⟩) : pteValid (entry s.cfg s.mem p (vpnOf s.cfg va)) = true ∧
      s.cfg.reservedFrames ≤ pteFrame s.cfg (entry s.cfg s.mem p (vpnOf s.cfg va)) ∧
      v.toNat = physAddr s.cfg (pteFrame s.cfg (entry s.cfg s.mem p (vpnOf s.cfg va))) (offsetOf s.cfg va) := by
  have hw := s.params.wellFormed
  obtain ⟨-, pa, hpa, rfl, -⟩ := translated_of_xlate_ok he hok
  obtain ⟨hval, rfl⟩ := address_of_table (s := { s with ptbr := _ }) (toNat_ptBase hw (hp.trans_le h.bounded)) hpa
  obtain ⟨hres, hnum, -⟩ := h.named p hp _ (vpnOf_lt hw va) hval
  exact ⟨hval, hres, toNat_addressWord hw (physAddr_lt hw hnum (offsetOf_lt hw va))⟩

/-- Settles O26: both answers lie in assignable frames (`xlate_ok_of_table`); equal answers have one frame and one offset
(`physAddr_inj`), so by R26 (c) one entry, and with it one pid and one address. -/
theorem translationsNeverMeet : Obligations.TranslationsNeverMeet := by
  intro s t₁ t₂ p q va₁ va₂ k₁ k₂ v₁ v₂ h hp hq hne he₁ he₂ hok₁ hok₂
  have hw := s.params.wellFormed
  obtain ⟨hval₁, hres₁, hv₁⟩ := xlate_ok_of_table h hp he₁ hok₁
  obtain ⟨hval₂, hres₂, hv₂⟩ := xlate_ok_of_table h hq he₂ hok₂
  refine ⟨?_, hv₁ ▸ physAddr_ge hres₁ _, hv₂ ▸ physAddr_ge hres₂ _⟩
  rintro rfl
  obtain ⟨hframe, hoff⟩ := physAddr_inj hw (offsetOf_lt hw va₁) (offsetOf_lt hw va₂) (hv₁.symm.trans hv₂)
  obtain ⟨rfl, hvpn⟩ := h.exclusive p (hp.trans_le h.bounded) q (hq.trans_le h.bounded) _ (vpnOf_lt hw va₁) _
    (vpnOf_lt hw va₂) hval₁ hval₂ hframe
  exact hne (by rw [va_eq_of_split hvpn hoff])

end Sys2Proof.Machine
end

section
/-! PROOFS. What the parts of CREATE leave, Word by Word (43_process_lifecycle.md R81, R82): the free frames in order,
the pages mapped to them so far, and the frames an image is copied to. -/

namespace Sys2Proof.Machine

open Sys2Proof.Safety

/-! ### The free frames in order (R60) -/

/-- R60: the assignable frames that are free, ascending. -/
abbrev freeFrames (c : Config) (m : Memory) : List Nat := (assignableFrames c).filter (isFree c m)

section freeFrames
variable {c : Config} {m : Memory} {f : Nat}

theorem mem_freeFrames : f ∈ freeFrames c m ↔ (c.reservedFrames ≤ f ∧ f < c.numFrames) ∧ isFree c m f = true := by
  rw [List.mem_filter, mem_assignableFrames]

theorem length_freeFrames (c : Config) (m : Memory) : (freeFrames c m).length = freeCount c m :=
  List.countP_eq_length_filter.symm

theorem pairwise_freeFrames (c : Config) (m : Memory) : (freeFrames c m).Pairwise (· < ·) := by
  unfold freeFrames assignableFrames
  exact (List.pairwise_lt_range' ..).filter _

theorem nodup_freeFrames (c : Config) (m : Memory) : (freeFrames c m).Nodup := (nodup_assignableFrames c).filter _

/-- R60: the first of the free frames is the one ALLOC takes. -/
theorem lowestFree_of_freeFrames {fs : List Nat} (hfs : freeFrames c m = f :: fs) : LowestFree c m f := by
  have hmem : f ∈ freeFrames c m := hfs ▸ List.mem_cons_self
  obtain ⟨⟨hres, hnum⟩, hfree⟩ := mem_freeFrames.1 hmem
  refine ⟨hres, hnum, hfree, fun g hg hgf => ?_⟩
  by_contra hc
  have hgmem : g ∈ freeFrames c m := mem_freeFrames.2 ⟨⟨hg, hgf.trans hnum⟩, by simpa using hc⟩
  have hsorted := pairwise_freeFrames c m
  rw [hfs] at hgmem hsorted
  rcases List.mem_cons.1 hgmem with rfl | hgfs
  · exact Nat.lt_irrefl g hgf
  · exact Nat.lt_asymm hgf (List.rel_of_pairwise_cons hsorted hgfs)

theorem noneFree_of_freeFrames (hfs : freeFrames c m = []) : NoneFree c m := fun g hres hnum =>
  Bool.eq_false_iff.2 (List.filter_eq_nil_iff.1 hfs g ((mem_assignableFrames c g).2 ⟨hres, hnum⟩))

/-- A list without repetition, less its first elements. -/
theorem filter_not_mem_take {l : List Nat} (hl : l.Nodup) (k : Nat) :
    l.filter (fun g => !(l.take k).contains g) = l.drop k := by
  have hsplit : l.take k ++ l.drop k = l := List.take_append_drop k l
  have hdisj : List.Disjoint (l.take k) (l.drop k) := List.disjoint_of_nodup_append (hsplit.symm ▸ hl)
  calc l.filter (fun g => !(l.take k).contains g)
      = (l.take k ++ l.drop k).filter (fun g => !(l.take k).contains g) := by rw [hsplit]
    _ = l.drop k := by
      rw [List.filter_append, List.filter_eq_nil_iff.2 (by simp),
        List.filter_eq_self.2 fun g hg => by simpa using fun hc => hdisj hc hg, List.nil_append]

end freeFrames

/-! ### The pages CREATE maps (R81) -/

section pages
variable {c : Config} (h : c.wellFormed = true)
include h

theorem createPage_lt {j : Nat} (hj : j < createPages c) : createPage c j < c.ptEntries := by
  have := wf_rest h
  unfold createPages at hj
  unfold createPage
  split_ifs <;> omega

theorem createPage_inj {i j : Nat} (he : createPage c i = createPage c j) : i = j := by
  have := wf_rest h
  unfold createPage at he
  split_ifs at he <;> omega

end pages

/-- R81: the pages `base` to `base + pages - 1` are those CREATE maps from the `k`-th on, with write permission `w`. -/
structure Segment (c : Config) (k base pages : Nat) (w : Bool) : Prop where
  within : k + pages ≤ createPages c
  fits : base + pages ≤ c.ptEntries
  page : ∀ i, i < pages → createPage c (k + i) = base + i
  write : ∀ i, i < pages → decide (c.codePages ≤ k + i) = w

theorem segment_code {c : Config} (h : c.wellFormed = true) : Segment c 0 c.codeBaseVpn c.codePages false := by
  have := wf_rest h
  refine ⟨by unfold createPages; omega, by omega, fun i hi => ?_, fun i hi => decide_eq_false (by omega)⟩
  unfold createPage
  rw [if_pos (by omega), Nat.zero_add]

theorem segment_heap {c : Config} (h : c.wellFormed = true) :
    Segment c c.codePages c.heapBaseVpn c.heapPages true := by
  have := wf_rest h
  refine ⟨Nat.le_refl _, by omega, fun i _ => ?_, fun i _ => decide_eq_true (by omega)⟩
  unfold createPage
  rw [if_neg (by omega), Nat.add_sub_cancel_left]

section segment
variable {c : Config} {k base n : Nat} {w : Bool}

theorem Segment.head (hs : Segment c k base (n + 1) w) : k < createPages c ∧ createPage c k = base ∧
    decide (c.codePages ≤ k) = w :=
  ⟨Nat.lt_of_lt_of_le (by omega) hs.within, hs.page 0 (by omega), hs.write 0 (by omega)⟩

theorem Segment.tail (hs : Segment c k base (n + 1) w) : Segment c (k + 1) (base + 1) n w := by
  obtain ⟨hwithin, hfits, hpage, hwrite⟩ := hs
  refine ⟨by omega, by omega, fun i hi => ?_, fun i hi => ?_⟩
  · rw [Nat.add_assoc, Nat.add_assoc, Nat.add_comm 1 i]
    exact hpage (i + 1) (by omega)
  · rw [Nat.add_assoc, Nat.add_comm 1 i]
    exact hwrite (i + 1) (by omega)

end segment

/-! ### The first pages mapped to the lowest free frames (R81, R65) -/

/-- R81: what `m'` is when CREATE, started in `m`, has prepared slot `p` and mapped its first `k` pages. It speaks of
the reserved frames alone, so it does not say which images have been copied. -/
structure PagesMapped (c : Config) (m : Memory) (p k : Nat) (m' : Memory) : Prop where
  within : k ≤ createPages c
  /-- there were frames for the pages -/
  enough : k ≤ (freeFrames c m).length
  /-- the frames taken are no longer free -/
  bits : ∀ g, g < 16 * c.bitmapWords → isFree c m' g = (isFree c m g && !((freeFrames c m).take k).contains g)
  /-- the pages are mapped to them in order -/
  entries : ∀ j f, j < k → (freeFrames c m)[j]? = some f →
    entry c m' p (createPage c j) = mkPte c f true (decide (c.codePages ≤ j))
  /-- the other entries are clear -/
  cleared : ∀ v, v < c.ptEntries → (∀ j, j < k → v ≠ createPage c j) → entry c m' p v = 0#16
  /-- nothing else of the reserved frames is written after the slot -/
  others : ∀ a, a < c.reservedFrames * c.pageWords → OffBitmap c a →
    ¬ (ptBase c p ≤ a ∧ a < ptBase c p + c.ptEntries) → m'.read c a = (prepareSlot c m p).read c a

section pagesMapped
variable {c : Config} {m m' m'' : Memory} {p k : Nat} (h : c.wellFormed = true)
include h

/-- R81: preparing a slot leaves every bit of the bitmap. -/
theorem isFree_prepareSlot (h3 : 3 ≤ c.pcbWords) (m : Memory) (hp : p < c.maxProcs) {g : Nat}
    (hg : g < 16 * c.bitmapWords) : isFree c (prepareSlot c m p) g = isFree c m g := by
  have hlt := bmWord_lt h hg
  refine isFree_congr (read_prepareSlot_low h m p (bmWord_lt_ptRegion h hg) fun i hi => ?_)
  have := pcb_offBitmap h hp (i := i) (by omega)
  omega

/-- R81: the start, before any page is mapped. -/
theorem pagesMapped_prepareSlot (h3 : 3 ≤ c.pcbWords) (m : Memory) (hp : p < c.maxProcs) :
    PagesMapped c m p 0 (prepareSlot c m p) where
  within := Nat.zero_le _
  enough := Nat.zero_le _
  bits g hg := by simp [isFree_prepareSlot h h3 m hp hg]
  entries j _ hj _ := absurd hj (Nat.not_lt_zero j)
  cleared v hv _ := entry_prepareSlot_self h m hp hv
  others _ _ _ _ := rfl

/-- The relation is kept where the reserved frames are. -/
theorem PagesMapped.congr (hm : PagesMapped c m p k m') (hp : p < c.maxProcs)
    (hr : ∀ a, a < c.reservedFrames * c.pageWords → m''.read c a = m'.read c a) : PagesMapped c m p k m'' := by
  have hentry {v : Nat} (hv : v < c.ptEntries) : entry c m'' p v = entry c m' p v := hr _ (ptBase_add_lt h hp hv).2
  refine ⟨hm.within, hm.enough, fun g hg => ?_, fun j f hj hf => ?_, fun v hv hne => ?_, fun a ha hb ht => ?_⟩
  · rw [isFree_congr (hr _ ((bmWord_lt_ptRegion h hg).trans_le (ptRegionBase_le_reserved h))), hm.bits g hg]
  · rw [hentry (createPage_lt h (hj.trans_le hm.within)), hm.entries j f hj hf]
  · rw [hentry hv, hm.cleared v hv hne]
  · rw [hr a ha, hm.others a ha hb ht]

/-- The frames still free are those after the ones taken. -/
theorem PagesMapped.freeFrames_eq (hm : PagesMapped c m p k m') : freeFrames c m' = (freeFrames c m).drop k := by
  rw [← filter_not_mem_take (nodup_freeFrames c m) k, List.filter_filter]
  refine List.filter_congr fun g hg => ?_
  rw [hm.bits g (frame_lt_bits h ((mem_assignableFrames c g).1 hg).2), Bool.and_comm]

/-- R65: mapping the next page takes the next free frame. -/
theorem PagesMapped.mapPage_next (hm : PagesMapped c m p k m') (hp : p < c.maxProcs) (hk : k < createPages c)
    (hlt : k < (freeFrames c m).length) {w : Bool} (hw : decide (c.codePages ≤ k) = w) :
    (mapPage c m' (ptBase c p) (createPage c k) true w).status = .ok ∧
      PagesMapped c m p (k + 1) (mapPage c m' (ptBase c p) (createPage c k) true w).mem := by
  obtain ⟨f, hf⟩ : ∃ f, (freeFrames c m)[k]? = some f := ⟨_, List.getElem?_eq_getElem hlt⟩
  have hdrop : (freeFrames c m).drop k = f :: (freeFrames c m).drop (k + 1) := by
    rw [List.drop_eq_getElem_cons hlt, (List.getElem?_eq_some_iff.1 hf).2]
  have htake : (freeFrames c m).take (k + 1) = (freeFrames c m).take k ++ [f] := by
    rw [List.take_add_one, hf, Option.toList_some]
  have hlow := lowestFree_of_freeFrames ((hm.freeFrames_eq h).trans hdrop)
  have ⟨_, hnum, _, _⟩ := hlow
  have hnew {j : Nat} (hj : j < k) : createPage c k ≠ createPage c j := fun he => by
    have := createPage_inj h he
    omega
  have hinv : pteValid (entry c m' p (createPage c k)) = false := by
    rw [hm.cleared _ (createPage_lt h hk) fun j hj => hnew hj, pteValid_zero]
  have hentry {v : Nat} (hv : v < c.ptEntries) := entry_withMapping h m' (p := p) true w (createPage_lt h hk) hnum hp hv
  rw [mapPage_of_lowestFree h hinv hlow true w]
  refine ⟨rfl, hk, hlt, fun g hg => ?_, fun j f' hj hf' => ?_, fun v hv hne => ?_, fun a ha hb ht => ?_⟩
  · rw [bitmap_withMapping h m' p _ f true w hg, hm.bits g hg, htake]
    simp [Bool.and_assoc]
  · rw [hentry (createPage_lt h (by omega))]
    rcases Nat.lt_or_eq_of_le (Nat.le_of_lt_succ hj) with hjk | rfl
    · rw [if_neg fun he => hnew hjk he.2.symm, hm.entries j f' hjk hf']
    · rw [if_pos ⟨rfl, rfl⟩, hw, Option.some.inj (hf.symm.trans hf')]
  · rw [hentry hv, if_neg fun he => hne k (Nat.lt_succ_self k) he.2, hm.cleared v hv fun j hj => hne j (by omega)]
  · have := createPage_lt h hk
    rw [read_withMapping_of_ne m' true w (reserved_lt_memWords h ha) (by omega) (ne_bmWord h hb hnum),
      hm.others a ha hb ht]

/-- R65, R83: with all frames taken the next page is not mapped. -/
theorem PagesMapped.mapPage_none (hm : PagesMapped c m p k m') (hk : k < createPages c)
    (hall : (freeFrames c m).length ≤ k) (w : Bool) :
    mapPage c m' (ptBase c p) (createPage c k) true w = ⟨.outOfFrames, 0, m'⟩ := by
  refine mapPage_of_noneFree ?_ (noneFree_of_freeFrames ?_) true w
  · change pteValid (entry c m' p (createPage c k)) = false
    rw [hm.cleared _ (createPage_lt h hk) fun j hj he => absurd (createPage_inj h he) (by omega), pteValid_zero]
  · rw [hm.freeFrames_eq h, List.drop_eq_nil_of_le hall]

/-- R81: the mapping pass of a segment maps its pages as far as the free frames go. -/
theorem PagesMapped.mapEach {base n : Nat} {w : Bool} (hm : PagesMapped c m p k m') (hp : p < c.maxProcs)
    (hs : Segment c k base n w) :
    (mapEach c (ptBase c p) true w (List.range' base n) m').1 = decide (k + n ≤ (freeFrames c m).length) ∧
      PagesMapped c m p (min (k + n) (freeFrames c m).length)
        (mapEach c (ptBase c p) true w (List.range' base n) m').2 := by
  induction n generalizing k base m' with
  | zero =>
    have hle := hm.enough
    refine ⟨(decide_eq_true hle).symm, ?_⟩
    rw [Nat.add_zero, Nat.min_eq_left hle]
    exact hm
  | succ n ih =>
    obtain ⟨hk, rfl, hw⟩ := hs.head
    rw [List.range'_succ, mapEach_cons]
    rcases Nat.lt_or_ge k (freeFrames c m).length with hlt | hall
    · obtain ⟨hok, hm'⟩ := hm.mapPage_next h hp hk hlt hw
      rw [if_pos hok, show k + (n + 1) = k + 1 + n by omega]
      exact ih hm' hs.tail
    · have hle := hm.enough
      rw [hm.mapPage_none h hk hall w, if_neg nofun, Nat.min_eq_right (by omega)]
      exact ⟨(decide_eq_false (by omega)).symm, Nat.le_antisymm hle hall ▸ hm⟩

end pagesMapped

/-! ### The image of a segment (R82) -/

/-- R81, R82: of the frames still free, those an image is copied to: one for each page of its segment, and none if there
is not one for each. -/
def loadedFrames (pages : Nat) (free : List Nat) : List Nat := if pages ≤ free.length then free.take pages else []

/-- R82: in the assignable frames `m'` is `m` with the image in the frames `fs`, one page after another. -/
structure ImageLoaded (c : Config) (m : Memory) (fs : List Nat) (img : List Word) (m' : Memory) : Prop where
  /-- an image Word stands at its offset; where the image has ended the old Word does -/
  loaded : ∀ i f, fs[i / c.pageWords]? = some f → m'.read c (physAddr c f (i % c.pageWords)) =
    img.getD i (m.read c (physAddr c f (i % c.pageWords)))
  /-- no other frame is written -/
  kept : ∀ a, a < c.memWords → c.reservedFrames * c.pageWords ≤ a → a / c.pageWords ∉ fs → m'.read c a = m.read c a

/-- R82: the pages of the table of pid `p` from `base` on lie in the frames `fs`, all assignable and no two the same. -/
structure SegmentFrames (c : Config) (m : Memory) (p base : Nat) (fs : List Nat) : Prop where
  frames : ∀ i f, fs[i]? = some f → pteFrame c (entry c m p (base + i)) = f
  assignable : fs ⊆ assignableFrames c
  nodup : fs.Nodup

section image
variable {c : Config} {m m' m'' : Memory} {p k base pages : Nat} {w : Bool} {fs : List Nat}

theorem subset_loadedFrames (pages : Nat) (free : List Nat) : loadedFrames pages free ⊆ free := by
  unfold loadedFrames
  split_ifs
  · exact List.take_subset ..
  · exact List.nil_subset _

theorem imageLoaded_of_framesKept (hk : FramesKept c m m') (img : List Word) : ImageLoaded c m [] img m' :=
  ⟨fun _ _ hf => by simp at hf, fun a ha hr _ => hk a ha hr⟩

variable (h : c.wellFormed = true)
include h

/-- R35: a Word of an assignable frame. -/
theorem physAddr_assignable {f : Nat} (hf : f ∈ assignableFrames c) (i : Nat) :
    physAddr c f (i % c.pageWords) < c.memWords ∧
      c.reservedFrames * c.pageWords ≤ physAddr c f (i % c.pageWords) := by
  obtain ⟨hres, hnum⟩ := (mem_assignableFrames c f).1 hf
  exact ⟨physAddr_lt h hnum (Nat.mod_lt i (pageWords_pos h)), physAddr_ge hres _⟩

theorem ImageLoaded.of_framesKept_left {img : List Word} (hl : ImageLoaded c m' fs img m'') (hk : FramesKept c m m')
    (hfs : fs ⊆ assignableFrames c) : ImageLoaded c m fs img m'' := by
  refine ⟨fun i f hf => ?_, fun a ha hr hn => (hl.kept a ha hr hn).trans (hk a ha hr)⟩
  obtain ⟨hlt, hge⟩ := physAddr_assignable h (hfs (List.mem_of_getElem? hf)) i
  rw [hl.loaded i f hf, hk _ hlt hge]

/-- R35: the frame of an address in a frame. -/
theorem physAddr_div {f o : Nat} (ho : o < c.pageWords) : physAddr c f o / c.pageWords = f := by
  unfold physAddr
  rw [Nat.mul_comm, Nat.mul_add_div (pageWords_pos h), Nat.div_eq_of_lt ho, Nat.add_zero]

omit h in
/-- R82: page `i` of a segment lies in the `i`-th of the frames. -/
theorem SegmentFrames.eq_getElem (hs : SegmentFrames c m p base fs) {i : Nat} (hi : i < fs.length) :
    pteFrame c (entry c m p (base + i)) = fs[i] := hs.frames i _ (List.getElem?_eq_getElem hi)

/-- R82: what the copy of an image relies on. -/
theorem SegmentFrames.segmentMapped (hs : SegmentFrames c m p base fs) (hp : p < c.maxProcs)
    (hb : base + fs.length ≤ c.ptEntries) {len : Nat} (hlen : len ≤ fs.length * c.pageWords) :
    SegmentMapped c m (ptBase c p) base (fun i => pteFrame c (entry c m p (base + i))) 0 len := fun i hi => by
  have hpage : i / c.pageWords < fs.length := (Nat.div_lt_iff_lt_mul (pageWords_pos h)).2 (hi.trans_le hlen)
  simp only [Nat.zero_add, Nat.add_assoc (ptBase c p)]
  refine ⟨(ptBase_add_lt h hp (by omega)).2, rfl, ?_⟩
  rw [hs.eq_getElem hpage]
  exact (mem_assignableFrames c _).1 (hs.assignable (List.getElem_mem hpage))

/-- R82: an image copied to pages whose entries name different assignable frames. -/
theorem SegmentFrames.imageLoaded (hs : SegmentFrames c m p base fs) (hp : p < c.maxProcs)
    (hb : base + fs.length ≤ c.ptEntries) (img : List Word) :
    ImageLoaded c m fs img (loadImage c m (ptBase c p) base fs.length img) := by
  have hpos := pageWords_pos h
  have hlen : (img.take (fs.length * c.pageWords)).length ≤ fs.length * c.pageWords := List.length_take_le _ img
  have hmapped := hs.segmentMapped h hp hb hlen
  have hpage {i : Nat} (hi : i < (img.take (fs.length * c.pageWords)).length) : i / c.pageWords < fs.length :=
    (Nat.div_lt_iff_lt_mul hpos).2 (hi.trans_le hlen)
  have hinj {i j : Nat} (hi : i / c.pageWords < fs.length) (hj : j / c.pageWords < fs.length)
      (he : pteFrame c (entry c m p (base + i / c.pageWords)) = pteFrame c (entry c m p (base + j / c.pageWords))) :
      i / c.pageWords = j / c.pageWords := by
    rw [hs.eq_getElem hi, hs.eq_getElem hj] at he
    exact (hs.nodup.getElem_inj_iff).1 he
  refine ⟨fun i f hf => ?_, fun a ha _ hn => ?_⟩
  · obtain ⟨hi, rfl⟩ := List.getElem?_eq_some_iff.1 hf
    have hlt := (physAddr_assignable h (hs.assignable (List.getElem_mem hi)) i).1
    rw [← hs.eq_getElem hi]
    by_cases himg : i < img.length
    · have himg' : i < (img.take (fs.length * c.pageWords)).length := by
        rw [List.length_take]
        exact Nat.lt_min.2 ⟨(Nat.div_lt_iff_lt_mul hpos).1 hi, himg⟩
      have hread := read_copyImage_at h _ 0 hmapped
        (fun a b _ ha _ hb => hinj (hpage (by omega)) (hpage (by omega))) i himg'
      rw [Nat.zero_add, List.getElem_take] at hread
      rw [List.getD_eq_getElem _ _ himg]
      exact hread
    · rw [List.getD_eq_default _ _ (by omega)]
      refine read_copyImage_of_ne h _ 0 hmapped ?_ fun j hj hc => ?_
      · rwa [hs.eq_getElem hi]
      · rw [Nat.zero_add] at hc
        obtain ⟨hframe, hoff⟩ := physAddr_inj h (Nat.mod_lt _ hpos) (Nat.mod_lt _ hpos) hc
        have hij : i = j := by
          rw [← Nat.div_add_mod i c.pageWords, hinj hi (hpage hj) hframe, hoff, Nat.div_add_mod]
        have := List.length_take_le' (fs.length * c.pageWords) img
        omega
  · refine read_copyImage_of_ne h _ 0 hmapped ha fun j hj hc => hn ?_
    rw [Nat.zero_add] at hc
    rw [hc, imageAddr, physAddr_div h (Nat.mod_lt _ hpos), hs.eq_getElem (hpage hj)]
    exact List.getElem_mem _

end image

/-! ### A segment built (R81) -/

section build
variable {c : Config} {m m' : Memory} {p k base pages : Nat} {w : Bool} (h : c.wellFormed = true)
include h

/-- R81: the frames of a segment that has been mapped as a whole. -/
theorem PagesMapped.segmentFrames (hm : PagesMapped c m p (k + pages) m') (hs : Segment c k base pages w) :
    SegmentFrames c m' p base (((freeFrames c m).drop k).take pages) := by
  refine ⟨fun i f hf => ?_, fun f hf => ?_, ?_⟩
  · rw [List.getElem?_take, Option.ite_none_right_eq_some, List.getElem?_drop] at hf
    obtain ⟨hi, hf⟩ := hf
    obtain ⟨⟨-, hnum⟩, -⟩ := mem_freeFrames.1 (List.mem_of_getElem? hf)
    rw [← hs.page i hi, hm.entries (k + i) f (Nat.add_lt_add_left hi k) hf, pteFrame_mkPte h hnum]
  · exact List.mem_of_mem_filter (List.mem_of_mem_drop (List.mem_of_mem_take hf))
  · exact ((nodup_freeFrames c m).sublist (List.drop_sublist ..)).sublist (List.take_sublist ..)

/-- A mapping pass on the table of a slot writes no assignable frame. -/
theorem framesKept_mapEach (m : Memory) (hp : p < c.maxProcs) (hb : base + pages ≤ c.ptEntries) (r w : Bool) :
    FramesKept c m (mapEach c (ptBase c p) r w (List.range' base pages) m).2 := fun a ha hr => by
  refine read_mapEach h r w ha (offBitmap_of_assignable h hr) _ (fun v hv => ?_) m
  have := List.mem_range'_1.1 hv
  have := ptBase_add_lt h hp (v := v) (by omega)
  omega

omit h in
/-- R81: a segment is built when all its pages have been mapped. -/
theorem buildSegment_fst (c : Config) (m : Memory) (tb base pages : Nat) (r w : Bool) (img : List Word) :
    (buildSegment c m tb base pages r w img).1 = (mapEach c tb r w (List.range' base pages) m).1 := by
  unfold buildSegment
  simp only
  split_ifs with hok
  · exact hok.symm
  · exact (Bool.eq_false_iff.2 hok).symm

/-- R81: building a segment maps its pages as far as the free frames go. -/
theorem PagesMapped.buildSegment (hm : PagesMapped c m p k m') (hp : p < c.maxProcs) (hs : Segment c k base pages w)
    (img : List Word) :
    (buildSegment c m' (ptBase c p) base pages true w img).1 = decide (k + pages ≤ (freeFrames c m).length) ∧
      PagesMapped c m p (min (k + pages) (freeFrames c m).length)
        (buildSegment c m' (ptBase c p) base pages true w img).2 := by
  obtain ⟨hok, hm'⟩ := hm.mapEach h hp hs
  exact ⟨(buildSegment_fst ..).trans hok,
    hm'.congr h hp fun a ha => read_buildSegment h hp hs.fits true w img m' ha⟩

/-- R81, R82: building a segment copies its image if all its pages were mapped, and else nothing. -/
theorem PagesMapped.imageLoaded (hm : PagesMapped c m p k m') (hp : p < c.maxProcs) (hs : Segment c k base pages w)
    (img : List Word) : ImageLoaded c m' (loadedFrames pages ((freeFrames c m).drop k)) img
      (Machine.buildSegment c m' (ptBase c p) base pages true w img).2 := by
  obtain ⟨hok, hm'⟩ := hm.mapEach h hp hs
  have hkept := framesKept_mapEach h m' hp hs.fits true w
  have hle := hm.enough
  unfold loadedFrames Machine.buildSegment
  simp only [hok, decide_eq_true_eq, List.length_drop]
  split_ifs with hsub hall hall
  · rw [Nat.min_eq_left hall] at hm'
    have hfs := hm'.segmentFrames h hs
    have hlen : (((freeFrames c m).drop k).take pages).length = pages := by
      rw [List.length_take, List.length_drop, Nat.min_eq_left hsub]
    have hload := hfs.imageLoaded h hp (hlen.symm ▸ hs.fits) img
    rw [hlen] at hload
    exact hload.of_framesKept_left h hkept hfs.assignable
  · omega
  · omega
  · exact imageLoaded_of_framesKept hkept img

end build

end Sys2Proof.Machine
end

section
/-! PROOFS. CREATE and LOAD (43_process_lifecycle.md R81 to R88): what CREATE has laid when it commits or unwinds, what
unwinding leaves, and the outcomes of the two commands. -/

namespace Sys2Proof.Machine

open Sys2Proof.Safety

/-! ### What is laid before CREATE commits or unwinds (R81, R82) -/

/-- R81, R82: the frames the code image is copied to. -/
def codeFrames (c : Config) (m : Memory) : List Nat := loadedFrames c.codePages (freeFrames c m)

/-- R81, R82: the frames the heap image is copied to. -/
def heapFrames (c : Config) (m : Memory) : List Nat := loadedFrames c.heapPages ((freeFrames c m).drop c.codePages)

/-- R81, R82: what `m'` is when CREATE, started in `m`, has mapped its pages as far as the free frames go and copied the
image of each segment that was mapped as a whole. -/
structure Laid (c : Config) (m : Memory) (code heap : List Word) (m' : Memory) : Prop where
  pages : PagesMapped c m (procCount c m) (min (createPages c) (freeFrames c m).length) m'
  code : ∀ i f, (codeFrames c m)[i / c.pageWords]? = some f → m'.read c (physAddr c f (i % c.pageWords)) =
    code.getD i (m.read c (physAddr c f (i % c.pageWords)))
  heap : ∀ i f, (heapFrames c m)[i / c.pageWords]? = some f → m'.read c (physAddr c f (i % c.pageWords)) =
    heap.getD i (m.read c (physAddr c f (i % c.pageWords)))
  kept : ∀ a, a < c.memWords → c.reservedFrames * c.pageWords ≤ a → a / c.pageWords ∉ codeFrames c m →
    a / c.pageWords ∉ heapFrames c m → m'.read c a = m.read c a

section frames
variable {c : Config} {m : Memory} {f j : Nat}

theorem mem_freeFrames_of_codeFrames (hmem : f ∈ codeFrames c m) : f ∈ freeFrames c m := subset_loadedFrames _ _ hmem

theorem mem_freeFrames_of_heapFrames (hmem : f ∈ heapFrames c m) : f ∈ freeFrames c m :=
  List.mem_of_mem_drop (subset_loadedFrames _ _ hmem)

/-- R81: the frames of the code pages, if there are enough. -/
theorem getElem?_codeFrames (hle : c.codePages ≤ (freeFrames c m).length) (hj : j < c.codePages) :
    (codeFrames c m)[j]? = (freeFrames c m)[j]? := by
  unfold codeFrames loadedFrames
  rw [if_pos hle, List.getElem?_take_of_lt hj]

/-- R81: the frames of the heap pages, if there are enough. -/
theorem getElem?_heapFrames (hle : createPages c ≤ (freeFrames c m).length) (hj : j < c.heapPages) :
    (heapFrames c m)[j]? = (freeFrames c m)[c.codePages + j]? := by
  unfold createPages at hle
  unfold heapFrames loadedFrames
  rw [if_pos (by rw [List.length_drop]; omega), List.getElem?_take_of_lt hj, List.getElem?_drop]

theorem codeFrames_eq_nil (hlt : (freeFrames c m).length < c.codePages) : codeFrames c m = [] := by
  unfold codeFrames loadedFrames
  rw [if_neg (by omega)]

theorem heapFrames_eq_nil (hlt : (freeFrames c m).length < createPages c) : heapFrames c m = [] := by
  unfold createPages at hlt
  unfold heapFrames loadedFrames
  split_ifs with hle
  · rw [List.length_drop] at hle
    rw [show c.heapPages = 0 by omega, List.take_zero]
  · rfl

/-- R81: a free frame past the first ones is for no code page. -/
theorem notMem_codeFrames (hj : c.codePages ≤ j) (hf : (freeFrames c m)[j]? = some f) : f ∉ codeFrames c m := by
  intro hmem
  unfold codeFrames loadedFrames at hmem
  split_ifs at hmem
  · obtain ⟨i, hi⟩ := List.mem_iff_getElem?.1 hmem
    rw [List.getElem?_take, Option.ite_none_right_eq_some] at hi
    obtain ⟨hlt, hi⟩ := hi
    have hij := (List.getElem?_inj (List.getElem?_eq_some_iff.1 hi).1 (nodup_freeFrames c m)).1 (hi.trans hf.symm)
    omega
  · cases hmem

/-- R81: together they are the lowest free frames. -/
theorem codeFrames_append_heapFrames (hle : createPages c ≤ (freeFrames c m).length) :
    codeFrames c m ++ heapFrames c m = (freeFrames c m).take (createPages c) := by
  unfold createPages at hle ⊢
  unfold codeFrames heapFrames loadedFrames
  rw [if_pos (by omega), if_pos (by rw [List.length_drop]; omega), List.take_add]

/-- R81: no frame is for code and for heap. -/
theorem disjoint_codeFrames_heapFrames (c : Config) (m : Memory) : List.Disjoint (codeFrames c m) (heapFrames c m) := by
  have hsplit : (freeFrames c m).take c.codePages ++ (freeFrames c m).drop c.codePages = freeFrames c m :=
    List.take_append_drop ..
  have hdisj := List.disjoint_of_nodup_append (hsplit.symm ▸ nodup_freeFrames c m)
  intro f hcode hheap
  unfold codeFrames loadedFrames at hcode
  split_ifs at hcode
  · exact hdisj hcode (subset_loadedFrames _ _ hheap)
  · cases hcode

end frames

section laid
variable {c : Config} {m m' m₁ : Memory} {code heap : List Word} (h : c.wellFormed = true)
include h

/-- Preparing a slot writes no assignable frame. -/
theorem framesKept_prepareSlot (h3 : 3 ≤ c.pcbWords) (m : Memory) {p : Nat} (hp : p < c.maxProcs) :
    FramesKept c m (prepareSlot c m p) := fun a ha hr => by
  refine read_prepareSlot_of_ne m ha (fun i hi => ?_) fun ht => ?_
  · have := pcb_add_lt_reserved h hp (i := i) (by omega)
    omega
  · have := ptBase_add_lt h hp (v := a - ptBase c p) (by omega)
    omega

/-- R82: the two images, copied one after the other to different frames. -/
theorem laid_of_imageLoaded
    (hpages : PagesMapped c m (procCount c m) (min (createPages c) (freeFrames c m).length) m')
    (hcode : ImageLoaded c m (codeFrames c m) code m₁) (hheap : ImageLoaded c m₁ (heapFrames c m) heap m') :
    Laid c m code heap m' := by
  have hdisj := disjoint_codeFrames_heapFrames c m
  have hdiv {f : Nat} (i : Nat) : physAddr c f (i % c.pageWords) / c.pageWords = f :=
    physAddr_div h (Nat.mod_lt i (pageWords_pos h))
  refine ⟨hpages, fun i f hf => ?_, fun i f hf => ?_, fun a ha hr hnc hnh => ?_⟩
  · have hmem := List.mem_of_getElem? hf
    obtain ⟨hlt, hge⟩ := physAddr_assignable h (List.mem_of_mem_filter (mem_freeFrames_of_codeFrames hmem)) i
    rw [hheap.kept _ hlt hge fun hc => hdisj hmem (hdiv (f := f) i ▸ hc), hcode.loaded i f hf]
  · have hmem := List.mem_of_getElem? hf
    obtain ⟨hlt, hge⟩ := physAddr_assignable h (List.mem_of_mem_filter (mem_freeFrames_of_heapFrames hmem)) i
    rw [hheap.loaded i f hf, hcode.kept _ hlt hge fun hc => hdisj (hdiv (f := f) i ▸ hc) hmem]
  · rw [hheap.kept a ha hr hnh, hcode.kept a ha hr hnc]

/-- R81, R83: everything CREATE can do when there is a slot: with as many free frames as pages it counts the process it
has laid, with fewer it unmaps the table. -/
theorem createProcess_laid (h3 : 3 ≤ c.pcbWords) (m : Memory) (code heap : List Word)
    (hroom : procCount c m < c.maxProcs) :
    ∃ m', Laid c m code heap m' ∧ createProcess c m code heap = if createPages c ≤ (freeFrames c m).length then
      ⟨.ok, BitVec.ofNat 16 (procCount c m), m'.write c c.procCountAddr (BitVec.ofNat 16 (procCount c m + 1))⟩
      else ⟨.outOfFrames, 0, unmapAll c m' (ptBase c (procCount c m))⟩ := by
  have hstart := pagesMapped_prepareSlot h h3 m hroom
  have hsub : codeFrames c m ⊆ assignableFrames c := fun f hf =>
    List.mem_of_mem_filter (mem_freeFrames_of_codeFrames hf)
  obtain ⟨hok, hm⟩ := hstart.buildSegment h hroom (segment_code h) code
  have hcode := (hstart.imageLoaded h hroom (segment_code h) code).of_framesKept_left h
    (framesKept_prepareSlot h h3 m hroom) hsub
  rw [Nat.zero_add] at hok hm
  by_cases hc : c.codePages ≤ (freeFrames c m).length
  · rw [Nat.min_eq_left hc] at hm
    obtain ⟨hok', hm'⟩ := hm.buildSegment h hroom (segment_heap h) heap
    refine ⟨_, laid_of_imageLoaded h hm' hcode (hm.imageLoaded h hroom (segment_heap h) heap), ?_⟩
    simp only [createProcess, hok, hok', hc, decide_true, if_true, decide_eq_true_eq]
    rfl
  · have hshort : (freeFrames c m).length < createPages c := by unfold createPages; omega
    rw [Nat.min_eq_right (by omega), ← Nat.min_eq_right hshort.le] at hm
    refine ⟨_, laid_of_imageLoaded h hm hcode ?_, ?_⟩
    · rw [heapFrames_eq_nil hshort]
      exact imageLoaded_of_framesKept (.refl c _) heap
    · simp only [createProcess, hok, hc, decide_false, Bool.false_eq_true, if_false, Nat.not_le.2 hshort]

/-! ### The slot, the count and the other Words -/

/-- R81: the low Words of a process being laid are those of its prepared slot. -/
theorem PagesMapped.lowKept {p k : Nat} (hm : PagesMapped c m p k m') : LowKept c (prepareSlot c m p) m' :=
  fun a ha hb => hm.others a (ha.trans_le (ptRegionBase_le_reserved h)) hb (by have := ptBase_ge c p; omega)

omit h in
/-- R81: a Word that is none of the bitmap, the slot, the table and the frames of the images. -/
theorem Laid.read_of_ne (hl : Laid c m code heap m') {a : Nat} (ha : a < c.memWords) (hb : OffBitmap c a)
    (hslot : ¬ (pcb c (procCount c m) ≤ a ∧ a < pcb c (procCount c m) + 3))
    (htable : ¬ (ptBase c (procCount c m) ≤ a ∧ a < ptBase c (procCount c m) + c.ptEntries))
    (hcode : c.reservedFrames * c.pageWords ≤ a → a / c.pageWords ∉ codeFrames c m)
    (hheap : c.reservedFrames * c.pageWords ≤ a → a / c.pageWords ∉ heapFrames c m) :
    m'.read c a = m.read c a := by
  rcases Nat.lt_or_ge a (c.reservedFrames * c.pageWords) with hlt | hr
  · rw [hl.pages.others a hlt hb htable, read_prepareSlot_of_ne m ha (fun i hi => by omega) htable]
  · exact hl.kept a ha hr (hcode hr) (hheap hr)

/-- R81: the program counter a prepared slot has. -/
theorem prepareSlot_pc (h3 : 3 ≤ c.pcbWords) (m : Memory) {p : Nat} (hp : p < c.maxProcs) :
    (prepareSlot c m p).read c (pcb c p + 1) = BitVec.ofNat 16 c.initialPc := by
  have hlt := pcb_add_lt h hp (i := 1) (by omega)
  have hmem := low_lt_memWords h hlt.2.2
  have := ptBase_ge c p
  unfold prepareSlot fillSlot
  rw [read_clearTable _ _ hmem, if_neg (by omega), read_write_of_ne _ _ hmem (by omega), read_write_self _ hmem]

/-- R81, R21: the three Words of a slot, wherever they are as CREATE prepared them. -/
theorem slot_of_prepareSlot (h3 : 3 ≤ c.pcbWords) {p : Nat} (hp : p < c.maxProcs)
    (hread : ∀ i, i < c.pcbWords → m'.read c (pcb c p + i) = (prepareSlot c m p).read c (pcb c p + i)) :
    m'.read c (pcb c p) = BitVec.ofNat 16 p ∧ m'.read c (pcb c p + 1) = BitVec.ofNat 16 c.initialPc ∧
      m'.read c (pcb c p + 2) = BitVec.ofNat 16 (ptBase c p) :=
  ⟨(hread 0 (by omega)).trans (prepareSlot_id h h3 m hp), (hread 1 (by omega)).trans (prepareSlot_pc h h3 m hp),
    (hread 2 (by omega)).trans (prepareSlot_base h h3 m hp)⟩

/-- R17: the count is no Word of the bitmap. -/
theorem isFree_write_procCount (m : Memory) (w : Word) {g : Nat} (hg : g < 16 * c.bitmapWords) :
    isFree c (m.write c c.procCountAddr w) g = isFree c m g := by
  have := bmWord_lt h hg
  have := procCountAddr_offBitmap h
  exact isFree_write h m w hg (by omega)

/-- R17: the count is no entry. -/
theorem entry_write_procCount (m : Memory) (w : Word) {p v : Nat} (hp : p < c.maxProcs) (hv : v < c.ptEntries) :
    entry c (m.write c c.procCountAddr w) p v = entry c m p v := by
  have := ptBase_ge c p
  have := procCountAddr_lt_ptRegion h
  exact read_write_of_ne m w (ptBase_add_lt_memWords h hp hv) (by omega)

/-- R63: each page mapped takes one from the count of free frames. -/
theorem PagesMapped.freeCount_add {p k : Nat} (hm : PagesMapped c m p k m') :
    freeCount c m' + k = (freeFrames c m).length := by
  have := hm.enough
  rw [← length_freeFrames, hm.freeFrames_eq h, List.length_drop]
  omega

/-! ### Unwinding (R83) -/

/-- R83, R66: what unwinding leaves of an entry. -/
theorem entry_unmapAll (m : Memory) {p v : Nat} (hp : p < c.maxProcs) (hv : v < c.ptEntries) :
    entry c (unmapAll c m (ptBase c p)) p v =
      if pteValid (entry c m p v) = true then entry c m p v &&& 0xFFFE#16 else entry c m p v := by
  unfold entry
  rw [read_unmapAll h m _ (ptBase_add_lt_memWords h hp hv) (offBitmap_of_ge h (ptBase_add_lt h hp hv).1)]
  simp [hv]

omit h in
/-- R66: clearing bit 0 of an entry that has it takes 1 from its number. -/
theorem toNat_clear_of_valid {e : Word} (hval : pteValid e = true) : (e &&& 0xFFFE#16).toNat + 1 = e.toNat := by
  have hodd : e.toNat % 2 = 1 := by
    simpa [pteValid, BitVec.getLsbD] using hval
  have hhigh : (e.toNat &&& 65534) / 2 = e.toNat / 2 := by
    rw [Nat.and_div_two]
    exact Nat.and_two_pow_sub_one_of_lt_two_pow (n := 15) (by have := e.isLt; omega)
  have hlow : (e.toNat &&& 65534) % 2 ≠ 1 := by
    rw [ne_eq, Nat.and_mod_two_eq_one]
    simp
  rw [BitVec.toNat_and]
  change (e.toNat &&& 65534) + 1 = e.toNat
  omega

/-- R83 (b): a stale entry keeps its frame and its permissions. -/
theorem toNat_mkPte_clear {f : Nat} (hf : f < c.numFrames) (j : Nat) :
    (mkPte c f true (decide (c.codePages ≤ j)) &&& 0xFFFE#16).toNat =
      f * 2 ^ (16 - c.frameBits) + if j < c.codePages then 2 else 6 := by
  have hclear := toNat_clear_of_valid (pteValid_mkPte h hf true (decide (c.codePages ≤ j)))
  rw [mkPte_toNat h hf, Bool.toNat_true] at hclear
  split_ifs with hj
  · rw [decide_eq_false (Nat.not_le.2 hj), Bool.toNat_false] at hclear
    rw [decide_eq_false (Nat.not_le.2 hj)]
    omega
  · rw [decide_eq_true (Nat.not_lt.1 hj), Bool.toNat_true] at hclear
    rw [decide_eq_true (Nat.not_lt.1 hj)]
    omega

/-- R81: the valid entries of a process being laid, and the frames they name. -/
theorem PagesMapped.valid_iff {p k v g : Nat} (hm : PagesMapped c m p k m') (hv : v < c.ptEntries) :
    (pteValid (entry c m' p v) = true ∧ pteFrame c (entry c m' p v) = g) ↔
      ∃ j, j < k ∧ v = createPage c j ∧ (freeFrames c m)[j]? = some g := by
  constructor
  · rintro ⟨hval, rfl⟩
    by_cases hpage : ∃ j, j < k ∧ v = createPage c j
    · obtain ⟨j, hj, rfl⟩ := hpage
      have hf := List.getElem?_eq_getElem (hj.trans_le hm.enough)
      have hnum := (mem_freeFrames.1 (List.mem_of_getElem? hf)).1.2
      rw [hm.entries j _ hj hf, pteFrame_mkPte h hnum]
      exact ⟨j, hj, rfl, hf⟩
    · push Not at hpage
      rw [hm.cleared v hv hpage, pteValid_zero] at hval
      cases hval
  · rintro ⟨j, hj, rfl, hf⟩
    have hnum := (mem_freeFrames.1 (List.mem_of_getElem? hf)).1.2
    rw [hm.entries j g hj hf]
    exact ⟨pteValid_mkPte h hnum true _, pteFrame_mkPte h hnum true _⟩

/-- R83: unwinding gives back exactly the frames taken. -/
theorem PagesMapped.isFree_unmapAll {p k : Nat} (hm : PagesMapped c m p k m') (hp : p < c.maxProcs) {g : Nat}
    (hg : g < 16 * c.bitmapWords) : isFree c (unmapAll c m' (ptBase c p)) g = isFree c m g := by
  have hpos := ptEntries_pos h
  have htable := ptBase_add_lt_memWords h hp (v := c.ptEntries - 1) (by omega)
  have hlayout := wf_layout h
  have := ptBase_ge c p
  rw [Bool.eq_iff_iff, Machine.isFree_unmapAll h m' (by omega) (by omega) hg, hm.bits g hg]
  constructor
  · rintro (hfree | ⟨v, hv, hval, hframe, -⟩)
    · exact (Bool.and_eq_true_iff.1 hfree).1
    · obtain ⟨j, -, -, hf⟩ := (hm.valid_iff h hv).1 ⟨hval, hframe⟩
      exact (mem_freeFrames.1 (List.mem_of_getElem? hf)).2
  · intro hfree
    by_cases hmem : g ∈ (freeFrames c m).take k
    · obtain ⟨j, hj⟩ := List.mem_iff_getElem?.1 hmem
      rw [List.getElem?_take, Option.ite_none_right_eq_some] at hj
      obtain ⟨hjk, hf⟩ := hj
      have hv := createPage_lt h (hjk.trans_le hm.within)
      obtain ⟨hval, hframe⟩ := (hm.valid_iff h hv).2 ⟨j, hjk, rfl, hf⟩
      exact .inr ⟨_, hv, hval, hframe, (mem_freeFrames.1 (List.mem_of_getElem? hf)).1.2⟩
    · exact .inl (by simp [hfree, hmem])

/-- R18: the Words of the bitmap are their bits. -/
theorem read_bitmap_of_bits (hbits : ∀ g, g < 16 * c.bitmapWords → isFree c m' g = isFree c m g) {a : Nat}
    (ha : ¬ OffBitmap c a) : m'.read c a = m.read c a := by
  refine BitVec.eq_of_getLsbD_eq fun i hi => ?_
  have hbit := hbits (16 * (a - c.bitmapAddr) + (15 - i)) (by omega)
  unfold isFree bmWord bmBit at hbit
  rw [wordBits_eq h] at hbit
  rwa [show c.bitmapAddr + (16 * (a - c.bitmapAddr) + (15 - i)) / 16 = a by omega,
    show 16 - 1 - (16 * (a - c.bitmapAddr) + (15 - i)) % 16 = i by omega] at hbit

end laid

/-! ### What the two commands lead to -/

section commands
variable {s : State} {code heap : List Word}

/-- R53, R81: while the run goes on and a slot is left, CREATE answers what `createProcess` does. -/
theorem exec_create_of_room (hrun : s.runEnable = true) (hroom : s.procCount < s.cfg.maxProcs) (code heap : List Word) :
    exec (.create code heap) s = .next (s.finish (createProcess s.cfg s.mem code heap)) := by
  rw [exec_create, unlessRefused_of_accepted hrun (p := false) nofun, if_neg (by omega)]

theorem exec_create_of_full (hrun : s.runEnable = true) (hfull : s.cfg.maxProcs ≤ s.procCount) (code heap : List Word) :
    exec (.create code heap) s =
      .next ((s.diag .pcbTableFull (BitVec.ofNat 16 s.procCount) s.curPid).respond .pcbTableFull 0) := by
  rw [exec_create, unlessRefused_of_accepted hrun (p := false) nofun, if_pos hfull]

/-- R81: the memory a CREATE with enough free frames leaves, and its answer. -/
theorem createProcess_of_enough (hf : s.cfg.fits = true) (hroom : s.procCount < s.cfg.maxProcs)
    (henough : createPages s.cfg ≤ (freeFrames s.cfg s.mem).length) (code heap : List Word) :
    ∃ m', PagesMapped s.cfg s.mem s.procCount (createPages s.cfg) m' ∧ Laid s.cfg s.mem code heap m' ∧
      createProcess s.cfg s.mem code heap = ⟨.ok, BitVec.ofNat 16 s.procCount,
        m'.write s.cfg s.cfg.procCountAddr (BitVec.ofNat 16 (s.procCount + 1))⟩ := by
  have h : s.cfg.wellFormed = true := s.params.wellFormed
  obtain ⟨m', hl, he⟩ := createProcess_laid h (three_le_pcbWords h hf) s.mem code heap hroom
  rw [if_pos henough] at he
  exact ⟨m', Nat.min_eq_left henough ▸ hl.pages, hl, he⟩

/-- R83: the memory a CREATE with too few free frames leaves, and its answer. -/
theorem createProcess_of_short (hf : s.cfg.fits = true) (hroom : s.procCount < s.cfg.maxProcs)
    (hshort : (freeFrames s.cfg s.mem).length < createPages s.cfg) (code heap : List Word) :
    ∃ m', PagesMapped s.cfg s.mem s.procCount (freeFrames s.cfg s.mem).length m' ∧ Laid s.cfg s.mem code heap m' ∧
      createProcess s.cfg s.mem code heap = ⟨.outOfFrames, 0, unmapAll s.cfg m' (ptBase s.cfg s.procCount)⟩ := by
  have h : s.cfg.wellFormed = true := s.params.wellFormed
  obtain ⟨m', hl, he⟩ := createProcess_laid h (three_le_pcbWords h hf) s.mem code heap hroom
  rw [if_neg (Nat.not_le.2 hshort)] at he
  exact ⟨m', Nat.min_eq_right hshort.le ▸ hl.pages, hl, he⟩

/-- R81, R85: a CREATE that answers OK found enough free frames and left what it had laid, counted. -/
theorem laid_of_create_ok {t : State} {v : Word} (hf : s.cfg.fits = true) (he : exec (.create code heap) s = .next t)
    (hok : t.response = some ⟨.ok, v⟩) : ∃ m', createPages s.cfg ≤ (freeFrames s.cfg s.mem).length ∧
      Laid s.cfg s.mem code heap m' ∧ t.cfg = s.cfg ∧
      t.mem = m'.write s.cfg s.cfg.procCountAddr (BitVec.ofNat 16 (s.procCount + 1)) := by
  obtain rfl := accepted_of_ok (exec_create s code heap ▸ he) hok
  split at hok
  · cases hok
  next hroom =>
    rw [if_neg hroom]
    have hroom : s.procCount < s.cfg.maxProcs := Nat.not_le.1 hroom
    rcases Nat.lt_or_ge (freeFrames s.cfg s.mem).length (createPages s.cfg) with hshort | henough
    · obtain ⟨m', -, -, hret⟩ := createProcess_of_short hf hroom hshort code heap
      rw [hret] at hok
      cases hok
    · obtain ⟨m', -, hl, hret⟩ := createProcess_of_enough hf hroom henough code heap
      rw [hret]
      exact ⟨m', henough, hl, rfl, rfl⟩

end commands

/-! ### The obligations -/

/-- Settles O28: with the table full the body logs the event, whose Words are the count and the marker. -/
theorem createWithFullTableIsLogged : Obligations.CreateWithFullTableIsLogged := by
  intro s code heap hrun hfull
  have hcount : BitVec.ofNat 16 s.procCount = s.word s.cfg.procCountAddr := BitVec.ofNat_toNat ..
  rw [exec_create_of_full hrun hfull, hcount]
  rfl

/-- Settles O34: LOAD of a pid with a slot is accepted; the marker it writes is no Word of the slot it reads. -/
theorem loadRestoresTheContext : Obligations.LoadRestoresTheContext := by
  intro s pid hf hrun hpid
  have h : s.cfg.wellFormed = true := s.params.wellFormed
  have h3 := three_le_pcbWords h hf
  have hslot {i : Nat} (hi : i < s.cfg.pcbWords) : (loadProcess s pid.toNat).mem.read s.cfg (pcb s.cfg pid.toNat + i) =
      s.word (pcb s.cfg pid.toNat + i) :=
    read_write_of_ne s.mem _ (pcb_add_lt_memWords h hpid hi) (pcb_ne_curPidAddr h hpid hi)
  have hpc : (loadProcess s pid.toNat).pc = s.word (pcb s.cfg pid.toNat + 1) := hslot (by omega)
  have hptbr : (loadProcess s pid.toNat).ptbr = s.word (pcb s.cfg pid.toNat + 2) := hslot (by omega)
  refine ⟨(loadProcess s pid.toNat).respond .ok 0, ?_, ?_, ?_, fun q => mem_insertPid, fun a ha hne => ?_⟩
  · rw [exec_load, (isSlot_iff s.cfg pid).2 hpid, unlessRefused_of_accepted hrun (p := false) nofun]
  · rw [← hpc, ← hptbr]
    rfl
  · exact (curPid_write_self h s.mem _).trans (BitVec.ofNat_toNat ..)
  · exact read_write_of_ne s.mem _ ha hne

/-- Settles O29: with enough frames each page mapped takes one (`PagesMapped.freeCount_add`), with too few unwinding
gives back all that were taken (`PagesMapped.isFree_unmapAll`); the marker and the count by `pids_createProcess`. -/
theorem createSucceedsExactlyWhenFramesSuffice : Obligations.CreateSucceedsExactlyWhenFramesSuffice := by
  intro s code heap hf hrun hroom
  have h : s.cfg.wellFormed = true := s.params.wellFormed
  obtain ⟨hcur, -, hdone⟩ := pids_createProcess h hf s.mem code heap hroom
  rw [← length_freeFrames s.cfg s.mem]
  refine ⟨_, exec_create_of_room hrun hroom code heap, rfl, hcur, fun henough => ?_, fun hshort => ?_⟩
  · obtain ⟨m', hpages, -, he⟩ := createProcess_of_enough hf hroom henough code heap
    rw [he] at hdone ⊢
    obtain ⟨-, -, hcount, -⟩ := hdone.resolve_right fun hfail => hfail.1 rfl
    refine ⟨rfl, hcount, ?_⟩
    rw [← hpages.freeCount_add h]
    exact congrArg (· + createPages s.cfg)
      (freeCount_congr fun g _ hg => isFree_write_procCount h m' _ (frame_lt_bits h hg))
  · obtain ⟨m', hpages, -, he⟩ := createProcess_of_short hf hroom hshort code heap
    rw [he] at hdone ⊢
    refine ⟨rfl, (hdone.resolve_left nofun).2, ?_⟩
    rw [length_freeFrames]
    exact freeCount_congr fun g _ hg => hpages.isFree_unmapAll h hroom (frame_lt_bits h hg)

/-- Settles O30: with enough frames `Laid` describes what CREATE built; the slot by `slot_of_prepareSlot`, the table and
the bits by `PagesMapped`, the other Words by `Laid.read_of_ne`, and writing the count touches none of these. -/
theorem createBuildsTheProcess : Obligations.CreateBuildsTheProcess := by
  intro s code heap n fs hf hrun hn hroom hfs hlen
  subst hn
  have h : s.cfg.wellFormed = true := s.params.wellFormed
  have henough : createPages s.cfg ≤ (freeFrames s.cfg s.mem).length := by
    rw [← hlen, ← hfs, List.length_take]
    exact Nat.min_le_right ..
  obtain ⟨m', hpages, hlaid, he⟩ := createProcess_of_enough hf hroom henough code heap
  have hother {a : Nat} (ha : a < s.cfg.memWords) (hne : a ≠ s.cfg.procCountAddr) :
      (m'.write s.cfg s.cfg.procCountAddr (BitVec.ofNat 16 (s.procCount + 1))).read s.cfg a = m'.read s.cfg a :=
    read_write_of_ne m' _ ha hne
  obtain ⟨hid, hpc, hbase⟩ := slot_of_prepareSlot h (three_le_pcbWords h hf) hroom fun i hi =>
    (hother (pcb_add_lt_memWords h hroom hi) (pcb_ne_procCountAddr h hroom hi)).trans
      ((hpages.lowKept h).pcb_eq h hroom hi)
  refine ⟨_, exec_create_of_room hrun hroom code heap, ?_⟩
  rw [he]
  refine ⟨rfl, ?_, hid, hpc, hbase, fun j f hj => ?_, fun v hv hne => ?_, fun g hg => ?_,
    fun a ha hcount hbit hslot htable hframe => ?_⟩
  · exact (procCount_write_self h m' _).trans (toNat_pid h hf hroom)
  · rw [← hfs, List.getElem?_take, Option.ite_none_right_eq_some] at hj
    obtain ⟨hj, hfree⟩ := hj
    rw [finish_mem, entry_write_procCount h m' _ hroom (createPage_lt h hj), hpages.entries j f hj hfree]
    exact mkPte_toNat h (mem_freeFrames.1 (List.mem_of_getElem? hfree)).1.2 true _
  · exact (entry_write_procCount h m' _ hroom hv).trans (hpages.cleared v hv hne)
  · rw [finish_mem, isFree_write_procCount h m' _ hg, hpages.bits g hg, hfs]
  · rw [← hfs, ← codeFrames_append_heapFrames henough, List.mem_append, not_or] at hframe
    exact (hother ha hcount).trans (hlaid.read_of_ne ha hbit hslot htable (fun _ => hframe.1) fun _ => hframe.2)

/-- Settles O31: a CREATE that answers OK had enough frames (`laid_of_create_ok`), so its code and heap pages lie in the
frames `Laid` speaks of, and writing the count reaches no assignable frame. -/
theorem createLoadsTheImages : Obligations.CreateLoadsTheImages := by
  intro s t code heap fs hf hfs he hok
  have h : s.cfg.wellFormed = true := s.params.wellFormed
  obtain ⟨v, hok⟩ := hok
  obtain ⟨m', henough, hlaid, hcfg, hmem⟩ := laid_of_create_ok hf he hok
  have hpos := pageWords_pos h
  have hword {i f : Nat} (hfree : f ∈ freeFrames s.cfg s.mem) :
      t.word (physAddr s.cfg f (i % s.cfg.pageWords)) = m'.read s.cfg (physAddr s.cfg f (i % s.cfg.pageWords)) := by
    obtain ⟨hlt, hge⟩ := physAddr_assignable h (List.mem_of_mem_filter hfree) i
    unfold State.word
    rw [hcfg, hmem]
    exact framesKept_write m' ((procCountAddr_lt_ptRegion h).trans_le (ptRegionBase_le_reserved h)) _ _ hlt hge
  refine ⟨fun i f a hi hfi ha => ?_, fun i f a hi hfi ha => ?_⟩
  · have hpage : i / s.cfg.pageWords < s.cfg.codePages := (Nat.div_lt_iff_lt_mul hpos).2 hi
    rw [← hfs, List.getElem?_take, Option.ite_none_right_eq_some,
      ← getElem?_codeFrames (by unfold createPages at henough; omega) hpage] at hfi
    rw [show a = physAddr s.cfg f (i % s.cfg.pageWords) from ha,
      hword (mem_freeFrames_of_codeFrames (List.mem_of_getElem? hfi.2)), hlaid.code i f hfi.2]
    rfl
  · have hpage : i / s.cfg.pageWords < s.cfg.heapPages := (Nat.div_lt_iff_lt_mul hpos).2 hi
    rw [← hfs, List.getElem?_take, Option.ite_none_right_eq_some, ← getElem?_heapFrames henough hpage] at hfi
    rw [show a = physAddr s.cfg f (i % s.cfg.pageWords) from ha,
      hword (mem_freeFrames_of_heapFrames (List.mem_of_getElem? hfi.2)), hlaid.heap i f hfi.2]
    rfl

/-- Settles O32: unwinding restores every bit (`PagesMapped.isFree_unmapAll`), hence every Word of the bitmap, clears
every valid bit of the table, and leaves the other Words as `Laid` has them. -/
theorem failedCreateLeavesNoMapping : Obligations.FailedCreateLeavesNoMapping := by
  intro s code heap n hf hrun hn hroom hshort
  subst hn
  have h : s.cfg.wellFormed = true := s.params.wellFormed
  rw [← length_freeFrames] at hshort
  obtain ⟨m', hpages, hlaid, he⟩ := createProcess_of_short hf hroom hshort code heap
  have hlow := (hpages.lowKept h).trans (lowKept_unmapAll h m' (ptBase_ge s.cfg s.procCount))
  obtain ⟨hid, hpc, hbase⟩ := slot_of_prepareSlot h (three_le_pcbWords h hf) hroom fun i hi => hlow.pcb_eq h hroom hi
  have hbits {g : Nat} (hg : g < 16 * s.cfg.bitmapWords) := hpages.isFree_unmapAll h hroom hg
  refine ⟨_, exec_create_of_room hrun hroom code heap, ?_⟩
  rw [he]
  refine ⟨rfl, fun g => hbits, fun v hv => pteValid_unmapAll h m' hroom hv, hid, hpc, hbase,
    fun a ha hslot htable hframe => ?_⟩
  by_cases hbit : OffBitmap s.cfg a
  · have hread : (unmapAll s.cfg m' (ptBase s.cfg s.procCount)).read s.cfg a = m'.read s.cfg a := by
      rw [read_unmapAll h m' _ ha hbit, if_neg fun hc => htable hc.1]
    have hused (hr : s.cfg.reservedFrames * s.cfg.pageWords ≤ a) : a / s.cfg.pageWords ∉ freeFrames s.cfg s.mem :=
      fun hmem => hframe ⟨hr, (mem_freeFrames.1 hmem).2⟩
    exact hread.trans (hlaid.read_of_ne ha hbit hslot htable
      (fun hr hmem => hused hr (mem_freeFrames_of_codeFrames hmem))
      fun hr hmem => hused hr (mem_freeFrames_of_heapFrames hmem))
  · exact read_bitmap_of_bits h (fun g => hbits) hbit

/-- Settles O33: unwinding clears bit 0 of the entries `PagesMapped` gives and writes no assignable frame; of those the
code frames hold the image, and there are no heap frames (`heapFrames_eq_nil`). -/
theorem failedCreateLeavesStaleWords : Obligations.FailedCreateLeavesStaleWords := by
  intro s code heap n free hf hrun hn hroom hfree hshort
  subst hn
  have h : s.cfg.wellFormed = true := s.params.wellFormed
  have hpos := pageWords_pos h
  change freeFrames s.cfg s.mem = free at hfree
  rw [← hfree] at hshort ⊢
  obtain ⟨m', hpages, hlaid, he⟩ := createProcess_of_short hf hroom hshort code heap
  have hkept := framesKept_unmapAll h m' hroom
  have hheap := heapFrames_eq_nil hshort
  refine ⟨_, exec_create_of_room hrun hroom code heap, ?_⟩
  rw [he]
  refine ⟨rfl, fun j f hj => ?_, fun v hv hne => ?_, fun hcode a ha hr => ?_, fun hcode i f a hi hfi ha => ?_,
    fun j f a hj hfj ha => ?_⟩
  · have hlt := (List.getElem?_eq_some_iff.1 hj).1
    have hnum := (mem_freeFrames.1 (List.mem_of_getElem? hj)).1.2
    rw [finish_mem, entry_unmapAll h m' hroom (createPage_lt h (hlt.trans hshort)), hpages.entries j f hlt hj,
      if_pos (pteValid_mkPte h hnum true _)]
    exact toNat_mkPte_clear h hnum j
  · rw [finish_mem, entry_unmapAll h m' hroom hv, hpages.cleared v hv hne]
    rfl
  · refine (hkept a ha hr).trans (hlaid.kept a ha hr ?_ ?_)
    · simp [codeFrames_eq_nil hcode]
    · simp [hheap]
  · have hpage : i / s.cfg.pageWords < s.cfg.codePages := (Nat.div_lt_iff_lt_mul hpos).2 hi
    obtain ⟨hlt, hge⟩ := physAddr_assignable h (List.mem_of_mem_filter (List.mem_of_getElem? hfi)) i
    rw [← getElem?_codeFrames hcode hpage] at hfi
    rw [show a = physAddr s.cfg f (i % s.cfg.pageWords) from ha]
    exact (hkept _ hlt hge).trans (hlaid.code i f hfi)
  · obtain ⟨⟨hres, hnum⟩, -⟩ := mem_freeFrames.1 (List.mem_of_getElem? hfj)
    subst ha
    have hlt : a < s.cfg.memWords := by
      rw [memWords_eq h]
      exact (Nat.div_lt_iff_lt_mul hpos).1 hnum
    have hr : s.cfg.reservedFrames * s.cfg.pageWords ≤ a := (Nat.le_div_iff_mul_le hpos).1 hres
    refine (hkept a hlt hr).trans (hlaid.kept a hlt hr (notMem_codeFrames hj hfj) ?_)
    simp [hheap]

end Sys2Proof.Machine
end

section
/-! PROOFS. YIELD and HALT (44_traps.md R90 to R92, R96): the scan in terms of the count and the ids, the two operations
in every state that has a current pid (70_reset_and_hazards.md R126 (b)), and what switching, saving and retiring leave
of every Word while the current pid has a slot. -/

namespace Sys2Proof.Machine

open Sys2Proof.Safety

/-! ### The scan (R90) -/

section scan
variable {c : Config} {m m' : Memory} {cur p : Nat}

/-- R90: the scan depends on the count and the ids of the created pids alone. -/
theorem firstAfter_congr (hcount : procCount c m' = procCount c m)
    (hids : ∀ q, q < procCount c m → notTerminated c m' q = notTerminated c m q) (h : FirstAfter c m cur p) :
    FirstAfter c m' cur p := by
  obtain ⟨k, hk1, hkn, rfl, hlive, hskip⟩ := h
  have hlt (j : Nat) : (cur + j) % procCount c m < procCount c m := Nat.mod_lt _ (by omega)
  refine ⟨k, hk1, hcount.symm ▸ hkn, by rw [hcount], (hids _ (hlt k)).trans hlive, fun j hj1 hjk => ?_⟩
  rw [hcount, hids _ (hlt j), hskip j hj1 hjk]

theorem allTerminated_congr (hcount : procCount c m' = procCount c m)
    (hids : ∀ q, q < procCount c m → notTerminated c m' q = notTerminated c m q) (h : AllTerminated c m) :
    AllTerminated c m' := fun p hp =>
  have hp : p < procCount c m := hcount ▸ hp
  (hids p hp).trans (h p hp)

theorem firstAfter_lt (h : FirstAfter c m cur p) : p < procCount c m := by
  obtain ⟨k, hk1, hkn, rfl, -⟩ := h
  exact Nat.mod_lt _ (by omega)

/-- R90: going round from any pid, every created pid is met within one cycle. -/
theorem exists_distance {n : Nat} (cur : Nat) (hp : p < n) : ∃ d, 1 ≤ d ∧ d ≤ n ∧ (cur + d) % n = p := by
  have hmod := Nat.mod_lt cur (show 0 < n by omega)
  have hdiv := Nat.div_add_mod cur n
  have hmeet {d k : Nat} (h : cur + d = p + n * k) : (cur + d) % n = p := by
    rw [h, Nat.add_mul_mod_self_left, Nat.mod_eq_of_lt hp]
  by_cases hlt : cur % n < p
  · exact ⟨p - cur % n, by omega, by omega, hmeet (k := cur / n) (by omega)⟩
  · exact ⟨p + n - cur % n, by omega, by omega, hmeet (k := cur / n + 1) (by rw [Nat.mul_add_one]; omega)⟩

/-- R90, R96: the scan answers none only with every created pid terminated. -/
theorem allTerminated_of_nextLive_none (h : nextLive c m cur = none) : AllTerminated c m := by
  intro p hp
  obtain ⟨d, hd1, hdn, rfl⟩ := exists_distance cur hp
  rcases scan_spec c m (procCount c m) cur (List.range' 1 (procCount c m)) with ⟨_, _, _, -, -, -, he⟩ | ⟨hnone, -⟩
  · cases h.symm.trans he
  · exact hnone d (List.mem_range'_1.2 ⟨hd1, by omega⟩)

end scan

/-! ### The two operations in every state that has a current pid (R91, R92) -/

section literal
variable {s : State} (hserv : Serving s) {p : Nat}
include hserv

theorem exec_yield_of_serving : exec .yield s = .next (yieldBody s) :=
  (exec_yield s).trans (unlessRefused_of_serving hserv _)

theorem exec_halt_of_serving : exec .halt s = .next (haltBody s) :=
  (exec_halt s).trans (unlessRefused_of_serving hserv _)

/-- R91: YIELD saves the context and switches to the first pid after the current one that is not terminated. -/
theorem exec_yield_of_first (h : FirstAfter s.cfg (saveContext s s.curPid.toNat).mem s.curPid.toNat p) :
    exec .yield s = .next (switchTo (saveContext s s.curPid.toNat) p) := by
  rw [exec_yield_of_serving hserv]
  rcases yieldBody_spec s with ⟨q, hq, he⟩ | ⟨hnone, -⟩
  · obtain rfl : q = p := Option.some.inj (hq.symm.trans (nextLive_eq_of_first h))
    rw [he]
    rfl
  · cases hnone.symm.trans (nextLive_eq_of_first h)

/-- R96: with no pid to switch to YIELD only saves the context. -/
theorem exec_yield_of_none (h : AllTerminated s.cfg (saveContext s s.curPid.toNat).mem) :
    exec .yield s = .next ((saveContext s s.curPid.toNat).respond .ok (noProcessWord s.cfg)) := by
  rw [exec_yield_of_serving hserv]
  rcases yieldBody_spec s with ⟨q, hq, -⟩ | ⟨-, he⟩
  · cases hq.symm.trans (nextLive_eq_none h)
  · rw [he]

/-- R92: HALT retires the current process and switches to the first pid after it that is not terminated. -/
theorem exec_halt_of_first (h : FirstAfter s.cfg (retire s s.curPid.toNat).mem s.curPid.toNat p) :
    exec .halt s = .next (switchTo (retire s s.curPid.toNat) p) := by
  rw [exec_halt_of_serving hserv]
  rcases haltBody_spec s with ⟨q, hq, he⟩ | ⟨hnone, -⟩
  · obtain rfl : q = p := Option.some.inj (hq.symm.trans (nextLive_eq_of_first h))
    rw [he]
    rfl
  · cases hnone.symm.trans (nextLive_eq_of_first h)

/-- R92: with no pid to switch to HALT stops the run. -/
theorem exec_halt_of_none (h : AllTerminated s.cfg (retire s s.curPid.toNat).mem) : exec .halt s =
    .next ({ retire s s.curPid.toNat with running := false }.respond .ok (noProcessWord s.cfg)) := by
  rw [exec_halt_of_serving hserv]
  rcases haltBody_spec s with ⟨q, hq, -⟩ | ⟨-, he⟩
  · cases hq.symm.trans (nextLive_eq_none h)
  · rw [he]

end literal

/-- Settles O58: the two outcomes of YIELD; the memory it saves to is that of `saveContext_mem`. -/
theorem yieldIsLiteralInEveryState : Obligations.YieldIsLiteralInEveryState := by
  rintro s i _ _ hi hserv rfl rfl
  rw [exec_of_isYield hi]
  exact ⟨fun p hp => ⟨_, exec_yield_of_first hserv hp, rfl, fun q => mem_insertPid⟩, exec_yield_of_none hserv⟩

/-- Settles O59: the two outcomes of HALT; the memory it retires to is that of `retire_mem`. -/
theorem haltIsLiteralInEveryState : Obligations.HaltIsLiteralInEveryState := by
  rintro s i _ _ hi hserv rfl rfl
  rw [exec_of_isHalt hi]
  exact ⟨fun p hp => ⟨_, exec_halt_of_first hserv hp, rfl, fun q => mem_insertPid⟩, exec_halt_of_none hserv⟩

/-! ### Switching (R86, R91, R92) -/

/-- R21: two Words of slots are one Word only if they are one Word of one slot. -/
theorem pcb_add_eq_iff {c : Config} {p q i j : Nat} (hi : i < c.pcbWords) (hj : j < c.pcbWords) :
    pcb c p + i = pcb c q + j ↔ p = q ∧ i = j :=
  ⟨pcb_add_inj hi hj, by rintro ⟨rfl, rfl⟩; rfl⟩

section switch
variable (s : State) {p : Nat}

theorem curPid_switchTo (p : Nat) : (switchTo s p).curPid = BitVec.ofNat 16 p :=
  curPid_write_self s.params.wellFormed s.mem _

/-- Switching writes the marker and no other Word. -/
theorem word_switchTo (p : Nat) {a : Nat} (ha : a < s.cfg.memWords) (hne : a ≠ s.cfg.curPidAddr) :
    (switchTo s p).word a = s.word a :=
  read_write_of_ne s.mem _ ha hne

theorem isFree_switchTo (p : Nat) {g : Nat} (hg : g < 16 * s.cfg.bitmapWords) :
    isFree s.cfg (switchTo s p).mem g = isFree s.cfg s.mem g := by
  have h : s.cfg.wellFormed = true := s.params.wellFormed
  have := bmWord_lt h hg
  have := curPidAddr_offBitmap h
  exact isFree_write h s.mem _ hg (by omega)

variable (hf : s.cfg.fits = true) (hp : p < s.cfg.maxProcs)
include hf hp

/-- R86: the context a switch loads is that of the slot as it stands. -/
theorem switchTo_eq : switchTo s p = { s with
    mem := (switchTo s p).mem
    pc := s.word (pcb s.cfg p + 1)
    ptbr := s.word (pcb s.cfg p + 2)
    everLoaded := (switchTo s p).everLoaded
    response := some ⟨.ok, BitVec.ofNat 16 p⟩ } := by
  have h : s.cfg.wellFormed = true := s.params.wellFormed
  have h3 := three_le_pcbWords h hf
  have hslot {i : Nat} (hi : i < s.cfg.pcbWords) : (switchTo s p).word (pcb s.cfg p + i) = s.word (pcb s.cfg p + i) :=
    word_switchTo s p (pcb_add_lt_memWords h hp hi) (pcb_ne_curPidAddr h hp hi)
  rw [← hslot (i := 1) (by omega), ← hslot (i := 2) (by omega)]
  rfl

/-- Switching keeps the count and the ids. -/
theorem pids_switchTo : (switchTo s p).procCount = s.procCount ∧
    ∀ q, q < s.cfg.maxProcs → notTerminated s.cfg (switchTo s p).mem q = notTerminated s.cfg s.mem q :=
  (pids_loadProcess hf hp).2

end switch

/-! ### YIELD with the current pid in a slot (R91) -/

/-- R91: the state after YIELD has saved the current context and switched to `p`. -/
def yieldedTo (s : State) (p : Nat) : State := switchTo (saveContext s s.curPid.toNat) p

section save
variable {s : State}

/-- R91: saving writes two Words of a slot. -/
theorem word_saveContext (cur : Nat) {a : Nat} (ha : a < s.cfg.memWords) : (saveContext s cur).word a =
    if a = pcb s.cfg cur + 2 then s.ptbr else if a = pcb s.cfg cur + 1 then s.pc else s.word a :=
  (read_write _ _ _ ha).trans (by rw [read_write _ _ _ ha]; rfl)

variable (hf : s.cfg.fits = true) {p cur : Nat}
include hf

/-- R91: the contexts saved in the slots. -/
theorem slot_saveContext (hp : p < s.cfg.maxProcs) :
    (saveContext s cur).word (pcb s.cfg p + 1) = (if p = cur then s.pc else s.word (pcb s.cfg p + 1)) ∧
      (saveContext s cur).word (pcb s.cfg p + 2) = if p = cur then s.ptbr else s.word (pcb s.cfg p + 2) := by
  have h : s.cfg.wellFormed = true := s.params.wellFormed
  have h3 := three_le_pcbWords h hf
  have hmeet {i j : Nat} (hi : i < 3) (hj : j < 3) : pcb s.cfg p + i = pcb s.cfg cur + j ↔ p = cur ∧ i = j :=
    pcb_add_eq_iff (by omega) (by omega)
  rw [word_saveContext cur (pcb_add_lt_memWords h hp (by omega)),
    word_saveContext cur (pcb_add_lt_memWords h hp (by omega))]
  simp (disch := decide) only [hmeet]
  simp

/-- Saving keeps the count and the ids, so the scan finds what it would have found before. -/
theorem pids_saveContext_slots (hr : SlotsInRange s) :
    procCount s.cfg (saveContext s s.curPid.toNat).mem = procCount s.cfg s.mem ∧ ∀ q, q < procCount s.cfg s.mem →
      notTerminated s.cfg (saveContext s s.curPid.toNat).mem q = notTerminated s.cfg s.mem q := by
  have h : s.cfg.wellFormed = true := s.params.wellFormed
  obtain ⟨hcur, hn⟩ := hr
  obtain ⟨-, hcount, hids⟩ := pids_saveContext h (three_le_pcbWords h hf) s.mem hcur s.pc s.ptbr
  exact ⟨hcount, fun q hq => hids q (hq.trans_le hn)⟩

theorem exec_yield_eq_yieldedTo (hserv : Serving s) (hr : SlotsInRange s)
    (h : FirstAfter s.cfg s.mem s.curPid.toNat p) : exec .yield s = .next (yieldedTo s p) := by
  obtain ⟨hcount, hids⟩ := pids_saveContext_slots hf hr
  exact exec_yield_of_first hserv (firstAfter_congr hcount hids h)

end save

section yielded
variable {s : State} {p : Nat}

theorem word_yieldedTo (p : Nat) {a : Nat} (ha : a < s.cfg.memWords) (hne : a ≠ s.cfg.curPidAddr) :
    (yieldedTo s p).word a = (saveContext s s.curPid.toNat).word a :=
  word_switchTo (saveContext s s.curPid.toNat) p ha hne

/-- R91: YIELD writes two Words of the current slot and the marker. -/
theorem word_yieldedTo_of_ne (p : Nat) {a : Nat} (ha : a < s.cfg.memWords) (hne : a ≠ s.cfg.curPidAddr)
    (hpc : a ≠ pcb s.cfg s.curPid.toNat + 1) (hptbr : a ≠ pcb s.cfg s.curPid.toNat + 2) :
    (yieldedTo s p).word a = s.word a := by
  rw [word_yieldedTo p ha hne, word_saveContext _ ha, if_neg hptbr, if_neg hpc]

theorem curPid_yieldedTo (s : State) (p : Nat) : (yieldedTo s p).curPid = BitVec.ofNat 16 p := curPid_switchTo _ p

variable (hf : s.cfg.fits = true)
include hf

/-- R91: the context saved in the current slot. -/
theorem slot_yieldedTo (p : Nat) (hcur : s.curPid.toNat < s.cfg.maxProcs) :
    (yieldedTo s p).word (pcb s.cfg s.curPid.toNat + 1) = s.pc ∧
      (yieldedTo s p).word (pcb s.cfg s.curPid.toNat + 2) = s.ptbr := by
  have h : s.cfg.wellFormed = true := s.params.wellFormed
  have h3 := three_le_pcbWords h hf
  have hread {i : Nat} (hi : i < s.cfg.pcbWords) :=
    word_yieldedTo (s := s) p (pcb_add_lt_memWords h hcur hi) (pcb_ne_curPidAddr h hcur hi)
  obtain ⟨hpc, hptbr⟩ := slot_saveContext hf (cur := s.curPid.toNat) hcur
  exact ⟨(hread (by omega)).trans (hpc.trans (if_pos rfl)), (hread (by omega)).trans (hptbr.trans (if_pos rfl))⟩

/-- R91: the context loaded; of the current pid it is the one just saved. -/
theorem yieldedTo_eq (hp : p < s.cfg.maxProcs) : yieldedTo s p = { s with
    mem := (yieldedTo s p).mem
    pc := if p = s.curPid.toNat then s.pc else s.word (pcb s.cfg p + 1)
    ptbr := if p = s.curPid.toNat then s.ptbr else s.word (pcb s.cfg p + 2)
    everLoaded := (yieldedTo s p).everLoaded
    response := some ⟨.ok, BitVec.ofNat 16 p⟩ } := by
  obtain ⟨hpc, hptbr⟩ := slot_saveContext hf (cur := s.curPid.toNat) hp
  rw [← hpc, ← hptbr]
  exact switchTo_eq (saveContext s s.curPid.toNat) hf hp

/-- R91: the context loaded of another pid. -/
theorem context_yieldedTo (hp : p < s.cfg.maxProcs) (hne : p ≠ s.curPid.toNat) :
    (yieldedTo s p).pc = s.word (pcb s.cfg p + 1) ∧ (yieldedTo s p).ptbr = s.word (pcb s.cfg p + 2) := by
  have hregs := yieldedTo_eq hf hp
  rw [if_neg hne, if_neg hne] at hregs
  exact ⟨congrArg State.pc hregs, congrArg State.ptbr hregs⟩

/-- R91: YIELD leaves the page tables and the frames. -/
theorem word_yieldedTo_region (p : Nat) (hcur : s.curPid.toNat < s.cfg.maxProcs) {a : Nat} (ha : a < s.cfg.memWords)
    (hregion : s.cfg.ptRegionBase ≤ a) : (yieldedTo s p).word a = s.word a := by
  have h : s.cfg.wellFormed = true := s.params.wellFormed
  have h3 := three_le_pcbWords h hf
  have hmarker := curPidAddr_lt_ptRegion h
  have hslot {i : Nat} (hi : i < s.cfg.pcbWords) := (pcb_add_lt h hcur hi).2.2
  have hpc := hslot (i := 1) (by omega)
  have hptbr := hslot (i := 2) (by omega)
  exact word_yieldedTo_of_ne p ha (by omega) (by omega) (by omega)

/-- YIELD keeps the count and the ids. -/
theorem pids_yieldedTo (hr : SlotsInRange s) (hp : p < s.cfg.maxProcs) : (yieldedTo s p).procCount = s.procCount ∧
    ∀ q, q < s.procCount → notTerminated s.cfg (yieldedTo s p).mem q = notTerminated s.cfg s.mem q := by
  obtain ⟨hcount, hids⟩ := pids_saveContext_slots hf hr
  obtain ⟨hcount', hids'⟩ := pids_switchTo (saveContext s s.curPid.toNat) hf hp
  exact ⟨hcount'.trans hcount, fun q hq => (hids' q (hq.trans_le hr.2)).trans (hids q hq)⟩

end yielded

/-- Settles O35: the state YIELD leads to by `exec_yield_eq_yieldedTo`, its registers by `yieldedTo_eq`, its Words by
`slot_yieldedTo` and `word_yieldedTo_of_ne`. -/
theorem yieldSwitchesToTheNextLive : Obligations.YieldSwitchesToTheNextLive := by
  rintro s i _ p hf hi hserv hr rfl hfirst
  rw [exec_of_isYield hi]
  obtain ⟨hpc, hptbr⟩ := slot_yieldedTo hf p hr.1
  exact ⟨_, exec_yield_eq_yieldedTo hf hserv hr hfirst, yieldedTo_eq hf ((firstAfter_lt hfirst).trans_le hr.2),
    curPid_yieldedTo s p, fun q => mem_insertPid, hpc, hptbr, fun a => word_yieldedTo_of_ne p⟩

/-! ### Disciplined states (R26) -/

section disciplined
variable {s : State} (h : Disciplined s) (hserv : Serving s)
include h hserv

/-- R26 (g), (h): the current pid has a slot. -/
theorem slotsInRange_of_disciplined : SlotsInRange s :=
  ⟨(h.current hserv.2).1.trans_le h.bounded, h.bounded⟩

theorem ptbrIsTable_of_disciplined : PtbrIsTable s :=
  ⟨_, (slotsInRange_of_disciplined h hserv).1, (h.current hserv.2).2⟩

/-- R26 (j), R96: the scan finds a pid. -/
theorem exists_firstAfter_of_disciplined : ∃ p, FirstAfter s.cfg s.mem s.curPid.toNat p := by
  obtain ⟨p, hp⟩ := nextLive_of_live (h.currentLive hserv.1 hserv.2)
  exact ⟨p, nextLive_some hp⟩

end disciplined

/-- Settles O36: YIELD with no pid to switch to by `exec_yield_of_none`, the Words it saves by `slot_saveContext`; and
that a disciplined state has one by `exists_firstAfter_of_disciplined`. -/
theorem yieldWithNoneLiveOnlySaves : Obligations.YieldWithNoneLiveOnlySaves := by
  refine ⟨?_, fun _ => exists_firstAfter_of_disciplined⟩
  rintro s i _ hf hi hserv hr rfl hall
  rw [exec_of_isYield hi]
  obtain ⟨hcount, hids⟩ := pids_saveContext_slots hf hr
  obtain ⟨hpc, hptbr⟩ := slot_saveContext hf (cur := s.curPid.toNat) hr.1
  refine ⟨_, exec_yield_of_none hserv (allTerminated_congr hcount hids hall), rfl, hpc.trans (if_pos rfl),
    hptbr.trans (if_pos rfl), fun a ha hpc hptbr => ?_⟩
  exact (word_saveContext _ ha).trans (by rw [if_neg hptbr, if_neg hpc])

/-! ### HALT with the current pid in a slot and PTBR at a table (R92) -/

section retire
variable {s : State} {cur : Nat}

/-- A write on both sides keeps the low Words alike. -/
theorem LowKept.write {c : Config} {m m' : Memory} (h : c.wellFormed = true) (hk : LowKept c m m') (a : Nat)
    (w : Word) : LowKept c (m.write c a w) (m'.write c a w) := fun b hb hoff => by
  rw [read_write _ _ _ (low_lt_memWords h hb), read_write _ _ _ (low_lt_memWords h hb), hk b hb hoff]

/-- R92: off the bitmap and the slot's id, retiring clears the valid bits of the table and nothing else. -/
theorem word_retire {a : Nat} (ha : a < s.cfg.memWords) (hoff : OffBitmap s.cfg a) (hne : a ≠ pcb s.cfg cur) :
    (retire s cur).word a =
      if (s.ptbr.toNat ≤ a ∧ a < s.ptbr.toNat + s.cfg.ptEntries) ∧ pteValid (s.word a) = true
      then s.word a &&& 0xFFFE#16 else s.word a :=
  (read_write_of_ne _ _ ha hne).trans (read_unmapAll s.params.wellFormed s.mem _ ha hoff)

/-- R92: retiring leaves the Words that are no entry, no bitmap Word and not the slot's id. -/
theorem word_retire_of_ne {a : Nat} (ha : a < s.cfg.memWords) (hoff : OffBitmap s.cfg a) (hne : a ≠ pcb s.cfg cur)
    (htable : ¬ (s.ptbr.toNat ≤ a ∧ a < s.ptbr.toNat + s.cfg.ptEntries)) : (retire s cur).word a = s.word a := by
  rw [word_retire ha hoff hne, if_neg fun hc => htable hc.1]

/-- R92: retiring leaves the saved context of every slot. -/
theorem word_retire_slot (htable : PtbrIsTable s) {p i : Nat} (hp : p < s.cfg.maxProcs) (hi : i < s.cfg.pcbWords)
    (hi0 : i ≠ 0) : (retire s cur).word (pcb s.cfg p + i) = s.word (pcb s.cfg p + i) := by
  have h : s.cfg.wellFormed = true := s.params.wellFormed
  obtain ⟨q, -, hbase⟩ := htable
  have hregion := ptBase_ge s.cfg q
  have hlow := (pcb_add_lt h hp hi).2.2
  exact word_retire_of_ne (pcb_add_lt_memWords h hp hi) (pcb_offBitmap h hp hi)
    (fun hc => hi0 (pcb_add_inj (j := 0) hi (by omega) hc).2) (by omega)

variable (hf : s.cfg.fits = true) (hcur : cur < s.cfg.maxProcs)
include hf hcur

/-- R92, R21: the slot is marked terminated. -/
theorem word_retire_self : (retire s cur).word (pcb s.cfg cur) = terminatedWord s.cfg := by
  have h : s.cfg.wellFormed = true := s.params.wellFormed
  have h3 := three_le_pcbWords h hf
  exact read_write_self _ (pcb_add_lt_memWords h hcur (i := 0) (by omega)) _

variable (htable : PtbrIsTable s)
include htable

/-- R92: the entries after retiring. -/
theorem word_retire_entry {v : Nat} (hv : v < s.cfg.ptEntries) : (retire s cur).word (s.ptbr.toNat + v) =
    if (s.word (s.ptbr.toNat + v)).getLsbD 0 = true then s.word (s.ptbr.toNat + v) &&& 0xFFFE#16
    else s.word (s.ptbr.toNat + v) := by
  have h : s.cfg.wellFormed = true := s.params.wellFormed
  have h3 := three_le_pcbWords h hf
  obtain ⟨p, hp, hbase⟩ := htable
  have hlow := (pcb_add_lt h hcur (i := 0) (by omega)).2.2
  have hhigh := (ptBase_add_lt h hp hv).1
  rw [← hbase] at hhigh
  rw [word_retire (hbase ▸ ptBase_add_lt_memWords h hp hv) (offBitmap_of_ge h hhigh) (by omega)]
  simp [hv, pteValid]

/-- R92: retiring frees the frames that the valid entries name. -/
theorem isFree_retire {g : Nat} (hg : g < 16 * s.cfg.bitmapWords) : isFree s.cfg (retire s cur).mem g = true ↔
    isFree s.cfg s.mem g = true ∨ ∃ v, v < s.cfg.ptEntries ∧ (s.word (s.ptbr.toNat + v)).getLsbD 0 = true ∧
      pteFrame s.cfg (s.word (s.ptbr.toNat + v)) = g ∧ g < s.cfg.numFrames := by
  have h : s.cfg.wellFormed = true := s.params.wellFormed
  have h3 := three_le_pcbWords h hf
  obtain ⟨p, hp, hbase⟩ := htable
  have hslot := pcb_offBitmap h hcur (i := 0) (by omega)
  have hbit := bmWord_lt h hg
  have hpos := ptEntries_pos h
  have hend := ptBase_add_lt_memWords h hp (v := s.cfg.ptEntries - 1) (by omega)
  have hregion := ptBase_ge s.cfg p
  have hlayout := wf_layout h
  rw [retire_mem, isFree_write h _ _ hg (by omega), isFree_unmapAll h s.mem (by omega) (by omega) hg]
  rfl

end retire

/-- R92: the current slot marked terminated, with nothing unmapped. -/
def marked (s : State) : Memory := s.mem.write s.cfg (pcb s.cfg s.curPid.toNat) (terminatedWord s.cfg)

/-- R92: the state after HALT has retired the current process and switched to `p`. -/
def haltedTo (s : State) (p : Nat) : State := switchTo (retire s s.curPid.toNat) p

section halted
variable {s : State} {p : Nat}

theorem word_haltedTo (p : Nat) {a : Nat} (ha : a < s.cfg.memWords) (hne : a ≠ s.cfg.curPidAddr) :
    (haltedTo s p).word a = (retire s s.curPid.toNat).word a :=
  word_switchTo (retire s s.curPid.toNat) p ha hne

theorem curPid_haltedTo (s : State) (p : Nat) : (haltedTo s p).curPid = BitVec.ofNat 16 p := curPid_switchTo _ p

theorem isFree_haltedTo (p : Nat) {g : Nat} (hg : g < 16 * s.cfg.bitmapWords) :
    isFree s.cfg (haltedTo s p).mem g = isFree s.cfg (retire s s.curPid.toNat).mem g :=
  isFree_switchTo (retire s s.curPid.toNat) p hg

variable (hf : s.cfg.fits = true) (hr : SlotsInRange s) (htable : PtbrIsTable s)
include hf hr

theorem procCount_marked : procCount s.cfg (marked s) = s.procCount := by
  have h : s.cfg.wellFormed = true := s.params.wellFormed
  exact (pids_markTerminated h (three_le_pcbWords h hf) s.mem hr.1).2.1

include htable

/-- R92: retiring leaves the count and the ids that marking the slot leaves. -/
theorem pids_retire_marked : procCount s.cfg (retire s s.curPid.toNat).mem = procCount s.cfg (marked s) ∧
    ∀ q, q < procCount s.cfg (marked s) →
      notTerminated s.cfg (retire s s.curPid.toNat).mem q = notTerminated s.cfg (marked s) q := by
  have h : s.cfg.wellFormed = true := s.params.wellFormed
  have hcount := procCount_marked hf hr
  obtain ⟨p, -, hbase⟩ := htable
  have hlow : LowKept s.cfg (marked s) (retire s s.curPid.toNat).mem :=
    (lowKept_unmapAll h s.mem (hbase ▸ ptBase_ge s.cfg p)).write h (pcb s.cfg s.curPid.toNat) (terminatedWord s.cfg)
  exact ⟨hlow.procCount_eq h, fun q hq =>
    hlow.notTerminated_eq h (three_le_pcbWords h hf) ((hcount ▸ hq).trans_le hr.2)⟩

theorem exec_halt_eq_haltedTo (hserv : Serving s) (h : FirstAfter s.cfg (marked s) s.curPid.toNat p) :
    exec .halt s = .next (haltedTo s p) := by
  obtain ⟨hcount, hids⟩ := pids_retire_marked hf hr htable
  exact exec_halt_of_first hserv (firstAfter_congr hcount hids h)

omit hr in
/-- R92: the context loaded is that saved in the slot. -/
theorem haltedTo_eq (hp : p < s.cfg.maxProcs) : haltedTo s p = { s with
    mem := (haltedTo s p).mem
    pc := s.word (pcb s.cfg p + 1)
    ptbr := s.word (pcb s.cfg p + 2)
    everLoaded := (haltedTo s p).everLoaded
    response := some ⟨.ok, BitVec.ofNat 16 p⟩ } := by
  have h3 := three_le_pcbWords (c := s.cfg) s.params.wellFormed hf
  rw [← word_retire_slot (cur := s.curPid.toNat) htable hp (i := 1) (by omega) (by decide),
    ← word_retire_slot (cur := s.curPid.toNat) htable hp (i := 2) (by omega) (by decide)]
  exact switchTo_eq (retire s s.curPid.toNat) hf hp

end halted

/-- Settles O39: the state HALT leads to by `exec_halt_eq_haltedTo`, its registers by `haltedTo_eq`; its Words and bits
are those after retiring (`word_haltedTo`, `isFree_haltedTo`). -/
theorem haltSwitchesToTheNextLive : Obligations.HaltSwitchesToTheNextLive := by
  rintro s i _ p hf hi hserv hr htable rfl hfirst
  have h : s.cfg.wellFormed = true := s.params.wellFormed
  have h3 := three_le_pcbWords h hf
  have hp : p < s.cfg.maxProcs := (procCount_marked hf hr ▸ firstAfter_lt hfirst).trans_le hr.2
  rw [exec_of_isHalt hi]
  refine ⟨_, exec_halt_eq_haltedTo hf hr htable hserv hfirst, haltedTo_eq hf htable hp, curPid_haltedTo s p,
    fun q => mem_insertPid, ?_, fun v hv => ?_, fun g hg => ?_, fun a ha hne hoff hslot htab => ?_⟩
  · exact (word_haltedTo p (pcb_add_lt_memWords h hr.1 (i := 0) (by omega))
      (pcb_ne_curPidAddr h hr.1 (i := 0) (by omega))).trans (word_retire_self hf hr.1)
  · have ⟨q, hq, hbase⟩ := htable
    have hentry := (ptBase_add_lt h hq hv).1
    have hmarker := curPidAddr_lt_ptRegion h
    rw [word_haltedTo p (hbase ▸ ptBase_add_lt_memWords h hq hv) (by omega)]
    exact word_retire_entry hf hr.1 htable hv
  · rw [isFree_haltedTo p hg]
    exact isFree_retire hf hr.1 htable hg
  · exact (word_haltedTo p ha hne).trans (word_retire_of_ne ha hoff hslot htab)

/-- Settles O40: HALT retires and stops (`exec_halt_of_none`), so its Words and bits are those after retiring. -/
theorem lastHaltStopsTheRun : Obligations.LastHaltStopsTheRun := by
  rintro s i _ hf hi hserv hr htable rfl hall
  obtain ⟨hcount, hids⟩ := pids_retire_marked hf hr htable
  rw [exec_of_isHalt hi]
  refine ⟨_, exec_halt_of_none hserv (allTerminated_congr hcount hids hall), rfl, word_retire_self hf hr.1,
    fun v hv => ?_, fun g => isFree_retire hf hr.1 htable, fun a => word_retire_of_ne⟩
  change pteValid ((retire s s.curPid.toNat).word (s.ptbr.toNat + v)) = false
  rw [word_retire_entry hf hr.1 htable hv]
  split_ifs with hval
  · exact pteValid_clear _
  · exact Bool.eq_false_iff.2 hval

end Sys2Proof.Machine
end

section
/-! PROOFS. BRK (44_traps.md R93, R98): what a grow and a shrink leave of the bitmap and of the other Words, wherever
PTBR points, and the one after the other. -/

namespace Sys2Proof.Machine

open Sys2Proof.Safety

/-! ### An entry at any address (R87, R126 (b)) -/

section memory
variable {c : Config} {m : Memory} {f b a g : Nat}

/-- R65: memory after the Word at `b` has been made the entry of a page mapped to frame `f`; at the address of an entry
of a pid this is `withMapping`. -/
def mappedAt (c : Config) (m : Memory) (b f : Nat) (r w : Bool) : Memory :=
  (markUsed c m f).write c b (mkPte c f r w)

/-- R66: memory after the page whose entry is the Word at `b` has been unmapped; at the address of an entry of a pid
this is `withoutMapping`. -/
def unmappedAt (c : Config) (m : Memory) (b : Nat) : Memory :=
  (markFree c m (pteFrame c (m.read c b))).write c b (m.read c b &&& 0xFFFE#16)

theorem read_mappedAt_of_ne (r w : Bool) (ha : a < c.memWords) (hne : a ≠ b) (hbit : a ≠ bmWord c f) :
    (mappedAt c m b f r w).read c a = m.read c a :=
  (read_write_of_ne _ _ ha hne).trans (read_markUsed m ha hbit)

theorem read_unmappedAt_of_ne (ha : a < c.memWords) (hne : a ≠ b)
    (hbit : pteFrame c (m.read c b) < c.numFrames → a ≠ bmWord c (pteFrame c (m.read c b))) :
    (unmappedAt c m b).read c a = m.read c a :=
  (read_write_of_ne _ _ ha hne).trans (read_markFree m ha hbit)

variable (h : c.wellFormed = true)
include h

/-- R65: mapping clears the bit of the frame, but for a bit in the Word taken for the entry. -/
theorem isFree_mappedAt (r w : Bool) (hg : g < 16 * c.bitmapWords) (hne : bmWord c g ≠ b) :
    isFree c (mappedAt c m b f r w) g = (isFree c m g && decide (g ≠ f)) :=
  (isFree_write h _ _ hg hne).trans (isFree_markUsed h m f hg)

/-- R66: unmapping sets the bit of the frame, if it is a frame, but for a bit in the Word taken for the entry. -/
theorem isFree_unmappedAt (hg : g < 16 * c.bitmapWords) (hne : bmWord c g ≠ b) : isFree c (unmappedAt c m b) g =
    (isFree c m g || decide (g = pteFrame c (m.read c b) ∧ g < c.numFrames)) :=
  (isFree_write h _ _ hg hne).trans (isFree_markFree h m _ hg)

/-- R65: the entry written. -/
theorem entryIs_mappedAt (hf : f < c.numFrames) (r w : Bool) (hb : b < c.memWords) :
    EntryIs c ((mappedAt c m b f r w).read c b) f r w := by
  unfold mappedAt
  rw [read_write_self _ hb]
  exact mkPte_toNat h hf r w

end memory

/-! ### The outcomes of BRK -/

section brk
variable {s : State} {vpn : Nat} (hserv : Serving s)

/-- R18, R20: no entry of a table is a Word of the bitmap. -/
theorem bmWord_ne_entry {g : Nat} (hg : g < 16 * s.cfg.bitmapWords)
    (h : PtbrIsTable s ∨ bmWord s.cfg g ≠ s.ptbr.toNat + vpn) : bmWord s.cfg g ≠ s.ptbr.toNat + vpn := by
  rcases h with ⟨p, -, hbase⟩ | hne
  · have := bmWord_lt_ptRegion (c := s.cfg) s.params.wellFormed hg
    have := ptBase_ge s.cfg p
    omega
  · exact hne

include hserv

theorem exec_grow_of_valid (hval : pteValid (s.word (s.ptbr.toNat + vpn)) = true) (r w : Bool) :
    exec (.brk vpn r w true) s = .next { s with
      log := s.log ++ [⟨.growAlreadyMapped, BitVec.ofNat 16 vpn, s.curPid⟩]
      response := some ⟨.ok, 0⟩ } := by
  rw [exec_brk_of_serving hserv, brkBody_grow (mapPage_of_valid hval r w)]
  rfl

theorem exec_grow_of_noneFree (hinv : pteValid (s.word (s.ptbr.toNat + vpn)) = false) (hnone : NoneFree s.cfg s.mem)
    (r w : Bool) : exec (.brk vpn r w true) s = .next { s with
      log := s.log ++ [⟨.growNoFrame, BitVec.ofNat 16 vpn, s.curPid⟩]
      response := some ⟨.ok, 0⟩ } := by
  rw [exec_brk_of_serving hserv, brkBody_grow (mapPage_of_noneFree hinv hnone r w)]
  rfl

theorem exec_grow_of_lowestFree (hinv : pteValid (s.word (s.ptbr.toNat + vpn)) = false) {f : Nat}
    (hlow : LowestFree s.cfg s.mem f) (r w : Bool) : exec (.brk vpn r w true) s = .next { s with
      mem := mappedAt s.cfg s.mem (s.ptbr.toNat + vpn) f r w
      response := some ⟨.ok, 0⟩ } := by
  obtain ⟨hres, hnum, hfree, hbelow⟩ := hlow
  rw [exec_brk_of_serving hserv,
    brkBody_grow (mapPage_eq_of_lowest s.params.wellFormed r w hinv hres hnum hfree hbelow)]
  simp [brkDone, brkDiag, mappedAt]

theorem exec_shrink_of_invalid (hinv : pteValid (s.word (s.ptbr.toNat + vpn)) = false) (r w : Bool) :
    exec (.brk vpn r w false) s = .next { s with
      log := s.log ++ [⟨.shrinkNotMapped, BitVec.ofNat 16 vpn, s.curPid⟩]
      response := some ⟨.ok, 0⟩ } := by
  rw [exec_brk_of_serving hserv, brkBody_shrink r w (unmapPage_of_invalid hinv)]
  rfl

theorem exec_shrink_of_valid (hval : pteValid (s.word (s.ptbr.toNat + vpn)) = true) (r w : Bool) :
    exec (.brk vpn r w false) s = .next { s with
      mem := unmappedAt s.cfg s.mem (s.ptbr.toNat + vpn)
      response := some ⟨.ok, 0⟩ } := by
  rw [exec_brk_of_serving hserv, brkBody_shrink r w (unmapPage_of_valid hval)]
  simp [brkDone, brkDiag, unmappedAt]

end brk

/-- Settles O42: the three outcomes of a grow; the entry by `entryIs_mappedAt`, the bits by `isFree_mappedAt`, the other
Words by `read_mappedAt_of_ne`. -/
theorem growMapsOrLogs : Obligations.GrowMapsOrLogs := by
  intro s i vpn r w hi _ hserv
  have h : s.cfg.wellFormed = true := s.params.wellFormed
  rw [exec_of_isGrow hi]
  refine ⟨fun hval => exec_grow_of_valid hserv hval r w, fun hinv hnone => exec_grow_of_noneFree hserv hinv hnone r w,
    fun hinv f hlow => ⟨_, exec_grow_of_lowestFree hserv hinv hlow r w, rfl, ?_, fun g hg hne => ?_,
      fun a => read_mappedAt_of_ne r w⟩⟩
  · obtain ⟨-, hnum, -⟩ := hlow
    exact entryIs_mappedAt h hnum r w
  · exact isFree_mappedAt h r w hg (bmWord_ne_entry hg hne)

/-- Settles O43: the two outcomes of a shrink; the entry as written, the bits by `isFree_unmappedAt`, the other Words by
`read_unmappedAt_of_ne`. -/
theorem shrinkUnmapsOrLogs : Obligations.ShrinkUnmapsOrLogs := by
  intro s i vpn hi _ hserv
  have h : s.cfg.wellFormed = true := s.params.wellFormed
  obtain ⟨r, w, hbrk⟩ := exec_of_isShrink hi s
  rw [hbrk]
  exact ⟨fun hinv => exec_shrink_of_invalid hserv hinv r w, fun hval => ⟨_, exec_shrink_of_valid hserv hval r w, rfl,
    fun hlt => read_write_self _ hlt _, fun g hg hne => isFree_unmappedAt h hg (bmWord_ne_entry hg hne),
    fun a => read_unmappedAt_of_ne⟩⟩

/-! ### A grow and then a shrink (R98) -/

section twice
variable {c : Config} {m : Memory} {f b : Nat} (h : c.wellFormed = true) (r w : Bool)
include h

/-- R98: mapping to a frame that was free and unmapping restores every bit outside the Word taken for the entry. -/
theorem isFree_unmappedAt_mappedAt (hfree : isFree c m f = true) (hf : f < c.numFrames) (hb : b < c.memWords) {g : Nat}
    (hg : g < 16 * c.bitmapWords) (hne : bmWord c g ≠ b) :
    isFree c (unmappedAt c (mappedAt c m b f r w) b) g = isFree c m g := by
  have hentry : (mappedAt c m b f r w).read c b = mkPte c f r w := read_write_self _ hb _
  rw [isFree_unmappedAt h hg hne, isFree_mappedAt h r w hg hne, hentry, pteFrame_mkPte h hf]
  by_cases hgf : g = f
  · simp [hgf, hfree, hf]
  · simp [hgf]

/-- R98: so every Word but the entry is as it was. -/
theorem read_unmappedAt_mappedAt (hfree : isFree c m f = true) (hf : f < c.numFrames) (hb : c.ptRegionBase ≤ b)
    (hlt : b < c.memWords) {a : Nat} (ha : a < c.memWords) (hne : a ≠ b) :
    (unmappedAt c (mappedAt c m b f r w) b).read c a = m.read c a := by
  have hentry : (mappedAt c m b f r w).read c b = mkPte c f r w := read_write_self _ hlt _
  by_cases hoff : OffBitmap c a
  · have hbit := ne_bmWord h hoff hf
    rw [read_unmappedAt_of_ne ha hne (by rwa [hentry, pteFrame_mkPte h hf, imp_iff_right hf]),
      read_mappedAt_of_ne r w ha hne hbit]
  · refine read_bitmap_of_bits h (fun g hg => isFree_unmappedAt_mappedAt h r w hfree hf hlt hg ?_) hoff
    have := bmWord_lt_ptRegion h hg
    omega

end twice

/-- R60, R63: while a frame is free there is a lowest one. -/
theorem exists_lowestFree {c : Config} {m : Memory} (h : 0 < freeCount c m) : ∃ f, LowestFree c m f :=
  (lowestFree_or_noneFree c m).resolve_right fun hnone => by
    rw [freeCount_of_noneFree hnone] at h
    exact Nat.lt_irrefl 0 h

/-- R16: mapping a page of a table leaves the marker. -/
theorem curPid_mappedAt {c : Config} (h : c.wellFormed = true) (m : Memory) {b f : Nat} (hb : c.ptRegionBase ≤ b)
    (hf : f < c.numFrames) (r w : Bool) : curPid c (mappedAt c m b f r w) = curPid c m := by
  have := curPidAddr_lt_ptRegion h
  exact read_mappedAt_of_ne r w (curPidAddr_lt h) (by omega) (ne_bmWord h (curPidAddr_offBitmap h) hf)

/-- Settles O44: the grow maps the page to the lowest free frame, so its entry is valid and the shrink unmaps it; the
bits and the Words by `isFree_unmappedAt_mappedAt` and `read_unmappedAt_mappedAt`. -/
theorem growThenShrinkRestoresTheBitmap : Obligations.GrowThenShrinkRestoresTheBitmap := by
  intro s vpn r w hvpn hserv htable hinv hcount
  have h : s.cfg.wellFormed = true := s.params.wellFormed
  obtain ⟨f, hlow⟩ := exists_lowestFree hcount
  have ⟨_, hnum, hfree, _⟩ := hlow
  have ⟨p, hp, hbase⟩ := htable
  have hregion : s.cfg.ptRegionBase ≤ s.ptbr.toNat + vpn := hbase ▸ (ptBase_add_lt h hp hvpn).1
  have hlt : s.ptbr.toNat + vpn < s.cfg.memWords := hbase ▸ ptBase_add_lt_memWords h hp hvpn
  have hserv₁ : Serving { s with
      mem := mappedAt s.cfg s.mem (s.ptbr.toNat + vpn) f r w
      response := some ⟨.ok, 0⟩ } :=
    ⟨hserv.1, fun hno => hserv.2 ((curPid_mappedAt h s.mem hregion hnum r w).symm.trans hno)⟩
  have hval : pteValid ((mappedAt s.cfg s.mem (s.ptbr.toNat + vpn) f r w).read s.cfg (s.ptbr.toNat + vpn)) = true := by
    unfold mappedAt
    rw [read_write_self _ hlt, pteValid_mkPte h hnum]
  refine ⟨_, _, (exec_grow s vpn r w).trans (exec_grow_of_lowestFree hserv hinv hlow r w),
    (exec_shrink _ vpn).trans (exec_shrink_of_valid hserv₁ hval false false), rfl, fun g hg => ?_, ?_,
    fun a => read_unmappedAt_mappedAt h r w hfree hnum hregion hlt⟩
  · exact isFree_unmappedAt_mappedAt h r w hfree hnum hlt hg (bmWord_ne_entry hg (.inl htable))
  · exact (congrArg pteValid (read_write_self _ hlt _)).trans (pteValid_clear _)

end Sys2Proof.Machine
end

section
/-! PROOFS. The scheduler in disciplined states (44_traps.md R95): what a YIELD keeps, two processes that yield to each
other, and how far a live process is from running. -/

namespace Sys2Proof.Machine

open Sys2Proof.Safety

/-! ### A YIELD that switches -/

/-- R90, R91: a YIELD from `s` that switches to `p`, in a disciplined state whose configuration fits. -/
structure Yields (s : State) (p : Nat) : Prop where
  /-- log 24 -/
  fits : s.cfg.fits = true
  /-- R26 -/
  disciplined : Disciplined s
  /-- R53: it is not refused -/
  serving : Serving s
  /-- R90: the pid the scan finds -/
  first : FirstAfter s.cfg s.mem s.curPid.toNat p

section yields
variable {s : State} {p : Nat} (hy : Yields s p)
include hy

theorem Yields.slots : SlotsInRange s := slotsInRange_of_disciplined hy.disciplined hy.serving

theorem Yields.lt : p < s.cfg.maxProcs := (firstAfter_lt hy.first).trans_le hy.disciplined.bounded

theorem Yields.exec_eq : exec .yield s = .next (yieldedTo s p) :=
  exec_yield_eq_yieldedTo hy.fits hy.serving hy.slots hy.first

theorem Yields.disciplined_yieldedTo : Disciplined (yieldedTo s p) :=
  (advances_exec hy.fits hy.disciplined (i := .yield) rfl
    (hy.disciplined.currentLive hy.serving.1 hy.serving.2) hy.exec_eq).disciplined

theorem Yields.toNat_curPid : (yieldedTo s p).curPid.toNat = p :=
  (congrArg BitVec.toNat (curPid_yieldedTo s p)).trans (toNat_pid s.params.wellFormed hy.fits hy.lt.le)

/-- R7 (h): no pid equals the marker's value before any LOAD. -/
theorem Yields.serving_yieldedTo : Serving (yieldedTo s p) := by
  refine ⟨hy.serving.1, fun hno => ?_⟩
  have hpid := hy.toNat_curPid
  have hlt := hy.lt
  have hsentinel := wf_rest (c := s.cfg) s.params.wellFormed
  rw [hno, show noProcessWord (yieldedTo s p).cfg = noProcessWord s.cfg from rfl,
    toNat_noProcessWord (c := s.cfg) s.params.wellFormed hy.fits] at hpid
  omega

theorem Yields.procCount_eq : (yieldedTo s p).procCount = s.procCount := (pids_yieldedTo hy.fits hy.slots hy.lt).1

/-- A live process stays live. -/
theorem Yields.live_yieldedTo {q : Nat} (hq : live s.cfg s.mem q = true) : live s.cfg (yieldedTo s p).mem q = true := by
  obtain ⟨hcount, hids⟩ := pids_yieldedTo hy.fits hy.slots hy.lt
  obtain ⟨hlt, hnt⟩ := live_iff.1 hq
  exact live_iff.2 ⟨Nat.lt_of_lt_of_eq hlt hcount.symm, (hids q hlt).trans hnt⟩

end yields

/-! ### Two processes (R95 (c)) -/

/-- R90: of two created pids a live one comes after the other. -/
theorem firstAfter_of_two {c : Config} {m : Memory} {cur p : Nat} (hn : procCount c m = 2)
    (hp : (cur + 1) % 2 = p) (hlive : live c m p = true) : FirstAfter c m cur p :=
  ⟨1, by omega, by omega, by rw [hn, hp], (live_iff.1 hlive).2, fun j hj1 hj2 => by omega⟩

/-- Settles O37: two YIELDs in disciplined states, each to the other pid (`firstAfter_of_two`); the second loads the
context that the first saved (`slot_yieldedTo`), and neither writes the tables or the frames
(`word_yieldedTo_region`). -/
theorem twoProcessesYieldThereAndBack : Obligations.TwoProcessesYieldThereAndBack := by
  intro s hf hd hserv hn hlive0 hlive1 hcur
  have hcur : s.curPid.toNat = 0 := congrArg BitVec.toNat hcur
  have hy : Yields s 1 := ⟨hf, hd, hserv, firstAfter_of_two hn (by rw [hcur]) hlive1⟩
  obtain ⟨hpc, hptbr⟩ := context_yieldedTo hf hy.lt (by omega)
  obtain ⟨hsavedPc, hsavedPtbr⟩ := slot_yieldedTo hf 1 hy.slots.1
  rw [hcur] at hsavedPc hsavedPtbr
  refine ⟨_, hy.exec_eq, curPid_yieldedTo s 1, hpc, ?_, fun pc' => ?_⟩
  · rw [hptbr]
    exact (hd.slots 1 (firstAfter_lt hy.first)).2
  · have hcur₁ : ({ yieldedTo s 1 with pc := pc' } : State).curPid.toNat = 1 := hy.toNat_curPid
    have hy₁ : Yields { yieldedTo s 1 with pc := pc' } 0 := ⟨hf,
      (advances_of_sameMem (t := { yieldedTo s 1 with pc := pc' }) hy.disciplined_yieldedTo rfl rfl id rfl).disciplined,
      hy.serving_yieldedTo,
      firstAfter_of_two (hy.procCount_eq.trans hn) (by rw [hcur₁]) (hy.live_yieldedTo hlive0)⟩
    obtain ⟨hpc₁, hptbr₁⟩ := context_yieldedTo hy₁.fits hy₁.lt (by omega)
    have hsavedPc₁ := (slot_yieldedTo hy₁.fits 0 hy₁.slots.1).1
    rw [hcur₁] at hsavedPc₁
    exact ⟨_, hy₁.exec_eq, curPid_yieldedTo _ 0, hpc₁.trans hsavedPc, hptbr₁.trans hsavedPtbr, hsavedPc₁,
      fun a ha hregion => (word_yieldedTo_region hy₁.fits 0 hy₁.slots.1 ha hregion).trans
        (word_yieldedTo_region hf 1 hy.slots.1 ha hregion)⟩

/-! ### The distance to a live process (R95 (b)) -/

theorem yieldTimes_succ {s t : State} (h : exec .yield s = .next t) (k : Nat) :
    yieldTimes (k + 1) s = yieldTimes k t := by
  simp only [yieldTimes, h]

/-- R90: the scan does not pass over a live pid. -/
theorem firstAfter_within {c : Config} {m : Memory} {cur p d : Nat} (h : FirstAfter c m cur p) (hd : 1 ≤ d)
    (hlive : notTerminated c m ((cur + d) % procCount c m) = true) :
    ∃ k, 1 ≤ k ∧ k ≤ d ∧ (p + (d - k)) % procCount c m = (cur + d) % procCount c m := by
  obtain ⟨k, hk1, hkn, rfl, -, hskip⟩ := h
  have hkd : k ≤ d := by
    by_contra hlt
    rw [hskip d hd (by omega)] at hlive
    cases hlive
  refine ⟨k, hk1, hkd, ?_⟩
  rw [Nat.mod_add_mod, show cur + k + (d - k) = cur + d by omega]

/-- R95 (b): a live process at distance `d` from the current one runs within `d` YIELDs. -/
theorem runs_within {d : Nat} {s : State} {q : Nat} (hf : s.cfg.fits = true) (h : Disciplined s) (hserv : Serving s)
    (hq : live s.cfg s.mem q = true) (hdist : (s.curPid.toNat + d) % s.procCount = q) :
    ∃ k t, k ≤ d ∧ yieldTimes k s = some t ∧ t.curPid.toNat = q := by
  induction d using Nat.strong_induction_on generalizing s with
  | _ d ih =>
    rcases Nat.eq_zero_or_pos d with rfl | hpos
    · exact ⟨0, s, Nat.le_refl 0, rfl, by rwa [Nat.add_zero, Nat.mod_eq_of_lt (h.current hserv.2).1] at hdist⟩
    · obtain ⟨p, hfirst⟩ := exists_firstAfter_of_disciplined h hserv
      have hy : Yields s p := ⟨hf, h, hserv, hfirst⟩
      obtain ⟨j, hj1, hjd, hj⟩ := firstAfter_within hfirst hpos
        (show notTerminated s.cfg s.mem ((s.curPid.toNat + d) % s.procCount) = true from
          hdist.symm ▸ (live_iff.1 hq).2)
      obtain ⟨k, t, hk, ht, htq⟩ := ih (d - j) (by omega) (s := yieldedTo s p) hf hy.disciplined_yieldedTo
        hy.serving_yieldedTo (hy.live_yieldedTo hq) (by rw [hy.toNat_curPid, hy.procCount_eq, ← hdist]; exact hj)
      exact ⟨k + 1, t, by omega, (yieldTimes_succ hy.exec_eq k).trans ht, htq⟩

/-- Settles O38: every created pid is met within one cycle (`exists_distance`), and `runs_within` that many YIELDs. -/
theorem liveProcessRunsWithinOneCycle : Obligations.LiveProcessRunsWithinOneCycle := by
  intro s q hf h hserv hq
  obtain ⟨d, -, hd, hdist⟩ := exists_distance s.curPid.toNat (live_iff.1 hq).1
  obtain ⟨k, t, hk, ht, htq⟩ := runs_within hf h hserv hq hdist
  exact ⟨k, t, hk.trans hd, ht, htq⟩

end Sys2Proof.Machine
end

section
/-! PROOFS. What a HALT returns in a disciplined state (44_traps.md R97): the pages of one process, counted, and one
live process less. -/

namespace Sys2Proof.Machine

open Sys2Proof.Safety

/-! ### Counting (R22, R63, R97) -/

section count
variable {c : Config} {m m' : Memory} {n p : Nat}

/-- Of two predicates that differ on one element of a list without repetition, the one true there counts one more. -/
theorem countP_eq_succ {l : List Nat} (hl : l.Nodup) {a : Nat} (ha : a ∈ l) {P Q : Nat → Bool} (hP : P a = true)
    (hQ : Q a = false) (hothers : ∀ b ∈ l, b ≠ a → Q b = P b) : l.countP Q + 1 = l.countP P := by
  have hrest : (l.erase a).countP Q = (l.erase a).countP P := List.countP_congr fun b hb => by
    obtain ⟨hne, hmem⟩ := hl.mem_erase_iff.1 hb
    rw [hothers b hmem hne]
  rw [(List.perm_cons_erase ha).countP_eq, (List.perm_cons_erase ha).countP_eq, List.countP_cons_of_pos hP,
    List.countP_cons_of_neg (Bool.eq_false_iff.1 hQ), hrest]

theorem liveCount_congr (hcount : procCount c m' = procCount c m)
    (hids : ∀ q, q < procCount c m → notTerminated c m' q = notTerminated c m q) : liveCount c m' = liveCount c m := by
  unfold liveCount
  rw [hcount]
  exact List.countP_congr fun q hq => by rw [hids q (List.mem_range.1 hq)]

/-- R97: one live process less. -/
theorem liveCount_eq_succ (hcount : procCount c m' = procCount c m) (hlive : live c m p = true)
    (hended : notTerminated c m' p = false)
    (hothers : ∀ q, q < procCount c m → q ≠ p → notTerminated c m' q = notTerminated c m q) :
    liveCount c m' + 1 = liveCount c m := by
  obtain ⟨hp, hnt⟩ := live_iff.1 hlive
  unfold liveCount
  rw [hcount]
  exact countP_eq_succ List.nodup_range (List.mem_range.2 hp) hnt hended fun q hq => hothers q (List.mem_range.1 hq)

theorem liveCount_eq_zero_iff : liveCount c m = 0 ↔ AllTerminated c m := by
  simp [liveCount, AllTerminated]

variable (h : c.wellFormed = true)
include h

/-- R63: the unmapping of a page whose frame is assignable and in use adds one to the free frames. -/
theorem freeCount_withoutMapping {v : Nat} (hframe : c.reservedFrames ≤ pteFrame c (entry c m p v) ∧
    pteFrame c (entry c m p v) < c.numFrames ∧ isFree c m (pteFrame c (entry c m p v)) = false) :
    freeCount c (withoutMapping c m p v) = freeCount c m + 1 := by
  obtain ⟨hres, hnum, hused⟩ := hframe
  exact freeCount_eq_succ hres hnum hused (by simp [isFree_withoutMapping h m p v hnum])
    fun g hg hne => by simp [isFree_withoutMapping h m p v hg, hne]

/-- R97: the unmapping of the listed pages of a process frees one frame for each that was mapped; by R26 (b) and (c)
each names a frame of its own that was in use. -/
theorem Owned.freeCount_unmapEach (h3 : 3 ≤ c.pcbWords) (hp : p < c.maxProcs) (vs : List Nat) (hnd : vs.Nodup)
    (hvs : ∀ v ∈ vs, v < c.ptEntries) (ho : Owned c m n) : freeCount c (Machine.unmapEach c (ptBase c p) vs m) =
      freeCount c m + vs.countP fun v => pteValid (entry c m p v) := by
  induction vs generalizing m with
  | nil => rfl
  | cons v vs ih =>
    obtain ⟨hv, hnd⟩ := List.nodup_cons.1 hnd
    have hvb := hvs v (by simp)
    have hub {u : Nat} (hu : u ∈ vs) := hvs u (by simp [hu])
    rw [unmapEach_cons, ih hnd (fun u => hub) (ho.unmapPage h h3 hp hvb)]
    cases hval : pteValid (entry c m p v) with
    | false =>
      rw [unmapPage_of_invalid hval, List.countP_cons_of_neg (by simp [hval])]
    | true =>
      have hkept : ∀ u ∈ vs, entry c (Machine.withoutMapping c m p v) p u = entry c m p u := fun u hu => by
        rw [entry_withoutMapping h m hvb hp (hub hu), if_neg]
        rintro ⟨-, rfl⟩
        exact hv hu
      rw [unmapPage_of_valid hval, List.countP_cons_of_pos (by simp [hval])]
      change freeCount c (Machine.withoutMapping c m p v) +
        vs.countP (fun u => pteValid (entry c (Machine.withoutMapping c m p v) p u)) = _
      rw [freeCount_withoutMapping h (ho.named p (ho.lt_of_valid hp hvb hval) v hvb hval),
        List.countP_congr fun u hu => by rw [hkept u hu]]
      omega

/-- R97: the unmapping of the whole table frees as many frames as the process had pages. -/
theorem Owned.freeCount_unmapAll (h3 : 3 ≤ c.pcbWords) (hp : p < c.maxProcs) (ho : Owned c m n) :
    freeCount c (Machine.unmapAll c m (ptBase c p)) = freeCount c m + pageCount c m p :=
  ho.freeCount_unmapEach h h3 hp _ List.nodup_range fun _ => List.mem_range.1

end count

/-! ### After a HALT -/

section halt
variable {s : State}

/-- R92: HALT leaves memory as retiring does, but for the marker. -/
theorem read_haltBody (s : State) {a : Nat} (ha : a < s.cfg.memWords) (hne : a ≠ s.cfg.curPidAddr) :
    (haltBody s).mem.read s.cfg a = (retire s s.curPid.toNat).mem.read s.cfg a := by
  rcases haltBody_spec s with ⟨p, -, he⟩ | ⟨-, he⟩ <;> rw [he]
  · exact word_haltedTo p ha hne
  · rfl

/-- R92: HALT stops the run exactly when retiring leaves no process live. -/
theorem haltBody_running_iff (hrun : s.running = true) :
    (haltBody s).running = false ↔ AllTerminated s.cfg (retire s s.curPid.toNat).mem := by
  rcases haltBody_spec s with ⟨p, hnext, he⟩ | ⟨hnone, he⟩ <;> rw [he]
  · obtain ⟨hlt, hnt⟩ := live_iff.1 (nextLive_live hnext)
    refine iff_of_false (by simp [hrun]) fun hall => ?_
    cases (hall p hlt).symm.trans hnt
  · exact iff_of_true rfl (allTerminated_of_nextLive_none hnone)

/-- R92: a Word that is neither the marker nor the slot's id is left as unmapping the table leaves it. -/
theorem read_haltBody_of_ne {a : Nat} (ha : a < s.cfg.memWords) (hne : a ≠ s.cfg.curPidAddr)
    (hid : a ≠ pcb s.cfg s.curPid.toNat) :
    (haltBody s).mem.read s.cfg a = (unmapAll s.cfg s.mem s.ptbr.toNat).read s.cfg a :=
  (read_haltBody s ha hne).trans (read_write_of_ne _ _ ha hid)

variable (hf : s.cfg.fits = true) (hr : SlotsInRange s)
include hf

/-- R92: the count and the ids are those after retiring. -/
theorem pids_haltBody : procCount s.cfg (haltBody s).mem = procCount s.cfg (retire s s.curPid.toNat).mem ∧
    ∀ q, q < s.cfg.maxProcs →
      notTerminated s.cfg (haltBody s).mem q = notTerminated s.cfg (retire s s.curPid.toNat).mem q := by
  have h : s.cfg.wellFormed = true := s.params.wellFormed
  have h3 := three_le_pcbWords h hf
  refine ⟨congrArg BitVec.toNat (read_haltBody s (procCountAddr_lt h) (wf_layout h).2.1.symm), fun q hq => ?_⟩
  exact notTerminated_congr (read_haltBody s (pcb_add_lt_memWords h hq (i := 0) (by omega))
    (pcb_ne_curPidAddr h hq (i := 0) (by omega)))

include hr

/-- R92: the entries are those that unmapping the table leaves. -/
theorem entry_haltBody {q v : Nat} (hq : q < s.cfg.maxProcs) (hv : v < s.cfg.ptEntries) :
    entry s.cfg (haltBody s).mem q v = entry s.cfg (unmapAll s.cfg s.mem s.ptbr.toNat) q v := by
  have h : s.cfg.wellFormed = true := s.params.wellFormed
  have h3 := three_le_pcbWords h hf
  have hregion := ptBase_ge s.cfg q
  have hmarker := curPidAddr_lt_ptRegion h
  have hslot := (pcb_add_lt h hr.1 (i := 0) (by omega)).2.2
  exact read_haltBody_of_ne (ptBase_add_lt_memWords h hq hv) (by omega) (by omega)

/-- R92: the bits of the frames are those that unmapping the table leaves. -/
theorem isFree_haltBody {g : Nat} (hg : g < s.cfg.numFrames) :
    isFree s.cfg (haltBody s).mem g = isFree s.cfg (unmapAll s.cfg s.mem s.ptbr.toNat) g := by
  have h : s.cfg.wellFormed = true := s.params.wellFormed
  have h3 := three_le_pcbWords h hf
  have hbits := frame_lt_bits h hg
  have hbit := bmWord_lt h hbits
  have hmarker := curPidAddr_offBitmap h
  have hslot := pcb_offBitmap h hr.1 (i := 0) (by omega)
  exact isFree_congr (read_haltBody_of_ne (bmWord_lt_memWords h hbits) (by omega) (by omega))

end halt

/-- R92: unmapping the table of one pid leaves the entries of every other. -/
theorem entry_unmapAll_of_ne {c : Config} (h : c.wellFormed = true) (m : Memory) {p q v : Nat} (hq : q < c.maxProcs)
    (hv : v < c.ptEntries) (hne : q ≠ p) : entry c (unmapAll c m (ptBase c p)) q v = entry c m q v := by
  unfold entry
  rw [read_unmapAll h m _ (ptBase_add_lt_memWords h hq hv) (offBitmap_of_ge h (ptBase_add_lt h hq hv).1), if_neg]
  rintro ⟨hin, -⟩
  exact hne (ptBase_add_inj h hv (w := ptBase c q + v - ptBase c p) (by omega) (by omega)).1

section disciplined
variable {s : State} (hf : s.cfg.fits = true) (hd : Disciplined s) (hserv : Serving s)
include hf hd hserv

/-- R97: HALT ends the current process and no other. -/
theorem liveCount_haltBody : notTerminated s.cfg (haltBody s).mem s.curPid.toNat = false ∧
    liveCount s.cfg (haltBody s).mem = liveCount s.cfg (retire s s.curPid.toNat).mem ∧
    liveCount s.cfg (retire s s.curPid.toNat).mem + 1 = liveCount s.cfg s.mem := by
  obtain ⟨hlt, hbase⟩ := hd.current hserv.2
  have hcur := hlt.trans_le hd.bounded
  obtain ⟨-, hcount, hended, hothers⟩ := pids_retire hf hcur (hbase ▸ ptBase_ge s.cfg s.curPid.toNat)
  have hcount : procCount s.cfg (retire s s.curPid.toNat).mem = procCount s.cfg s.mem := hcount
  obtain ⟨hcount', hids⟩ := pids_haltBody hf
  have hmax {q : Nat} (hq : q < procCount s.cfg s.mem) : q < s.cfg.maxProcs := hq.trans_le hd.bounded
  exact ⟨(hids _ hcur).trans hended, liveCount_congr hcount' fun q hq => hids q (hmax (hcount ▸ hq)),
    liveCount_eq_succ hcount (hd.currentLive hserv.1 hserv.2) hended fun q hq => hothers q (hmax hq)⟩

/-- R97: HALT returns a frame for each page the current process had, and leaves it none. -/
theorem pages_haltBody : freeCount s.cfg (haltBody s).mem =
      freeCount s.cfg s.mem + pageCount s.cfg s.mem s.curPid.toNat ∧
    pageCount s.cfg (haltBody s).mem s.curPid.toNat = 0 := by
  have h : s.cfg.wellFormed = true := s.params.wellFormed
  have hr := slotsInRange_of_disciplined hd hserv
  have hbase := (hd.current hserv.2).2
  constructor
  · rw [freeCount_congr fun g _ hg => isFree_haltBody hf hr hg, hbase]
    exact ((disciplined_iff s).1 hd).1.freeCount_unmapAll h (three_le_pcbWords h hf) hr.1
  · refine List.countP_eq_zero.2 fun v hv => ?_
    have hv := List.mem_range.1 hv
    rw [entry_haltBody hf hr hr.1 hv, hbase, pteValid_unmapAll h s.mem hr.1 hv]
    exact Bool.false_ne_true

end disciplined

/-- Settles O41: the processes by `liveCount_haltBody`, the pages by `pages_haltBody`, the end of the run by
`haltBody_running_iff`; the other tables are not the one unmapped (`entry_unmapAll_of_ne`). -/
theorem haltReturnsEveryPage : Obligations.HaltReturnsEveryPage := by
  intro s hf hd hserv
  have h : s.cfg.wellFormed = true := s.params.wellFormed
  have hr := slotsInRange_of_disciplined hd hserv
  obtain ⟨hended, hlive, hless⟩ := liveCount_haltBody hf hd hserv
  obtain ⟨hfree, hpages⟩ := pages_haltBody hf hd hserv
  refine ⟨_, exec_halt_of_serving hserv, hended, hlive ▸ hless, hfree, hpages, ?_, fun q hq hne v hv => ?_⟩
  · rw [haltBody_running_iff ((runEnable_iff s).1 hserv.1).1, ← liveCount_eq_zero_iff]
    omega
  · have hq := hq.trans_le hd.bounded
    rw [entry_haltBody hf hr hq hv, (hd.current hserv.2).2, entry_unmapAll_of_ne h s.mem hq hv hne]

end Sys2Proof.Machine
end

section
/-! PROOFS. The end of a run (60_exceptions.md R104, R110, R115): what a step still does once the run has stopped or
aborted, and the fault latch and the diagnostic log, which every step keeps in agreement. -/

namespace Sys2Proof.Machine

open Sys2Proof.Safety

/-! ### After the end of the run (R115) -/

section ended
variable {s : State} (hend : s.runEnable = false)
include hend

/-- R53 (a), (b): an ended run refuses every operation. -/
theorem exec_of_ended (i : Instr) : exec i s = .next (refuse s) := by
  rcases (runEnable_eq_false_iff s).1 hend with haborted | hstopped
  · exact exec_of_mustRefuse (.inl haborted)
  · exact exec_of_mustRefuse (.inr (.inl hstopped))

/-- R12, R115: the CPU loop no longer writes PC (log 8). -/
theorem setPc_of_ended (v : Word) : setPc s v = s := by
  unfold setPc
  rw [hend]
  rfl

/-- R115: a step that is no reset takes its input and leaves at most a new response. -/
theorem step_of_ended (hreset : ∀ rest, s.input ≠ .reset :: rest) :
    ∃ r, step s = .next { s with response := r, input := s.input.tail } := by
  rcases step_cases s with ⟨hi, he⟩ | ⟨i, rest, hi, hcases⟩
  · refine ⟨s.response, he.trans ?_⟩
    rw [hi, List.tail_nil, ← hi]
  rw [hi, List.tail_cons]
  rcases hcases with ⟨_, j, -, -, he⟩ | ⟨_, err, -, -, he⟩ | ⟨v, -, he⟩ | ⟨rfl, -⟩
  · exact ⟨_, he.trans (exec_of_ended (s := { s with input := rest }) hend j)⟩
  · cases err with
    | illegalCommandWord cw => exact ⟨_, he⟩
    | foreignTrapVector w => exact ⟨_, he⟩
  · exact ⟨_, he.trans (congrArg _ (setPc_of_ended (s := { s with input := rest }) hend v))⟩
  · exact absurd hi (hreset rest)

end ended

/-- Settles O47: `step_of_ended` gives the next state. -/
theorem endedRunIsFrozen : Obligations.EndedRunIsFrozen := by
  intro s hend hreset
  obtain ⟨r, he⟩ := step_of_ended hend hreset
  exact ⟨_, he, rfl⟩

/-! ### The latch and the log (R104, R110) -/

section latch
variable {s t : State}

/-- The agreement is about the latch, the log and the current pid alone. -/
theorem latchMatchesLog_congr (h : LatchMatchesLog s) (hfault : t.fault = s.fault) (hlog : t.log = s.log)
    (hpid : t.curPid = s.curPid) : LatchMatchesLog t := by
  unfold LatchMatchesLog
  rw [hfault, hlog, hpid]
  exact h

/-- With no fault latched the agreement says nothing of the current pid. -/
theorem latchMatchesLog_iff_of_unlatched (hnone : s.fault.cause = .none) : LatchMatchesLog s ↔
    s.fault = ⟨.none, 0, .read⟩ ∧ s.log.all (fun e => !isFaultEvent e) = true := by
  unfold LatchMatchesLog
  rw [hnone]
  rfl

/-- R104: fault entry latches and logs one event, which is the first fault event where there was none. -/
theorem latchMatchesLog_raiseFault {cause : FaultCause} (hcause : cause ≠ .none)
    (hlog : s.log.all (fun e => !isFaultEvent e) = true) (va : Word) (k : AccessKind) :
    LatchMatchesLog (raiseFault s cause va k) := by
  cases cause with
  | none => exact absurd rfl hcause
  | reservedRegion | unmappedAccess | permissionViolation => exact ⟨s.log, rfl, hlog⟩

/-- The latch of `t` is that of `s`, and the log has grown by other events than those of faults. -/
def LogsNoFault (s t : State) : Prop :=
  t.fault = s.fault ∧ ∃ l, t.log = s.log ++ l ∧ l.all (fun e => !isFaultEvent e) = true

theorem LogsNoFault.of_eq (hfault : t.fault = s.fault) (hlog : t.log = s.log) : LogsNoFault s t :=
  ⟨hfault, [], by rw [hlog, List.append_nil], rfl⟩

theorem LogsNoFault.latchMatchesLog (ht : LogsNoFault s t) (hnone : s.fault.cause = .none)
    (h : LatchMatchesLog s) : LatchMatchesLog t := by
  obtain ⟨hfault, l, hlog, hl⟩ := ht
  obtain ⟨hlatch, hs⟩ := (latchMatchesLog_iff_of_unlatched hnone).1 h
  refine (latchMatchesLog_iff_of_unlatched (by rw [hfault, hnone])).2 ⟨hfault.trans hlatch, ?_⟩
  rw [hlog, List.all_append, hs, hl]
  rfl

/-- R93, R111: no event of BRK is a fault's. -/
theorem isFaultEvent_of_brkDiag {grow : Bool} {status : Status} {d : DiagCode} (hd : brkDiag grow status = some d)
    (a b : Word) : isFaultEvent ⟨d, a, b⟩ = false := by
  unfold brkDiag at hd
  split at hd <;> cases hd <;> rfl

theorem logsNoFault_brkBody (s : State) (vpn : Nat) (r w g : Bool) : LogsNoFault s (brkBody vpn r w g s) := by
  refine ⟨brkBody_fault .., _, congrArg State.log (brkBody_spec s vpn r w g), ?_⟩
  cases hd : brkDiag g (brkRet s vpn r w g).status with
  | none => rfl
  | some d => simp [isFaultEvent_of_brkDiag hd]

/-- R104, R110: fault entry is the one effect that sets the latch or logs a fault event. -/
theorem Effect.logsNoFault_or_faulted {i : Instr} (h : Effect s i t) :
    LogsNoFault s t ∨ ∃ cause va k, cause ≠ .none ∧ t = raiseFault s cause va k := by
  cases h with
  | faulted _ hcause => exact .inr ⟨_, _, _, hcause, rfl⟩
  | tableFull => exact .inl ⟨rfl, _, rfl, rfl⟩
  | grown | shrunk => exact .inl (logsNoFault_brkBody ..)
  | yielded => exact .inl (.of_eq (yieldBody_fault s) (yieldBody_log s))
  | halted => exact .inl (.of_eq (haltBody_fault s) (haltBody_log s))
  | refused | allocated | freed | mapped | unmapped | answered | stored | created | loaded =>
    exact .inl (.of_eq rfl rfl)

/-- An operation keeps the agreement: under a latched fault it is refused (R53 (a)), else it logs no fault or enters the
first one. -/
theorem latchMatchesLog_exec {i : Instr} (h : LatchMatchesLog s) (he : exec i s = .next t) : LatchMatchesLog t := by
  by_cases hnone : s.fault.cause = .none
  · rcases (exec_effect he).logsNoFault_or_faulted with hno | ⟨cause, va, k, hcause, rfl⟩
    · exact hno.latchMatchesLog hnone h
    · exact latchMatchesLog_raiseFault hcause ((latchMatchesLog_iff_of_unlatched hnone).1 h).2 va k
  · cases (exec_of_mustRefuse (.inl hnone)).symm.trans he
    exact latchMatchesLog_congr h rfl rfl rfl

end latch

/-- Settles O50: a step runs an operation (`latchMatchesLog_exec`), or touches neither the latch nor the log nor the
current pid, or resets. -/
theorem stepKeepsLatchAndLogTogether : Obligations.StepKeepsLatchAndLogTogether := by
  intro s t h hstep
  rcases step_cases s with
    ⟨-, he⟩ | ⟨_, rest, -, ⟨_, _, -, -, he⟩ | ⟨_, err, -, -, he⟩ | ⟨v, -, he⟩ | ⟨-, he⟩⟩ <;> rw [he] at hstep
  · cases hstep; exact h
  · exact latchMatchesLog_exec (s := { s with input := rest }) h hstep
  · cases hstep; cases err <;> exact latchMatchesLog_congr h rfl rfl rfl
  · cases hstep; exact latchMatchesLog_congr h rfl rfl rfl
  · cases hstep; exact resetLatchMatchesLog s.params

end Sys2Proof.Machine
end
